-- ==== Sys2Proof/Word.lean ====
section
/-! DEFINITION. The widths of the values the block handles (spec/00_scope.md R7 to R10, spec/10_state.md R20):
bytes, node addresses, CAN identifiers, clock values, and the two fixed payload arrays. -/

namespace Sys2Proof

/-- One payload byte (R10). -/
abbrev Byte := BitVec 8

/-- A node address after masking: `ADDR_WIDTH` is fixed at 7 bits (R7, R13). -/
abbrev Addr := BitVec 7

/-- A CAN identifier: `ID_WIDTH` is fixed at 11 bits, 0 to 0x7FF (R7, R20). -/
abbrev CanId := BitVec 11

/-- A clock value: `TIME_WIDTH` is 32 bits (R7, R30, decision D19). -/
abbrev Time := BitVec 32

/-- An opaque listener callback handle; the block never inspects it (R34). -/
abbrev Handle := Nat

/-- The four payload bytes of an SDO descriptor, `data[0..3]` (R22). -/
structure Bytes4 where
  b0 : Byte
  b1 : Byte
  b2 : Byte
  b3 : Byte
  deriving DecidableEq, Repr

/-- The eight byte slots of a frame, `data[0..7]` (R10, R20). -/
structure Bytes8 where
  b0 : Byte
  b1 : Byte
  b2 : Byte
  b3 : Byte
  b4 : Byte
  b5 : Byte
  b6 : Byte
  b7 : Byte
  deriving DecidableEq, Repr

/-- Four zero bytes. -/
def Bytes4.zero : Bytes4 := ⟨0, 0, 0, 0⟩

/-- Eight zero bytes. -/
def Bytes8.zero : Bytes8 := ⟨0, 0, 0, 0, 0, 0, 0, 0⟩

end Sys2Proof
end

