-- ==== Sys2Proof/Config.lean ====
section
/-! DEFINITION. The parameters of the block (spec/00_scope.md R7) and the values the spec leaves open.
A parameter the spec gives a value is a definition here. A parameter marked OPEN, or settable, is a field of
`Params`, which the state carries and no operation writes: a statement over all states holds for every value of it.
A value nothing fixes is an `opaque` constant without a body, so that no proof can see what it is. -/

namespace Sys2Proof

/-- The two roles of the block, fixed at `INIT` (R27, R270). -/
inductive Role where
  | master
  | slave
  deriving DecidableEq, Repr

/-- What the transport answers to a `Tx` (R60): the environment's choice. -/
inductive TxResult where
  | ok
  | busError
  deriving DecidableEq, Repr, Inhabited

/-- The setting `SDO_REPLY_NODE_MASTER` (R7, R184): what a master puts into the `node` field of a received reply. -/
inductive ReplyNode where
  | source
  | own
  deriving DecidableEq, Repr

/-- The parameters of R7 that are OPEN or have an alternative setting; fixed for one block. -/
structure Params where
  /-- `HB_LAST_RESET`: what `INIT` puts into `hb_last`; OPEN, suggested 0 (R7, R30). -/
  hbLastReset : Time
  /-- `HB_RESET_BYTE`: the heartbeat byte of state `Reset`; OPEN (R7, R90, R211). -/
  hbResetByte : Byte
  /-- `SDO_REPLY_NODE_MASTER` (R7, R184). -/
  replyNode : ReplyNode
  deriving DecidableEq, Repr

namespace Config

/-- `LISTENER_SLOTS`, slots per event category (R7, R34). -/
def listenerSlots : Nat := 6

/-- `FILTER_CAP`, the Listen Filter's capacity (R7, R33). -/
def filterCap : Nat := 12

/-- `SDO_MAX_LEN`, the largest SDO payload (R7). -/
def sdoMaxLen : Nat := 4

/-- `FRAME_MAX_LEN`, the largest frame payload (R7). -/
def frameMaxLen : Nat := 8

/-- The SDO command value Read (R22, R170). -/
def sdoCmdRead : Byte := 0x40

/-- The SDO command value WriteAck (R22, R170). -/
def sdoCmdWriteAck : Byte := 0x60

/-- `SDO_CMD_WRITE` (R7, R170, decision D11: the spec takes it from general knowledge). No rule of the block tests it:
only descriptors and frames that carry a Write hold it. -/
def sdoCmdWrite : Byte := 0x20

/-- The default heartbeat interval, 1000 time-units (R7, R30). -/
def defaultHbInterval : Time := 1000

/-- DESIGN CHOICE (log entry 2, unsafe): the `OWN_ADDR` of the `INIT` that `State.reset` stands for.
The spec gives no default address (N26). -/
def resetOwn : Addr := 1

/-- DESIGN CHOICE (log entry 2, unsafe): the `ROLE` of the `INIT` that `State.reset` stands for.
The spec gives no default role (N26). -/
def resetRole : Role := .slave

/-- DESIGN CHOICE (log entry 2, unsafe): the `DEBUG` of the `INIT` that `State.reset` stands for. -/
def resetDebug : Bool := false

/-- `HB_RESET_BYTE` of the block that `State.reset` describes: OPEN, an unconstrained byte (R211, decision D10).
A free value: nothing constrains it (log entry 3). -/
opaque hbResetByte : Byte

/-- The parameters of the block `State.reset` describes: `HB_LAST_RESET` at the spec's suggested 0 and
`SDO_REPLY_NODE_MASTER` at the spec's setting `source` (R7); the heartbeat byte of `Reset` stays free. -/
def params : Params := { hbLastReset := 0, hbResetByte := hbResetByte, replyNode := .source }

/-- The transport's answer to a `Tx` for which the environment has listed none: a free value, a fresh one for each draw
(R60, U15, log entry 5). -/
opaque freeTxResult : Nat → TxResult

/-- The clock's answer to a `Now()` for which the environment has listed none: a free value, a fresh one for each draw
(R36 (c), U15, log entry 5). -/
opaque freeNow : Nat → Time

/-- The bitrate `INIT` hands to the transport: the source gives no value (R241, N12); free. -/
opaque bitrate : Nat

/-- The acceptance filter identifier for the own-address/broadcast pair (R241, N12); free. -/
opaque startupFilterId : Addr → Nat

/-- The acceptance filter mask for the own-address/broadcast pair (R241, N12); free. -/
opaque startupFilterMask : Addr → Nat

/-- `id_for(a)`: the acceptance filter identifier of a Listen Filter entry (R243, N12); free. -/
opaque filterIdFor : Addr → Nat

/-- `mask_for(a)`: the acceptance filter mask of a Listen Filter entry (R243, N12); free. -/
opaque filterMaskFor : Addr → Nat

end Config

end Sys2Proof
end

