-- ==== Sys2Proof/Syntax.lean ====
section
/-! DEFINITION. The data types of the block (spec/10_state.md R20 to R23) and its operations: `Instr` has one
constructor for each of the 22 rows of spec/opcode_table.json (spec/30_encoding.md R91, R92, R100). -/

namespace Sys2Proof

/-- Raw Frame (R20). The record always has eight byte slots; slots at or above `dlc` of an inbound frame are
unconstrained inputs (R53, decision D4). -/
structure Frame where
  id   : CanId
  ext  : Bool
  rtr  : Bool
  dlc  : Fin 9
  data : Bytes8
  deriving DecidableEq, Repr

/-- NmtState: exactly five values (R21). -/
inductive NmtState where
  | bootup
  | preOperational
  | operational
  | stopped
  | reset
  deriving DecidableEq, Repr

/-- SDO Transaction Descriptor (R22). `node` has the 8 bits spec/opcode_table.json gives a host's operand; a descriptor the
block produces always has a node below 128. `len` is any number: a host may present more than 4 (R22). -/
structure Descriptor where
  node  : Byte
  cmd   : Byte
  index : BitVec 16
  sub   : Byte
  len   : Nat
  data  : Bytes4
  deriving DecidableEq, Repr

/-- The five event categories, in the order of their indices 0 to 4 (R23). -/
inductive Category where
  | stateChange
  | pdoRx
  | sdoReqRx
  | sdoRpyRx
  | hbRx
  deriving DecidableEq, Repr

/-- The payload of an event; which of the three it is, is fixed by the category (R23). -/
inductive Payload where
  | state (n : NmtState)
  | frame (f : Frame)
  | descriptor (d : Descriptor)
  deriving DecidableEq, Repr

/-- The status a host command returns (R260). -/
inductive Status where
  | ok
  | busError
  | rejectedParam
  | rejectedRole
  deriving DecidableEq, Repr

/-- The operations of the block. The first twelve are decoded from a received frame, which they carry (R91); the last ten
are host commands, the receive interrupt and the block's own one-shot (R92, R100). -/
inductive Instr where
  | nmtStart (f : Frame)
  | nmtStop (f : Frame)
  | nmtPreop (f : Frame)
  | nmtReset (f : Frame)
  | nmtIgn (f : Frame)
  | pdoRx (f : Frame)
  | hbRx (f : Frame)
  | sdoReqRx (f : Frame)
  | sdoRpyRxOwn (f : Frame)
  | sdoRpyRxFlt (f : Frame)
  | sdoRpyRxMst (f : Frame)
  | unparsed (f : Frame)
  | init (ownAddr : Nat) (role : Role) (hbInterval : Time) (debug : Bool)
  | listenerReg (cat : Category) (h : Handle)
  | filterAdd (addr : Nat)
  | sdoSendReq (d : Descriptor)
  | sdoSendRsp (d : Descriptor)
  | pdoSend (id length : Nat) (p : Bytes8)
  | nmtSend (cs : Byte) (target : Nat)
  | poll
  | rxirq
  | nmtBootdone
  deriving DecidableEq, Repr

/-- The two ports an operation can come in by (R37): a record on `cmd`, or a frame on `rx`. -/
inductive Port where
  | cmd
  | rx
  deriving DecidableEq, Repr

/-- The port of each operation: format `HC` comes in on `cmd`, format `RXF` on `rx` (R86, R100). -/
def Instr.port : Instr → Port
  | .nmtStart _ | .nmtStop _ | .nmtPreop _ | .nmtReset _ | .nmtIgn _ | .pdoRx _ | .hbRx _ | .sdoReqRx _
  | .sdoRpyRxOwn _ | .sdoRpyRxFlt _ | .sdoRpyRxMst _ | .unparsed _ => .rx
  | .init _ _ _ _ | .listenerReg _ _ | .filterAdd _ | .sdoSendReq _ | .sdoSendRsp _ | .pdoSend _ _ _ | .nmtSend _ _
  | .poll | .rxirq | .nmtBootdone => .cmd

end Sys2Proof
end

