-- ==== Sys2Proof/WellFormed.lean ====
section
/-! DEFINITION. Which operation terms are well formed: a received-frame operation carries a frame of its own identifier
class (and, for the four NMT commands, its own command byte), by the state-independent part of spec/30_encoding.md R91; a
host operand that is an unbounded integer in R100 fits the 32 bits the model's record gives it (log entry 1). -/

namespace Sys2Proof

/-- An integer operand fits the 32 bits of its field in the model's record (log entry 1). -/
def fitsWord (n : Nat) : Bool := decide (n < 4294967296)

/-- The identifier ranges of R91 and of the patterns of spec/opcode_table.json, as far as the frame alone decides. -/
def Instr.wf : Instr → Bool
  | .nmtStart f => f.id == 0 && f.data.b0 == 0x01
  | .nmtStop f => f.id == 0 && f.data.b0 == 0x02
  | .nmtPreop f => f.id == 0 && f.data.b0 == 0x80
  | .nmtReset f => f.id == 0 && f.data.b0 == 0x81
  | .nmtIgn f => f.id == 0
  | .pdoRx f => decide (0x17F < f.id.toNat) && decide (f.id.toNat < 0x580)
  | .hbRx f => decide (0x700 < f.id.toNat)
  | .sdoReqRx f => decide (0x600 ≤ f.id.toNat) && decide (f.id.toNat < 0x680)
  | .sdoRpyRxOwn f => decide (0x580 ≤ f.id.toNat) && decide (f.id.toNat < 0x600)
  | .sdoRpyRxFlt f => decide (0x580 ≤ f.id.toNat) && decide (f.id.toNat < 0x600)
  | .sdoRpyRxMst f => decide (0x580 ≤ f.id.toNat) && decide (f.id.toNat < 0x600)
  | .unparsed f =>
    (decide (0 < f.id.toNat) && decide (f.id.toNat < 0x180)) || (decide (0x580 ≤ f.id.toNat) && decide (f.id.toNat ≤ 0x700))
  | .init ownAddr _ _ _ => fitsWord ownAddr
  | .listenerReg _ h => fitsWord h
  | .filterAdd addr => fitsWord addr
  | .sdoSendReq d => fitsWord d.len
  | .sdoSendRsp d => fitsWord d.len
  | .pdoSend id length _ => fitsWord id && fitsWord length
  | .nmtSend _ target => fitsWord target
  | .poll => true
  | .rxirq => true
  | .nmtBootdone => true

end Sys2Proof
end

