-- ==== Sys2Proof/Decode.lean ====
section
/-! DEFINITION. The decoder and the encoder. A received frame decodes by its identifier, its bytes 0 and 1, and the engine's
own address, role and Listen Filter (spec/30_encoding.md R86, R91, R95); a host command by its `op` selector (R92, R95).
The spec gives operands and frame envelope no binary layout (R80, R100), so the two record layouts are the model's:
DESIGN CHOICE, log entry 1. -/

namespace Sys2Proof

/-- Why bytes do not decode to an operation. -/
inductive Reject where
  /-- The record does not have the number of bytes of its port. -/
  | recordLength
  /-- The selector is 10 to 15, which R92 gives no operation. -/
  | noSuchOperation
  /-- `LISTENER.REG` with a category index above 4 (R23, R100). -/
  | noSuchCategory
  /-- A frame whose data length is above 8 (R20). -/
  | dataLength
  /-- The frame is matched by a predicate and executes no operation: a heartbeat a slave does not subscribe to (R93 (c), R95). -/
  | matchedDropped
  /-- More than one row of the table selects the frame; R131 says that this cannot be. -/
  | ambiguous
  deriving DecidableEq, Repr

/-- What a decoder answers. -/
inductive Decoded where
  | instr (i : Instr)
  | rejected (r : Reject)
  deriving DecidableEq, Repr

/-- The part of the engine's state that decoding a frame depends on (R86). -/
structure DecodeCtx where
  own  : Addr
  role : Role
  filt : List Addr
  deriving DecidableEq, Repr

/-! ## Which operation a frame selects -/

/-- The 19-bit decode vector `F.id ++ F.data[0]` (R86). -/
def Frame.vector (f : Frame) : Nat := f.id.toNat * 256 + f.data.b0.toNat

/-- "addressed": `data[1] == own or data[1] == 0`, the whole byte compared (R91, R122). -/
def DecodeCtx.addressed (c : DecodeCtx) (f : Frame) : Bool :=
  f.data.b1 == c.own.setWidth 8 || f.data.b1 == 0

/-- `InFilter(v)`, on mathematical values (R33). -/
def inFilter (filt : List Addr) (v : Nat) : Bool := filt.any fun a => a.toNat == v

/-- The four recognised NMT command bytes (R89). -/
def recognisedNmt (cs : Byte) : Bool := cs == 0x01 || cs == 0x02 || cs == 0x80 || cs == 0x81

/-- `id` lies in the SDO reply range 0x580 to 0x5FF (R91). -/
def inReplyRange (f : Frame) : Bool := decide (0x580 ≤ f.id.toNat) && decide (f.id.toNat < 0x600)

/-- The whole selecting condition of each received-frame row: identifier and further condition of R91; for `UNPARSED` the
identifiers R129 lists. Rows of format `HC` are selected by their record alone. -/
def selected (c : DecodeCtx) : Instr → Bool
  | .nmtStart f => f.id == 0 && f.data.b0 == 0x01 && c.addressed f
  | .nmtStop f => f.id == 0 && f.data.b0 == 0x02 && c.addressed f
  | .nmtPreop f => f.id == 0 && f.data.b0 == 0x80 && c.addressed f
  | .nmtReset f => f.id == 0 && f.data.b0 == 0x81 && c.addressed f
  | .nmtIgn f => f.id == 0 && !(recognisedNmt f.data.b0 && c.addressed f)
  | .pdoRx f => decide (0x17F < f.id.toNat) && decide (f.id.toNat < 0x580)
  | .hbRx f => decide (0x700 < f.id.toNat) && (c.role == .master || inFilter c.filt (f.id.toNat - 0x700))
  | .sdoReqRx f => f.id.toNat == 0x600 + c.own.toNat
  | .sdoRpyRxOwn f => f.id.toNat == 0x580 + c.own.toNat && c.role == .slave
  | .sdoRpyRxFlt f =>
    inReplyRange f && c.role == .slave && f.id.toNat != 0x580 + c.own.toNat && inFilter c.filt (f.id.toNat - 0x580)
  | .sdoRpyRxMst f => inReplyRange f && c.role == .master
  | .unparsed f =>
    (decide (0x001 ≤ f.id.toNat) && decide (f.id.toNat ≤ 0x17F))
      || (decide (0x600 ≤ f.id.toNat) && decide (f.id.toNat ≤ 0x6FF) && f.id.toNat != 0x600 + c.own.toNat)
      || f.id.toNat == 0x700
      || (inReplyRange f && c.role == .slave && f.id.toNat != 0x580 + c.own.toNat
            && !inFilter c.filt (f.id.toNat - 0x580))
  | .init _ _ _ _ | .listenerReg _ _ | .filterAdd _ | .sdoSendReq _ | .sdoSendRsp _ | .pdoSend _ _ _ | .nmtSend _ _
  | .poll | .rxirq | .nmtBootdone => true

/-- The twelve received-frame rows of the table, for one frame (R91). -/
def frameRows (f : Frame) : List Instr :=
  [.nmtStart f, .nmtStop f, .nmtPreop f, .nmtReset f, .nmtIgn f, .pdoRx f, .hbRx f, .sdoReqRx f,
   .sdoRpyRxOwn f, .sdoRpyRxFlt f, .sdoRpyRxMst f, .unparsed f]

/-- Every row that selects the frame; the Dispatcher is not a first-match decoder (R86, R131). -/
def classify (c : DecodeCtx) (f : Frame) : List Instr := (frameRows f).filter (selected c)

/-- The operation a received frame decodes to in an engine (R86, R95). -/
def decodeFrame (c : DecodeCtx) (f : Frame) : Decoded :=
  match classify c f with
  | [i] => .instr i
  | [] => .rejected .matchedDropped
  | _ :: _ :: _ => .rejected .ambiguous

/-- `fields.patterns` of each row of spec/opcode_table.json: `[match, mask]` pairs over the decode vector for format `RXF`,
over the 4-bit selector for format `HC` (R95). -/
def tablePatterns : Instr → List (Nat × Nat)
  | .nmtStart _ => [(0x00001, 0x7FFFF)]
  | .nmtStop _ => [(0x00002, 0x7FFFF)]
  | .nmtPreop _ => [(0x00080, 0x7FFFF)]
  | .nmtReset _ => [(0x00081, 0x7FFFF)]
  | .nmtIgn _ => [(0x00000, 0x7FF00)]
  | .pdoRx _ => [(0x18000, 0x78000), (0x20000, 0x60000), (0x40000, 0x70000), (0x50000, 0x78000)]
  | .hbRx _ =>
    [(0x70100, 0x7FF00), (0x70200, 0x7FE00), (0x70400, 0x7FC00), (0x70800, 0x7F800), (0x71000, 0x7F000),
     (0x72000, 0x7E000), (0x74000, 0x7C000), (0x78000, 0x78000)]
  | .sdoReqRx _ => [(0x60000, 0x78000)]
  | .sdoRpyRxOwn _ => [(0x58000, 0x78000)]
  | .sdoRpyRxFlt _ => [(0x58000, 0x78000)]
  | .sdoRpyRxMst _ => [(0x58000, 0x78000)]
  | .unparsed _ => [(0x00000, 0x00000)]
  | .init _ _ _ _ => [(0x0, 0xF)]
  | .listenerReg _ _ => [(0x1, 0xF)]
  | .filterAdd _ => [(0x2, 0xF)]
  | .sdoSendReq _ => [(0x3, 0xF)]
  | .sdoSendRsp _ => [(0x4, 0xF)]
  | .pdoSend _ _ _ => [(0x5, 0xF)]
  | .nmtSend _ _ => [(0x6, 0xF)]
  | .poll => [(0x7, 0xF)]
  | .rxirq => [(0x8, 0xF)]
  | .nmtBootdone => [(0x9, 0xF)]

/-- A vector matches one of a row's patterns: `(vector & mask) == match` (R95). -/
def matchesRow (v : Nat) (i : Instr) : Bool := (tablePatterns i).any fun p => v &&& p.2 == p.1

/-! ## Byte helpers -/

/-- Byte `k` of a number, byte 0 the least significant. -/
def byteOf (k n : Nat) : Byte := BitVec.ofNat 8 (n / 256 ^ k)

/-- A number of four bytes, least significant first. -/
def le32 (b0 b1 b2 b3 : Byte) : Nat := b0.toNat + 256 * b1.toNat + 65536 * b2.toNat + 16777216 * b3.toNat

/-- The `n` bytes of a number, least significant first. -/
def wordBytes : Nat → Nat → List Byte
  | 0, _ => []
  | n + 1, w => BitVec.ofNat 8 w :: wordBytes n (w / 256)

/-! ## Host command records (log entry 1)

Twenty bytes: the selector in bits 3 to 0 of byte 0 (R92, R95); three one-byte operands in bytes 1 to 3; two 32-bit integer
operands, least significant byte first, in bytes 4 to 7 and 8 to 11; eight payload bytes in bytes 12 to 19. Bits an
operation does not use are not read. -/

/-- The operand fields of a host command record. -/
structure HostFields where
  f1 : Byte
  f2 : Byte
  f3 : Byte
  a  : Nat
  b  : Nat
  p  : Bytes8
  deriving DecidableEq, Repr

/-- The category index of R23. -/
def categoryOf (n : Nat) : Option Category :=
  match n with
  | 0 => some .stateChange
  | 1 => some .pdoRx
  | 2 => some .sdoReqRx
  | 3 => some .sdoRpyRx
  | 4 => some .hbRx
  | _ + 5 => none

/-- The category's index (R23). -/
def categoryIndex : Category → Nat
  | .stateChange => 0
  | .pdoRx => 1
  | .sdoReqRx => 2
  | .sdoRpyRx => 3
  | .hbRx => 4

/-- The descriptor operand of the two SDO send commands (R100). -/
def HostFields.descriptor (x : HostFields) : Descriptor :=
  { node := x.f1, cmd := x.f2, index := BitVec.ofNat 16 x.a, sub := x.f3, len := x.b,
    data := ⟨x.p.b0, x.p.b1, x.p.b2, x.p.b3⟩ }

/-- The operation a selector chooses (R92), with its operands (R100). -/
def decodeSelector (op : Nat) (x : HostFields) : Decoded :=
  match op with
  | 0 => .instr (.init x.a (if x.f1.getLsbD 0 then .slave else .master) (BitVec.ofNat 32 x.b) (x.f2.getLsbD 0))
  | 1 =>
    match categoryOf x.f1.toNat with
    | some cat => .instr (.listenerReg cat x.a)
    | none => .rejected .noSuchCategory
  | 2 => .instr (.filterAdd x.a)
  | 3 => .instr (.sdoSendReq x.descriptor)
  | 4 => .instr (.sdoSendRsp x.descriptor)
  | 5 => .instr (.pdoSend x.a x.b x.p)
  | 6 => .instr (.nmtSend x.f1 x.a)
  | 7 => .instr .poll
  | 8 => .instr .rxirq
  | 9 => .instr .nmtBootdone
  | _ + 10 => .rejected .noSuchOperation

/-- Decoding of a host command record, total on any bytes. -/
def decodeHost : List Byte → Decoded
  | [op, f1, f2, f3, a0, a1, a2, a3, b0, b1, b2, b3, p0, p1, p2, p3, p4, p5, p6, p7] =>
    decodeSelector (op.toNat % 16) ⟨f1, f2, f3, le32 a0 a1 a2 a3, le32 b0 b1 b2 b3, ⟨p0, p1, p2, p3, p4, p5, p6, p7⟩⟩
  | _ => .rejected .recordLength

/-! ## Frame records (log entry 1)

Eleven bytes. Bits 18 to 0 of the record are the decode vector of R86: byte 0 is `data[0]`, bytes 1 and 2 hold the
identifier. Bit 19 is `ext`, bit 20 is `rtr`; bits 3 to 0 of byte 3 are `dlc`; bytes 4 to 10 are `data[1..7]`. -/

/-- Reading a frame from its record, total on any bytes. -/
def readFrame : List Byte → Option Frame
  | [d0, idLow, idHigh, len, d1, d2, d3, d4, d5, d6, d7] =>
    if len.toNat % 16 ≤ 8 then
      some { id := BitVec.ofNat 11 (idLow.toNat + 256 * (idHigh.toNat % 8)), ext := idHigh.getLsbD 3,
             rtr := idHigh.getLsbD 4, dlc := Fin.ofNat 9 (len.toNat % 16), data := ⟨d0, d1, d2, d3, d4, d5, d6, d7⟩ }
    else none
  | _ => none

/-- Decoding of a frame record in an engine, total on any bytes. -/
def decodeFrameRecord (c : DecodeCtx) (bytes : List Byte) : Decoded :=
  if bytes.length = 11 then
    match readFrame bytes with
    | some f => decodeFrame c f
    | none => .rejected .dataLength
  else .rejected .recordLength

/-- The decoder: what the bytes of a record on a port mean in an engine. -/
def decode (c : DecodeCtx) (p : Port) (bytes : List Byte) : Decoded :=
  match p with
  | .cmd => decodeHost bytes
  | .rx => decodeFrameRecord c bytes

/-! ## The encoder -/

/-- The record of a host command. -/
def hostRecord (op : Nat) (f1 f2 f3 : Byte) (a b : Nat) (p : Bytes8) : List Byte :=
  [BitVec.ofNat 8 op, f1, f2, f3, byteOf 0 a, byteOf 1 a, byteOf 2 a, byteOf 3 a,
   byteOf 0 b, byteOf 1 b, byteOf 2 b, byteOf 3 b, p.b0, p.b1, p.b2, p.b3, p.b4, p.b5, p.b6, p.b7]

/-- One bit as a byte. -/
def bitByte (b : Bool) : Byte := if b then 1 else 0

/-- The role bit of the `INIT` record: 0 master, 1 slave (log entry 1). -/
def roleByte : Role → Byte
  | .master => 0
  | .slave => 1

/-- A descriptor operand in a host command record. -/
def descriptorRecord (op : Nat) (d : Descriptor) : List Byte :=
  hostRecord op d.node d.cmd d.sub d.index.toNat d.len ⟨d.data.b0, d.data.b1, d.data.b2, d.data.b3, 0, 0, 0, 0⟩

/-- The record of a frame. -/
def writeFrame (f : Frame) : List Byte :=
  [f.data.b0, byteOf 0 f.id.toNat,
   BitVec.ofNat 8 (f.id.toNat / 256 + 8 * f.ext.toNat + 16 * f.rtr.toNat), BitVec.ofNat 8 f.dlc.val,
   f.data.b1, f.data.b2, f.data.b3, f.data.b4, f.data.b5, f.data.b6, f.data.b7]

/-- The bytes of an operation. -/
def encode : Instr → List Byte
  | .nmtStart f => writeFrame f
  | .nmtStop f => writeFrame f
  | .nmtPreop f => writeFrame f
  | .nmtReset f => writeFrame f
  | .nmtIgn f => writeFrame f
  | .pdoRx f => writeFrame f
  | .hbRx f => writeFrame f
  | .sdoReqRx f => writeFrame f
  | .sdoRpyRxOwn f => writeFrame f
  | .sdoRpyRxFlt f => writeFrame f
  | .sdoRpyRxMst f => writeFrame f
  | .unparsed f => writeFrame f
  | .init ownAddr role hbInterval debug =>
    hostRecord 0 (roleByte role) (bitByte debug) 0 ownAddr hbInterval.toNat .zero
  | .listenerReg cat h => hostRecord 1 (BitVec.ofNat 8 (categoryIndex cat)) 0 0 h 0 .zero
  | .filterAdd addr => hostRecord 2 0 0 0 addr 0 .zero
  | .sdoSendReq d => descriptorRecord 3 d
  | .sdoSendRsp d => descriptorRecord 4 d
  | .pdoSend id length p => hostRecord 5 0 0 0 id length p
  | .nmtSend cs target => hostRecord 6 cs 0 0 target 0 .zero
  | .poll => hostRecord 7 0 0 0 0 0 .zero
  | .rxirq => hostRecord 8 0 0 0 0 0 .zero
  | .nmtBootdone => hostRecord 9 0 0 0 0 0 .zero

/-! ## Words of the opcode table -/

/-- A table word of at most 16 bits is a host command selector (`HC`, 4 bits), a longer one starts with the 19-bit decode
vector of a frame (`RXF`) (R95). -/
def tablePort (nbits : Nat) : Port := if nbits ≤ 16 then .cmd else .rx

/-- The record of a table word: the word's bytes, least significant first, zeros above. -/
def tableBytes (nbits w : Nat) : List Byte :=
  match tablePort nbits with
  | .cmd => wordBytes 20 (w % 2 ^ nbits)
  | .rx => wordBytes 11 (w % 2 ^ nbits)

/-- The engine a table word is decoded in: the one right after `State.reset` (log entries 2 and 8). -/
def resetCtx : DecodeCtx := { own := Config.resetOwn, role := Config.resetRole, filt := [] }

/-- The operation the decoder reads from a word of spec/opcode_table.json. -/
def decodeTableWord (nbits w : Nat) : Option Instr :=
  match decode resetCtx (tablePort nbits) (tableBytes nbits w) with
  | .instr i => some i
  | .rejected _ => none

end Sys2Proof
end

