-- ==== Sys2Proof/Machine/State.lean ====
section
/-! DEFINITION. The state of the block as plain data: the registers of spec/10_state.md R25, R33, R34, the inputs the
environment has listed on the ports (R36, R37), and the observable histories of R38. The block addresses no memory (R35). -/

namespace Sys2Proof.Machine

/-- The Listener table `lst[c]` (R34): per category the filled slots in slot order. There is no removal, so the filled slots are
always the first `lst_n[c]` ones and `lst_n[c]` is the list's length (R34); at most six is an invariant (`Inv`). -/
structure ListenerTable where
  stateChange : List Handle
  pdoRx : List Handle
  sdoReqRx : List Handle
  sdoRpyRx : List Handle
  hbRx : List Handle
  deriving DecidableEq, Repr

/-- The registers of the block (R25, R33, R34), and `ready`, which records that `INIT` has attached the receive interrupt
(R241, R291). -/
structure Regs where
  /-- Node Identity, 7 bits (R26). -/
  own : Addr
  /-- Master or Slave (R27). -/
  role : Role
  /-- Operational State (R28). -/
  nmt : NmtState
  /-- The Bootup one-shot has fired (R29). -/
  bootDone : Bool
  /-- Heartbeat interval (R30). -/
  hbInterval : Time
  /-- Clock value at the last heartbeat emission (R30). -/
  hbLast : Time
  /-- Debug-trace enable (R31). -/
  debug : Bool
  /-- The valid entries of the Listen Filter, in index order; `filt_n` is the list's length (R33). -/
  filt : List Addr
  /-- The Listener table; `lst_n[c]` is the length of each list (R34). -/
  lst : ListenerTable
  /-- The first `INIT` has completed (R241, R291). -/
  ready : Bool
  deriving DecidableEq, Repr

/-- What one invoked listener does (R234, R235): the host's behaviour, so an input. -/
inductive Reaction where
  /-- It issues these operations, one after the other, and returns. -/
  | returns (issued : List Instr)
  /-- It fails or does not return (R234, U1). -/
  | neverReturns
  deriving DecidableEq, Repr

/-- The inputs the environment has listed and the block has not taken yet, per port, oldest first (R36, R37). -/
structure Env where
  /-- Port `cmd`: the operations the environment issues, one record each (R37, R247). -/
  cmd : List (List Byte)
  /-- What the next calls of `Pending()` answer (R61). -/
  pendingIn : List Bool
  /-- What the next calls of `Rx()` return: a frame or `none` (R61). -/
  rxIn : List (Option Frame)
  /-- What the transport answers to the next `Tx` calls (R60). -/
  txIn : List TxResult
  /-- What the next calls of `Now()` return (R36 (c)). -/
  nowIn : List Time
  /-- What the next invoked listeners do (R235). -/
  reactIn : List Reaction
  /-- The model's own counter of free values drawn (log entry 5). -/
  draws : Nat
  deriving DecidableEq, Repr

/-- One entry of the history of the ports `tx`, `ev` and `cmd` (R38), kept in one list so that the order across the three
ports is kept too (R235). -/
inductive Obs where
  /-- A frame handed to `Tx` with the result it got (R60). -/
  | tx (f : Frame) (r : TxResult)
  /-- A listener invocation (R232). -/
  | ev (cat : Category) (slot : Nat) (h : Handle) (p : Payload)
  /-- A status returned to the issuer of a send command (R260). -/
  | status (st : Status)
  deriving DecidableEq, Repr

/-- A line on the diagnostics sink; the source gives no texts, the three kinds are those of R261, R263, R277. -/
inductive DiagLine where
  | unparsedFrame
  | transmitFailed
  | heartbeatTransmitFailed
  deriving DecidableEq, Repr

/-- A transport configuration call on port `xcfg` (R241, R243, R275). -/
inductive XcfgCall where
  | configureBitrate (rate : Nat)
  | initTransport (own : Addr)
  | addAcceptanceFilter (id mask : Nat)
  | enable
  | wake
  | attachReceiveInterrupt
  deriving DecidableEq, Repr

/-- The histories of R38. They are the observer's record and no register: no operation reads or erases them (R40, conflict C12). -/
structure Out where
  /-- `tx_trace`, `ev_trace` and the returned statuses, in one order. -/
  trace : List Obs
  /-- `diag_trace`. -/
  diag : List DiagLine
  /-- `xcfg_trace`. -/
  xcfg : List XcfgCall
  deriving DecidableEq, Repr

/-- The state of the machine. -/
structure State where
  regs : Regs
  /-- The parameters of R7 that are OPEN or settable; no operation writes them. -/
  params : Params
  env : Env
  out : Out
  deriving DecidableEq, Repr

/-- What stops the machine for good. -/
inductive Fault where
  /-- Raised by every operation that notifies a listener which fails or does not return: the notifying operation never completes
  (R234, R301, U1 `stuck`). Safe. -/
  | listenerStuck
  deriving DecidableEq, Repr

/-- Executions the spec gives no meaning. -/
inductive Refusal where
  /-- An instruction that has no meaning in the model yet, by its mnemonic. Raised by `exec`'s arms only. Safe. -/
  | notModelled (mnemonic : String)
  /-- Raised by every operation but `INIT` before the first `INIT` (R291, decision D25, U13). Safe. -/
  | beforeInit
  /-- Raised by `INIT` with an own address outside 1 to 127 (R26, R240, decision D25). Safe. -/
  | illegalOwnAddress
  /-- Raised by `NMT.BOOTDONE` where it is not enabled: a master, or the one-shot already consumed (R158). Safe. -/
  | notEnabled
  /-- Raised by a received-frame operation on a frame that does not select it in this state: the Dispatcher never executes it
  there (R91, R95). No step of the machine reaches it. Safe. -/
  | notSelected
  /-- Raised by a notification whose listener issues anything but the four send commands (R235, R302, decision D36, U4). Safe. -/
  | reentrancy
  /-- Raised by `step` on a record of port `cmd` that decodes to no operation, with the decoder's reason: the spec gives such
  bytes no meaning (R92, R100). Safe. -/
  | badRecord (why : Reject)
  deriving DecidableEq, Repr

/-- An empty Listener table. -/
def ListenerTable.empty : ListenerTable := ⟨[], [], [], [], []⟩

/-- No input listed. -/
def Env.idle : Env :=
  { cmd := [], pendingIn := [], rxIn := [], txIn := [], nowIn := [], reactIn := [], draws := 0 }

/-- The transport bring-up calls of an `INIT` with own address `own` (R241, decision D33). -/
def bringUpCalls (own : Addr) : List XcfgCall :=
  [.configureBitrate Config.bitrate, .initTransport own,
   .addAcceptanceFilter (Config.startupFilterId own) (Config.startupFilterMask own),
   .enable, .wake, .attachReceiveInterrupt]

/-- Before the first `INIT`: every register is unspecified (R291). DESIGN CHOICE (log entry 2): the values named here are the
model's and no operation but `INIT` runs on them. -/
def State.powerOn : State :=
  { regs :=
      { own := 0, role := .slave, nmt := .bootup, bootDone := false, hbInterval := 0, hbLast := 0, debug := false,
        filt := [], lst := .empty, ready := false }
    params := Config.params
    env := .idle
    out := { trace := [], diag := [], xcfg := [] } }

/-- The machine right after its reset, which is the first `INIT` (R40, R290). The operands of that `INIT`, which the spec gives
no default but for the interval's 1000, are `Config.resetOwn`, `Config.resetRole` and `Config.resetDebug`
(DESIGN CHOICE, log entry 2). -/
def State.reset : State :=
  { regs :=
      { own := Config.resetOwn, role := Config.resetRole, nmt := .bootup, bootDone := false,
        hbInterval := Config.defaultHbInterval, hbLast := Config.params.hbLastReset, debug := Config.resetDebug,
        filt := [], lst := .empty, ready := true }
    params := Config.params
    env := .idle
    out := { trace := [], diag := [], xcfg := bringUpCalls Config.resetOwn } }

end Sys2Proof.Machine
end

