-- ==== Sys2Proof/Machine/Ops.lean ====
section
/-! DEFINITION. The named operations over the state: sequencing of results, the register writes, the port primitives
`Tx`, `Rx`, `Pending`, `Now`, `Diag` (spec/20_memory.md R60, R61, spec/60_exceptions.md R276, R277), and the two guards every
meaning begins with. The block takes no exception (R93, R260): a failure is a status or a silent drop, and the receive
interrupt saves no state (R268); so there is no exception entry here. -/

namespace Sys2Proof.Machine

/-- A result: the next value, a fault or a refusal. -/
abbrev Result (α : Type) := Host.Outcome α Fault Refusal

/-- What follows runs on the value before it; a fault or a refusal ends the operation. -/
def andThen {α β : Type} (r : Result α) (k : α → Result β) : Result β :=
  match r with
  | .next a => k a
  | .fault e => .fault e
  | .refused e => .refused e

/-! ## Registers -/

/-- The part of the registers that decoding a frame reads (R86). -/
def State.ctx (s : State) : DecodeCtx := { own := s.regs.own, role := s.regs.role, filt := s.regs.filt }

/-- `S.nmt <- n`. -/
def State.setNmt (n : NmtState) (s : State) : State := { s with regs := { s.regs with nmt := n } }

/-- `S.boot_done <- 1`. -/
def State.setBootDone (s : State) : State := { s with regs := { s.regs with bootDone := true } }

/-- `S.hb_last <- now`. -/
def State.setHbLast (now : Time) (s : State) : State := { s with regs := { s.regs with hbLast := now } }

/-- The slots of a category, `lst[c][0..lst_n[c]-1]` (R34). -/
def ListenerTable.slots (t : ListenerTable) : Category → List Handle
  | .stateChange => t.stateChange
  | .pdoRx => t.pdoRx
  | .sdoReqRx => t.sdoReqRx
  | .sdoRpyRx => t.sdoRpyRx
  | .hbRx => t.hbRx

/-- The table with one more handle in the first free slot of a category (R230). -/
def ListenerTable.append (t : ListenerTable) (c : Category) (h : Handle) : ListenerTable :=
  match c with
  | .stateChange => { t with stateChange := t.stateChange ++ [h] }
  | .pdoRx => { t with pdoRx := t.pdoRx ++ [h] }
  | .sdoReqRx => { t with sdoReqRx := t.sdoReqRx ++ [h] }
  | .sdoRpyRx => { t with sdoRpyRx := t.sdoRpyRx ++ [h] }
  | .hbRx => { t with hbRx := t.hbRx ++ [h] }

/-! ## Histories -/

/-- Appends one entry to the history of `tx`, `ev` and statuses (R38). -/
def State.emit (o : Obs) (s : State) : State := { s with out := { s.out with trace := s.out.trace ++ [o] } }

/-- Appends to `xcfg_trace` (R241, R243). -/
def State.emitXcfg (cs : List XcfgCall) (s : State) : State := { s with out := { s.out with xcfg := s.out.xcfg ++ cs } }

/-- The condition that a diagnostics line be produced, and the line: nothing unless `debug` is set (R277). -/
def diagLines (debug wanted : Bool) (l : DiagLine) : List DiagLine := if debug && wanted then [l] else []

/-- `Diag(l)`, if `wanted` (R31, R277). -/
def State.diagIf (wanted : Bool) (l : DiagLine) (s : State) : State :=
  { s with out := { s.out with diag := s.out.diag ++ diagLines s.regs.debug wanted l } }

/-- `tx_trace`: the frames handed to `Tx`, each with its result (R38, R60). -/
def Out.sent (o : Out) : List (Frame × TxResult) :=
  o.trace.filterMap fun
    | .tx f r => some (f, r)
    | .ev _ _ _ _ => none
    | .status _ => none

/-- An entry of `ev_trace` (R232). -/
structure Event where
  cat : Category
  slot : Nat
  handle : Handle
  payload : Payload
  deriving DecidableEq, Repr

/-- `ev_trace`: the listener invocations (R38, R232). -/
def Out.events (o : Out) : List Event :=
  o.trace.filterMap fun
    | .ev c i h p => some ⟨c, i, h, p⟩
    | .tx _ _ => none
    | .status _ => none

/-- The statuses returned, in order (R38, R260). -/
def Out.statuses (o : Out) : List Status :=
  o.trace.filterMap fun
    | .status st => some st
    | .tx _ _ => none
    | .ev _ _ _ _ => none

/-! ## Port primitives -/

/-- The transport's answer to this `Tx` (R60): the next one listed, else a free value (log entry 5). -/
def txAnswer (e : Env) : TxResult :=
  match e.txIn with
  | r :: _ => r
  | [] => Config.freeTxResult e.draws

/-- The inputs after one `Tx` took its answer. -/
def afterTx (e : Env) : Env :=
  match e.txIn with
  | _ :: rest => { e with txIn := rest }
  | [] => { e with draws := e.draws + 1 }

/-- `Tx(F)` (R60): records the frame with the transport's answer; registers are unchanged and nothing is repeated (R55). -/
def tx (f : Frame) (s : State) : TxResult × State :=
  (txAnswer s.env, { (s.emit (.tx f (txAnswer s.env))) with env := afterTx s.env })

/-- `Rx()` (R61): the next frame or `none` listed; an exhausted list is an empty transport (log entry 4). A destructive read (R55). -/
def rx (s : State) : Option Frame × State :=
  match s.env.rxIn with
  | x :: rest => (x, { s with env := { s.env with rxIn := rest } })
  | [] => (none, s)

/-- What `Pending()` answers when none is listed: whether the transport holds a frame (R265, log entry 4). -/
def transportHolds (e : Env) : Bool :=
  match e.rxIn with
  | some _ :: _ => true
  | none :: _ => false
  | [] => false

/-- `Pending()` (R61): the next answer listed, else whether the transport holds a frame (log entry 4). -/
def pending (s : State) : Bool × State :=
  match s.env.pendingIn with
  | b :: rest => (b, { s with env := { s.env with pendingIn := rest } })
  | [] => (transportHolds s.env, s)

/-- `Now()` (R36 (c), R276): the next clock value listed, else a free value (log entry 5). -/
def now (s : State) : Time × State :=
  match s.env.nowIn with
  | t :: rest => (t, { s with env := { s.env with nowIn := rest } })
  | [] => (Config.freeNow s.env.draws, { s with env := { s.env with draws := s.env.draws + 1 } })

/-! ## Guards -/

/-- Before the first `INIT` every operation but `INIT` is refused (R291). -/
def whenReady {α : Type} (s : State) (r : Result α) : Result α :=
  if s.regs.ready then r else .refused .beforeInit

/-- A received-frame operation is executed only where its frame selects it (R91, R95). -/
def whenSelected (i : Instr) (s : State) (r : Result State) : Result State :=
  whenReady s (if selected s.ctx i then r else .refused .notSelected)

end Sys2Proof.Machine
end

