-- ==== Sys2Proof/Machine/Operands.lean ====
section
/-! DEFINITION. Operand forms: masking of node addresses, identifier construction and deconstruction, the payload moves
(spec/00_scope.md R13, spec/20_memory.md R57, R62, spec/30_encoding.md R85), the SDO codec (spec/42_sdo.md R171, R173), the
frames the block builds, and the heartbeat encoder (spec/44_heartbeat.md R211). All pure. -/

namespace Sys2Proof.Machine

/-! ## Node addresses and identifiers -/

/-- `a & 0x7F` of a host's integer (R13, R57). -/
def maskAddr (a : Nat) : Addr := BitVec.ofNat 7 a

/-- `a & 0x7F` of a host's 8-bit node (R175). -/
def maskNode (n : Byte) : Addr := n.setWidth 7

/-- `base + a`, which fits 11 bits for the three bases (R13 (a), R85). -/
def idFrom (base : Nat) (a : Addr) : CanId := BitVec.ofNat 11 (base + a.toNat)

/-- `NodeForMaster(F)` under a setting of `SDO_REPLY_NODE_MASTER` (R184). -/
def nodeForMaster (setting : ReplyNode) (own : Addr) (f : Frame) : Byte :=
  match setting with
  | .source => BitVec.ofNat 8 (f.id.toNat - 0x580)
  | .own => own.setWidth 8

/-! ## Payload moves -/

/-- The first `len` bytes, zeros above (R62 (a), (b); D12). -/
def firstBytes4 (len : Nat) (p : Bytes4) : Bytes4 :=
  { b0 := if 0 < len then p.b0 else 0
    b1 := if 1 < len then p.b1 else 0
    b2 := if 2 < len then p.b2 else 0
    b3 := if 3 < len then p.b3 else 0 }

/-- The first `len` bytes, zeros above (R62 (c), R200). -/
def firstBytes8 (len : Nat) (p : Bytes8) : Bytes8 :=
  { b0 := if 0 < len then p.b0 else 0
    b1 := if 1 < len then p.b1 else 0
    b2 := if 2 < len then p.b2 else 0
    b3 := if 3 < len then p.b3 else 0
    b4 := if 4 < len then p.b4 else 0
    b5 := if 5 < len then p.b5 else 0
    b6 := if 6 < len then p.b6 else 0
    b7 := if 7 < len then p.b7 else 0 }

/-! ## The SDO codec -/

/-- Byte 0 of an SDO frame: the command's high nibble with the length field in bits 3 to 2 (R88, R171). -/
def sdoByte0 (cmd : Byte) (len : Nat) : Byte :=
  if 0 < len then (cmd &&& 0xF0) ||| (BitVec.ofNat 8 (3 - (len - 1)) <<< 2) else cmd &&& 0xF0

/-- The payload length an SDO frame's byte 0 says (R88, R173). -/
def sdoLength (b0 : Byte) : Nat :=
  if b0 = 0x40 ∨ b0 = 0x60 then 0 else 3 - ((b0 &&& 0x0C) >>> 2).toNat + 1

/-- `SDO_ENCODE(id, D)` (R171), for `D.len <= 4`. -/
def sdoEncode (id : CanId) (d : Descriptor) : Frame :=
  let p := firstBytes4 d.len d.data
  { id := id, ext := false, rtr := false, dlc := 8
    data := ⟨sdoByte0 d.cmd d.len, d.index.setWidth 8, (d.index >>> 8).setWidth 8, d.sub, p.b0, p.b1, p.b2, p.b3⟩ }

/-- `SDO_DECODE(F, node)` (R87, R173). -/
def sdoDecode (f : Frame) (node : Byte) : Descriptor :=
  { node := node
    cmd := f.data.b0 &&& 0xF0
    index := f.data.b1.setWidth 16 + 256 * f.data.b2.setWidth 16
    sub := f.data.b3
    len := sdoLength f.data.b0
    data := firstBytes4 (sdoLength f.data.b0) ⟨f.data.b4, f.data.b5, f.data.b6, f.data.b7⟩ }

/-! ## The other frames the block builds -/

/-- The frame of `PDO.SEND`, for an accepted identifier and length (R82, R200). -/
def pdoFrame (id length : Nat) (p : Bytes8) : Frame :=
  { id := BitVec.ofNat 11 id, ext := false, rtr := false, dlc := Fin.ofNat 9 length, data := firstBytes8 length p }

/-- The frame of `NMT.SEND` (R81, R160). -/
def nmtFrame (cs : Byte) (target : Nat) : Frame :=
  { id := 0, ext := false, rtr := false, dlc := 2, data := ⟨cs, (maskAddr target).setWidth 8, 0, 0, 0, 0, 0, 0⟩ }

/-- `HB_CODE(s)`, given the parameter `HB_RESET_BYTE` (R90, R211). -/
def hbCode (resetByte : Byte) : NmtState → Byte
  | .bootup => 0x00
  | .stopped => 0x04
  | .operational => 0x05
  | .preOperational => 0x7F
  | .reset => resetByte

/-- The heartbeat frame (R84, R213). -/
def hbFrame (own : Addr) (code : Byte) : Frame :=
  { id := idFrom 0x700 own, ext := false, rtr := false, dlc := 1, data := ⟨code, 0, 0, 0, 0, 0, 0, 0⟩ }

end Sys2Proof.Machine
end

