-- ==== Sys2Proof/Machine/Flags.lean ====
section
/-! DEFINITION. The conditions and statuses the operations compute: the rejection tests (spec/60_exceptions.md R262), the
status of a transmission (R260, R261), the heartbeat due test (spec/44_heartbeat.md R212), the enabling of the Bootup one-shot
and the reset value of `nmt` (spec/41_nmt.md R158, spec/10_state.md R40). The block latches no flag but `boot_done` (R29). -/

namespace Sys2Proof.Machine

/-- An SDO send with more than 4 payload bytes is rejected (R177, R262). -/
def sdoRejected (len : Nat) : Bool := decide (len > Config.sdoMaxLen)

/-- A PDO send outside 0x181 to 0x57F, or with more than 8 bytes, is rejected (R200, R201, R262). -/
def pdoRejected (id length : Nat) : Bool :=
  decide (id < 0x181) || decide (id > 0x57F) || decide (length > Config.frameMaxLen)

/-- The status of a transmitted command (R260, R261). -/
def sendStatus : TxResult → Status
  | .ok => .ok
  | .busError => .busError

/-- The heartbeat is due: at least `interval` time-units since `last`, mod 2^32 (R212). -/
def hbDue (now last interval : Time) : Bool := decide (interval.toNat ≤ (now - last).toNat)

/-- `NMT.BOOTDONE` is enabled: a slave whose one-shot has not fired (R158). -/
def bootdoneEnabled (r : Regs) : Bool := r.role == .slave && !r.bootDone

/-- The reset value of `nmt`: `Operational` for a master, `Bootup` for a slave (R40). -/
def initialNmt : Role → NmtState
  | .master => .operational
  | .slave => .bootup

end Sys2Proof.Machine
end

