-- ==== Sys2Proof/Machine/Sends.lean ====
section
/-! DEFINITION. The four send commands `SDO.SEND.REQ`, `SDO.SEND.RSP`, `PDO.SEND`, `NMT.SEND` (spec/42_sdo.md R175 to R177,
spec/43_pdo.md R200, spec/41_nmt.md R160), as the host issues them and as a listener issues them (spec/45_listener_registry.md
R235). A send writes no register and cannot stop. -/

namespace Sys2Proof.Machine

/-- Returns a status to the issuer (R260). -/
def returnStatus (st : Status) (s : State) : State := s.emit (.status st)

/-- Hands a built frame to `Tx`, produces the diagnostics line of a failed transmission, and returns the status (R261). -/
def sendFrame (f : Frame) (s : State) : State :=
  returnStatus (sendStatus (tx f s).1) ((tx f s).2.diagIf ((tx f s).1 == .busError) .transmitFailed)

/-- `SDO.SEND.REQ(D)` (R175, R177). -/
def sdoSendReq (d : Descriptor) (s : State) : State :=
  if sdoRejected d.len then returnStatus .rejectedParam s
  else sendFrame (sdoEncode (idFrom 0x600 (maskNode d.node)) d) s

/-- `SDO.SEND.RSP(D)` (R176, R177); `D.node` is ignored. -/
def sdoSendRsp (d : Descriptor) (s : State) : State :=
  if sdoRejected d.len then returnStatus .rejectedParam s
  else sendFrame (sdoEncode (idFrom 0x580 s.regs.own) d) s

/-- `PDO.SEND(id, length, p)` (R200, R201). -/
def pdoSend (id length : Nat) (p : Bytes8) (s : State) : State :=
  if pdoRejected id length then returnStatus .rejectedParam s else sendFrame (pdoFrame id length p) s

/-- `NMT.SEND(cs, target)`: master only (R160). -/
def nmtSend (cs : Byte) (target : Nat) (s : State) : State :=
  match s.regs.role with
  | .master => sendFrame (nmtFrame cs target) s
  | .slave => returnStatus .rejectedRole s

/-- `SDO.SEND.REQ`, issued by the host. -/
def execSdoSendReq (d : Descriptor) (s : State) : Result State := whenReady s (.next (sdoSendReq d s))

/-- `SDO.SEND.RSP`, issued by the host. -/
def execSdoSendRsp (d : Descriptor) (s : State) : Result State := whenReady s (.next (sdoSendRsp d s))

/-- `PDO.SEND`, issued by the host. -/
def execPdoSend (id length : Nat) (p : Bytes8) (s : State) : Result State := whenReady s (.next (pdoSend id length p s))

/-- `NMT.SEND`, issued by the host. -/
def execNmtSend (cs : Byte) (target : Nat) (s : State) : Result State := whenReady s (.next (nmtSend cs target s))

end Sys2Proof.Machine
end

