-- ==== Sys2Proof/Machine/Listener.lean ====
section
/-! DEFINITION. The Listener Registry (spec/45_listener_registry.md): `Notify` (R232), what an invoked listener may do
(R234, R235, spec/70_reset_and_hazards.md R302), and `LISTENER.REG` (R230). -/

namespace Sys2Proof.Machine

/-- An operation a listener issues from inside its invocation: the four send commands run at that point; anything else is the
re-entrancy R302 forbids (R12, R235). -/
def issuedByListener (i : Instr) (s : State) : Result State :=
  match i with
  | .sdoSendReq d => .next (sdoSendReq d s)
  | .sdoSendRsp d => .next (sdoSendRsp d s)
  | .pdoSend id length p => .next (pdoSend id length p s)
  | .nmtSend cs target => .next (nmtSend cs target s)
  | .nmtStart _ | .nmtStop _ | .nmtPreop _ | .nmtReset _ | .nmtIgn _ | .pdoRx _ | .hbRx _ | .sdoReqRx _
  | .sdoRpyRxOwn _ | .sdoRpyRxFlt _ | .sdoRpyRxMst _ | .unparsed _ | .init _ _ _ _ | .listenerReg _ _ | .filterAdd _
  | .poll | .rxirq | .nmtBootdone => .refused .reentrancy

/-- The operations of one listener invocation, in the order it issues them (R235). -/
def runIssued : List Instr → State → Result State
  | [], s => .next s
  | i :: rest, s => andThen (issuedByListener i s) (runIssued rest)

/-- What the invoked listener does: the next reaction listed; an exhausted list is a listener that returns and issues nothing
(log entry 6). A listener that does not return leaves the operation stuck (R234). -/
def listenerRuns (s : State) : Result State :=
  match s.env.reactIn with
  | [] => .next s
  | .returns issued :: rest => runIssued issued { s with env := { s.env with reactIn := rest } }
  | .neverReturns :: _ => .fault .listenerStuck

/-- Invokes the listeners from `slot` on, in slot order; each invocation completes before the next starts (R232). The
payload is a value: every listener of one notification gets the same one (R233). -/
def invokeFrom (cat : Category) (p : Payload) : Nat → List Handle → State → Result State
  | _, [], s => .next s
  | slot, h :: rest, s => andThen (listenerRuns (s.emit (.ev cat slot h p))) (invokeFrom cat p (slot + 1) rest)

/-- `Notify(cat, p)` (R232). With no listener registered nothing happens. -/
def notify (cat : Category) (p : Payload) (s : State) : Result State := invokeFrom cat p 0 (s.regs.lst.slots cat) s

/-- The `ev_trace` entries of one notification of a category's slots, from `slot` on (R232). -/
def eventsFrom (cat : Category) (p : Payload) : Nat → List Handle → List Event
  | _, [] => []
  | slot, h :: rest => ⟨cat, slot, h, p⟩ :: eventsFrom cat p (slot + 1) rest

/-- `LISTENER.REG(cat, h)`: the first free slot, or nothing when the category is full (R230). -/
def listenerReg (cat : Category) (h : Handle) (s : State) : State :=
  if (s.regs.lst.slots cat).length < Config.listenerSlots then
    { s with regs := { s.regs with lst := s.regs.lst.append cat h } }
  else s

/-- `LISTENER.REG`, issued by the host. -/
def execListenerReg (cat : Category) (h : Handle) (s : State) : Result State := whenReady s (.next (listenerReg cat h s))

end Sys2Proof.Machine
end

