-- ==== Sys2Proof/Machine/Heartbeat.lean ====
section
/-! DEFINITION. The heartbeat timer, producer and consumer (spec/44_heartbeat.md). -/

namespace Sys2Proof.Machine

/-- `HB_EMIT()` (R213): no status reaches the host; a failed transmission is one diagnostics line. -/
def hbEmit (s : State) : State :=
  let f := hbFrame s.regs.own (hbCode s.params.hbResetByte s.regs.nmt)
  (tx f s).2.diagIf ((tx f s).1 == .busError) .heartbeatTransmitFailed

/-- `HB_TICK(now)` (R212): `hb_last` takes the value `now`, whatever becomes of the transmission. -/
def hbTick (t : Time) (s : State) : State :=
  if hbDue t s.regs.hbLast s.regs.hbInterval then hbEmit (s.setHbLast t) else s

/-- `HB.RX`: the frame goes to the listeners verbatim (R216). -/
def execHbRx (f : Frame) (s : State) : Result State := whenSelected (.hbRx f) s (notify .hbRx (.frame f) s)

end Sys2Proof.Machine
end

