-- ==== Sys2Proof/Machine/Nmt.lean ====
section
/-! DEFINITION. The NMT command classifier and state machine (spec/41_nmt.md): `NMT_APPLY` (R152), the five received NMT
operations (R153 to R157) and the Bootup one-shot (R158). `NMT.SEND` is in Machine/Sends.lean. -/

namespace Sys2Proof.Machine

/-- The state a command byte names; none for the other 252 (R89, R151). -/
def nmtTarget (c : Byte) : Option NmtState :=
  if c = 0x01 then some .operational
  else if c = 0x02 then some .stopped
  else if c = 0x80 then some .preOperational
  else if c = 0x81 then some .reset
  else none

/-- Writes `nmt`, then notifies the state change with the new value (R152, decision D7). -/
def enterState (new : NmtState) (s : State) : Result State := notify .stateChange (.state new) (s.setNmt new)

/-- `NMT_APPLY(c)` (R152). -/
def nmtApply (c : Byte) (s : State) : Result State :=
  match nmtTarget c with
  | some new => enterState new s
  | none => .next s

/-- `NMT.START` (R153). -/
def execNmtStart (f : Frame) (s : State) : Result State := whenSelected (.nmtStart f) s (enterState .operational s)

/-- `NMT.STOP` (R154). -/
def execNmtStop (f : Frame) (s : State) : Result State := whenSelected (.nmtStop f) s (enterState .stopped s)

/-- `NMT.PREOP` (R155). -/
def execNmtPreop (f : Frame) (s : State) : Result State := whenSelected (.nmtPreop f) s (enterState .preOperational s)

/-- `NMT.RESET` (R156): writes the value `Reset` and nothing else (R159). -/
def execNmtReset (f : Frame) (s : State) : Result State := whenSelected (.nmtReset f) s (enterState .reset s)

/-- `NMT.IGN` (R157): no write, no event, no diagnostics line. -/
def execNmtIgn (f : Frame) (s : State) : Result State := whenSelected (.nmtIgn f) s (.next s)

/-- The effect of the enabled one-shot: the flag is consumed, and the state leaves `Bootup` if it is still there (R158). -/
def bootdone (s : State) : Result State :=
  if s.regs.nmt = .bootup then enterState .preOperational s.setBootDone else .next s.setBootDone

/-- `NMT.BOOTDONE` (R158); it does not occur where it is not enabled. -/
def execNmtBootdone (s : State) : Result State :=
  whenReady s (if bootdoneEnabled s.regs then bootdone s else .refused .notEnabled)

end Sys2Proof.Machine
end

