-- ==== Sys2Proof/Machine/Pdo.lean ====
section
/-! DEFINITION. The receive side of the PDO gate (spec/43_pdo.md R203). `PDO.SEND` is in Machine/Sends.lean. -/

namespace Sys2Proof.Machine

/-- `PDO.RX`: the frame goes to the listeners with every field unchanged (R203). -/
def execPdoRx (f : Frame) (s : State) : Result State := whenSelected (.pdoRx f) s (notify .pdoRx (.frame f) s)

end Sys2Proof.Machine
end

