-- ==== Sys2Proof/Machine/Sdo.lean ====
section
/-! DEFINITION. The receive side of the SDO engine (spec/42_sdo.md R180 to R186). The send side is in Machine/Sends.lean. -/

namespace Sys2Proof.Machine

/-- `SDO_RX(cat, F, node)`: decode and notify (R186). Nothing is transmitted and no transaction is remembered (R179). -/
def sdoRx (cat : Category) (f : Frame) (node : Byte) (s : State) : Result State :=
  notify cat (.descriptor (sdoDecode f node)) s

/-- The engine's own address as a descriptor's node (R184). -/
def ownNode (s : State) : Byte := s.regs.own.setWidth 8

/-- `SDO.REQ.RX` (R180). -/
def execSdoReqRx (f : Frame) (s : State) : Result State := whenSelected (.sdoReqRx f) s (sdoRx .sdoReqRx f (ownNode s) s)

/-- `SDO.RPY.RX.OWN` (R181). -/
def execSdoRpyRxOwn (f : Frame) (s : State) : Result State :=
  whenSelected (.sdoRpyRxOwn f) s (sdoRx .sdoRpyRx f (ownNode s) s)

/-- `SDO.RPY.RX.FLT` (R182): the node is the engine's own address, not the sender's (conflict C3). -/
def execSdoRpyRxFlt (f : Frame) (s : State) : Result State :=
  whenSelected (.sdoRpyRxFlt f) s (sdoRx .sdoRpyRx f (ownNode s) s)

/-- `SDO.RPY.RX.MST` (R183, R184). -/
def execSdoRpyRxMst (f : Frame) (s : State) : Result State :=
  whenSelected (.sdoRpyRxMst f) s (sdoRx .sdoRpyRx f (nodeForMaster s.params.replyNode s.regs.own f) s)

end Sys2Proof.Machine
end

