-- ==== Sys2Proof/Machine/Router.lean ====
section
/-! DEFINITION. The Dispatcher, `DISPATCH(F)` (spec/40_dispatcher.md R120, R121): the seven predicates in their order, every
one evaluated for every frame, none stopping the later ones (conflict C7). It is written from the pseudocode of R121 and not
from the table's rows; that the two agree is a statement (Certificates). `UNPARSED` (R129) is here too. -/

namespace Sys2Proof.Machine

/-- The dispatcher's local `matched` beside the state (R121). -/
structure Routed where
  matched : Bool
  st : State
  deriving DecidableEq, Repr

/-- The predicate held: mark the frame as matched and run the handler. -/
def handled (r : Result State) : Result Routed := andThen r fun s => .next ⟨true, s⟩

/-- Predicate 1, NMT (R122): no role condition; a frame for another node is matched and does nothing. -/
def predicate1 (f : Frame) (r : Routed) : Result Routed :=
  if f.id = 0 then
    handled (if f.data.b1 = r.st.regs.own.setWidth 8 ∨ f.data.b1 = 0 then nmtApply f.data.b0 r.st else .next r.st)
  else .next r

/-- Predicate 2, PDO (R123). -/
def predicate2 (f : Frame) (r : Routed) : Result Routed :=
  if f.id.toNat > 0x17F ∧ f.id.toNat < 0x580 then handled (notify .pdoRx (.frame f) r.st) else .next r

/-- Predicate 3, heartbeat (R124). -/
def predicate3 (f : Frame) (r : Routed) : Result Routed :=
  if f.id.toNat > 0x700 then
    handled
      (if r.st.regs.role = .master ∨ inFilter r.st.regs.filt (f.id.toNat - 0x700) then notify .hbRx (.frame f) r.st
       else .next r.st)
  else .next r

/-- Predicate 4, SDO request (R125). -/
def predicate4 (f : Frame) (r : Routed) : Result Routed :=
  if f.id.toNat = 0x600 + r.st.regs.own.toNat then handled (sdoRx .sdoReqRx f (ownNode r.st) r.st) else .next r

/-- Predicate 5, SDO reply on the own identifier, slave (R126). -/
def predicate5 (f : Frame) (r : Routed) : Result Routed :=
  if f.id.toNat = 0x580 + r.st.regs.own.toNat ∧ r.st.regs.role = .slave then
    handled (sdoRx .sdoRpyRx f (ownNode r.st) r.st)
  else .next r

/-- The loop of predicate 6 over the filter entries, in index order; it fires once for every entry that hits (R127). -/
def filterLoop (f : Frame) : List Addr → Routed → Result Routed
  | [], r => .next r
  | a :: rest, r =>
    if f.id.toNat = 0x580 + a.toNat then
      andThen (handled (sdoRx .sdoRpyRx f (ownNode r.st) r.st)) (filterLoop f rest)
    else filterLoop f rest r

/-- Predicate 6, SDO reply from a filtered node, slave (R127). -/
def predicate6 (f : Frame) (r : Routed) : Result Routed :=
  if f.id.toNat ≥ 0x580 ∧ f.id.toNat < 0x600 ∧ r.st.regs.role = .slave ∧ ¬ f.id.toNat = 0x580 + r.st.regs.own.toNat then
    filterLoop f r.st.regs.filt r
  else .next r

/-- Predicate 7, SDO reply, master (R128). -/
def predicate7 (f : Frame) (r : Routed) : Result Routed :=
  if f.id.toNat ≥ 0x580 ∧ f.id.toNat < 0x600 ∧ r.st.regs.role = .master then
    handled (sdoRx .sdoRpyRx f (nodeForMaster r.st.params.replyNode r.st.regs.own f) r.st)
  else .next r

/-- `Diag("unparsed frame")` (R129, R263). -/
def reportUnparsed (s : State) : State := s.diagIf true .unparsedFrame

/-- The end of `DISPATCH`: the report of a frame no predicate matched (R121, R129). -/
def finishDispatch (r : Routed) : Result State := .next (if r.matched then r.st else reportUnparsed r.st)

/-- `DISPATCH(F)` (R120, R121). -/
def dispatch (f : Frame) (s : State) : Result State :=
  andThen (predicate1 f ⟨false, s⟩) fun r1 =>
  andThen (predicate2 f r1) fun r2 =>
  andThen (predicate3 f r2) fun r3 =>
  andThen (predicate4 f r3) fun r4 =>
  andThen (predicate5 f r4) fun r5 =>
  andThen (predicate6 f r5) fun r6 =>
  andThen (predicate7 f r6) finishDispatch

/-- `UNPARSED` (R129): one diagnostics line if `debug` is set, nothing else. -/
def execUnparsed (f : Frame) (s : State) : Result State := whenSelected (.unparsed f) s (.next (reportUnparsed s))

end Sys2Proof.Machine
end

