-- ==== Sys2Proof/Machine/HostOps.lean ====
section
/-! DEFINITION. The entry points of spec/46_host_ops.md: `INIT` (R240, R241), `FILTER.ADD` (R243), `RXIRQ` (R245) and
`POLL` (R246). -/

namespace Sys2Proof.Machine

/-- The registers after `INIT` (R40): every one, the Listen Filter and the Listener table emptied. -/
def initRegs (p : Params) (ownAddr : Nat) (role : Role) (hbInterval : Time) (debug : Bool) : Regs :=
  { own := maskAddr ownAddr, role := role, nmt := initialNmt role, bootDone := false, hbInterval := hbInterval,
    hbLast := p.hbLastReset, debug := debug, filt := [], lst := .empty, ready := true }

/-- `INIT(own_addr, role, hb_interval, debug)` (R240): refused outside 1 to 127; else every register takes its reset value and the
transport is brought up (R241). Nothing is transmitted or notified, and the histories stay (R40, conflict C12). -/
def execInit (ownAddr : Nat) (role : Role) (hbInterval : Time) (debug : Bool) (s : State) : Result State :=
  if 1 ≤ ownAddr ∧ ownAddr ≤ 127 then
    .next ({ s with regs := initRegs s.params ownAddr role hbInterval debug }.emitXcfg (bringUpCalls (maskAddr ownAddr)))
  else .refused .illegalOwnAddress

/-- An address `FILTER.ADD` drops silently: 0, the own address, a duplicate, or any on a full filter (R243, decision D24). -/
def filterDrops (r : Regs) (a : Addr) : Bool :=
  a == 0 || a == r.own || inFilter r.filt a.toNat || decide (r.filt.length ≥ Config.filterCap)

/-- `FILTER.ADD(addr)` (R243). -/
def filterAdd (addr : Nat) (s : State) : State :=
  let a := maskAddr addr
  if filterDrops s.regs a then s
  else
    { s with regs := { s.regs with filt := s.regs.filt ++ [a] } }.emitXcfg
      [.addAcceptanceFilter (Config.filterIdFor a) (Config.filterMaskFor a)]

/-- `FILTER.ADD`, issued by the host. -/
def execFilterAdd (addr : Nat) (s : State) : Result State := whenReady s (.next (filterAdd addr s))

/-- One `Rx()`, and the dispatch of the frame it returned, if any (R245, R246). -/
def receive (s : State) : Result State :=
  match (rx s).1 with
  | some f => dispatch f (rx s).2
  | none => .next (rx s).2

/-- `RXIRQ` (R245): the receive interrupt; it saves and restores nothing (R268, R269). -/
def execRxirq (s : State) : Result State := whenReady s (receive s)

/-- The drain of `POLL`: at most one frame, only if `Pending()` (R246, decision D20). -/
def drain (s : State) : Result State := if (pending s).1 then receive (pending s).2 else .next (pending s).2

/-- The timer check of `POLL` (R246). -/
def checkTimer (s : State) : State := hbTick (now s).1 (now s).2

/-- `POLL` (R246): first the drain, then the timer. -/
def execPoll (s : State) : Result State := whenReady s (andThen (drain s) fun t => .next (checkTimer t))

end Sys2Proof.Machine
end

