-- ==== Sys2Proof/Machine/Dispatch.lean ====
section
/-! DEFINITION. One arm per operation: `exec` gives each row of spec/opcode_table.json its meaning. (The block's own
sub-operation `DISPATCH` of R121 is `Machine.dispatch`, in Machine/Router.lean.) -/

namespace Sys2Proof.Machine

def exec (i : Instr) (s : State) : Host.Outcome State Fault Refusal :=
  match i with
  | .nmtStart f => Sys2Proof.Machine.execNmtStart f s
  | .nmtStop f => Sys2Proof.Machine.execNmtStop f s
  | .nmtPreop f => Sys2Proof.Machine.execNmtPreop f s
  | .nmtReset f => Sys2Proof.Machine.execNmtReset f s
  | .nmtIgn f => Sys2Proof.Machine.execNmtIgn f s
  | .pdoRx f => Sys2Proof.Machine.execPdoRx f s
  | .hbRx f => Sys2Proof.Machine.execHbRx f s
  | .sdoReqRx f => Sys2Proof.Machine.execSdoReqRx f s
  | .sdoRpyRxOwn f => Sys2Proof.Machine.execSdoRpyRxOwn f s
  | .sdoRpyRxFlt f => Sys2Proof.Machine.execSdoRpyRxFlt f s
  | .sdoRpyRxMst f => Sys2Proof.Machine.execSdoRpyRxMst f s
  | .unparsed f => Sys2Proof.Machine.execUnparsed f s
  | .init ownAddr role hbInterval debug => Sys2Proof.Machine.execInit ownAddr role hbInterval debug s
  | .listenerReg cat h => Sys2Proof.Machine.execListenerReg cat h s
  | .filterAdd addr => Sys2Proof.Machine.execFilterAdd addr s
  | .sdoSendReq d => Sys2Proof.Machine.execSdoSendReq d s
  | .sdoSendRsp d => Sys2Proof.Machine.execSdoSendRsp d s
  | .pdoSend id length p => Sys2Proof.Machine.execPdoSend id length p s
  | .nmtSend cs target => Sys2Proof.Machine.execNmtSend cs target s
  | .poll => Sys2Proof.Machine.execPoll s
  | .rxirq => Sys2Proof.Machine.execRxirq s
  | .nmtBootdone => Sys2Proof.Machine.execNmtBootdone s

end Sys2Proof.Machine
end

