-- ==== Sys2Proof/Machine/Step.lean ====
section
/-! DEFINITION. One step: the block has no program counter and no fetch; the environment chooses each next operation
(spec/10_state.md R24). The step takes the next record the environment issued on port `cmd` and runs the operation it decodes
to, whole and uninterrupted (spec/00_scope.md R12). -/

namespace Sys2Proof.Machine

/-- The state with the record at the head of port `cmd` taken. -/
def State.withCmd (s : State) (records : List (List Byte)) : State := { s with env := { s.env with cmd := records } }

/-- One step. With no operation issued the block does nothing (log entry 7). -/
def step (s : State) : Host.Outcome State Fault Refusal :=
  match s.env.cmd with
  | [] => .next s
  | record :: rest =>
    match decodeHost record with
    | .instr i => exec i (s.withCmd rest)
    | .rejected why => .refused (.badRecord why)

/-- The state in which the environment issues `record` next. -/
def State.issue (record : List Byte) (s : State) : State := s.withCmd (record :: s.env.cmd)

/-- The state in which a frame has arrived and the receive interrupt is issued next (R245, R265). -/
def State.arrive (f : Frame) (s : State) : State :=
  State.issue (encode .rxirq) { s with env := { s.env with rxIn := some f :: s.env.rxIn } }

/-- The state in which the next step runs the operation of a table word (log entry 8): a host command's record is issued next; a
received frame waits in the transport with its receive interrupt issued next. -/
def State.withFetchWord (s : State) (nbits w : Nat) : State :=
  match tablePort nbits with
  | .cmd => s.issue (tableBytes nbits w)
  | .rx =>
    match readFrame (tableBytes nbits w) with
    | some f => s.arrive f
    | none => s

end Sys2Proof.Machine
end

