-- ==== Sys2Proof/Safety.lean ====
section
/-! DEFINITION. What claims about the block speak of: the invariants of spec/10_state.md R39, the premises on the environment
(spec/45_listener_registry.md R234, R235), and what counts as a safe run. -/

namespace Sys2Proof.Machine

/-! ## The invariant (R39) -/

/-- The Listen Filter: at most twelve entries, pairwise distinct, non-zero, different from the own address (R33, R39). -/
abbrev FilterOk (r : Regs) : Prop :=
  r.filt.length ≤ Config.filterCap ∧ r.filt.Nodup ∧ 0 ∉ r.filt ∧ r.own ∉ r.filt

/-- At most six filled slots in every category (R34, R39). -/
abbrev ListenersOk (t : ListenerTable) : Prop :=
  t.stateChange.length ≤ Config.listenerSlots ∧ t.pdoRx.length ≤ Config.listenerSlots ∧
  t.sdoReqRx.length ≤ Config.listenerSlots ∧ t.sdoRpyRx.length ≤ Config.listenerSlots ∧
  t.hbRx.length ≤ Config.listenerSlots

/-- After `INIT` the own address is in 1 to 127 (R26, R39). -/
abbrev OwnOk (r : Regs) : Prop := r.ready = true → 1 ≤ r.own.toNat ∧ r.own.toNat ≤ 127

/-- The payload has the type its category fixes (R23), a descriptor's length is in 0 to 4 and its node below 128 (R22, R39). -/
def payloadOk : Category → Payload → Bool
  | .stateChange, .state _ => true
  | .pdoRx, .frame _ => true
  | .hbRx, .frame _ => true
  | .sdoReqRx, .descriptor d => decide (d.len ≤ 4) && decide (d.node.toNat < 128)
  | .sdoRpyRx, .descriptor d => decide (d.len ≤ 4) && decide (d.node.toNat < 128)
  | .stateChange, .frame _ | .stateChange, .descriptor _ | .pdoRx, .state _ | .pdoRx, .descriptor _
  | .hbRx, .state _ | .hbRx, .descriptor _ | .sdoReqRx, .state _ | .sdoReqRx, .frame _
  | .sdoRpyRx, .state _ | .sdoRpyRx, .frame _ => false

/-- One entry of the history as R39 says: a transmitted frame has `ext` and `rtr` 0, an event has a slot below 6 and a
payload of its category. (`dlc` in 0 to 8 is the type of a frame.) -/
def entryOk : Obs → Bool
  | .tx f _ => !f.ext && !f.rtr
  | .ev cat slot _ p => decide (slot < Config.listenerSlots) && payloadOk cat p
  | .status _ => true

/-- The invariant of R39 over the registers and the histories; its clause on a slave's frames is stated of each step
(log entry 9). -/
abbrev Inv (s : State) : Prop :=
  OwnOk s.regs ∧ FilterOk s.regs ∧ ListenersOk s.regs.lst ∧ s.out.trace.all entryOk = true

/-! ## Premises on the environment -/

/-- The four send commands, the only operations a listener may issue (R235). -/
def isSend : Instr → Bool
  | .sdoSendReq _ | .sdoSendRsp _ | .pdoSend _ _ _ | .nmtSend _ _ => true
  | .nmtStart _ | .nmtStop _ | .nmtPreop _ | .nmtReset _ | .nmtIgn _ | .pdoRx _ | .hbRx _ | .sdoReqRx _
  | .sdoRpyRxOwn _ | .sdoRpyRxFlt _ | .sdoRpyRxMst _ | .unparsed _ | .init _ _ _ _ | .listenerReg _ _ | .filterAdd _
  | .poll | .rxirq | .nmtBootdone => false

/-- A reaction the hazards R301 and R302 ask for: the listener returns and issues send commands only. -/
def Reaction.lawful : Reaction → Bool
  | .returns issued => issued.all isSend
  | .neverReturns => false

/-- Every listener returns and issues send commands only: the premise of R234 and R235. -/
abbrev ListenersLawful (s : State) : Prop := s.env.reactIn.all Reaction.lawful = true

/-- The environment issues this operation only where its precondition holds (R24): any operation but `INIT` after the first
`INIT` (R291), `INIT` with an address in 1 to 127 (R240), `NMT.BOOTDONE` where enabled (R158), a received-frame operation where
its frame selects it (R91). -/
def permitted (s : State) : Instr → Bool
  | .init ownAddr _ _ _ => decide (1 ≤ ownAddr) && decide (ownAddr ≤ 127)
  | .nmtBootdone => s.regs.ready && bootdoneEnabled s.regs
  | .nmtStart f => s.regs.ready && selected s.ctx (.nmtStart f)
  | .nmtStop f => s.regs.ready && selected s.ctx (.nmtStop f)
  | .nmtPreop f => s.regs.ready && selected s.ctx (.nmtPreop f)
  | .nmtReset f => s.regs.ready && selected s.ctx (.nmtReset f)
  | .nmtIgn f => s.regs.ready && selected s.ctx (.nmtIgn f)
  | .pdoRx f => s.regs.ready && selected s.ctx (.pdoRx f)
  | .hbRx f => s.regs.ready && selected s.ctx (.hbRx f)
  | .sdoReqRx f => s.regs.ready && selected s.ctx (.sdoReqRx f)
  | .sdoRpyRxOwn f => s.regs.ready && selected s.ctx (.sdoRpyRxOwn f)
  | .sdoRpyRxFlt f => s.regs.ready && selected s.ctx (.sdoRpyRxFlt f)
  | .sdoRpyRxMst f => s.regs.ready && selected s.ctx (.sdoRpyRxMst f)
  | .unparsed f => s.regs.ready && selected s.ctx (.unparsed f)
  | .listenerReg _ _ | .filterAdd _ | .sdoSendReq _ | .sdoSendRsp _ | .pdoSend _ _ _ | .nmtSend _ _ | .poll | .rxirq =>
    s.regs.ready

/-- A safe outcome: the machine has not stopped with a fault. -/
def Safe (r : Result State) : Prop := ∀ e, r ≠ .fault e

/-! ## What notified listeners may change -/

/-- The inputs an operation that notifies leaves alone: ports `cmd`, `Pending`, `Rx` and `Now`. (Listeners take reactions,
and their sends take answers of `Tx`.) -/
def sameInputs (a b : Env) : Prop :=
  a.cmd = b.cmd ∧ a.pendingIn = b.pendingIn ∧ a.rxIn = b.rxIn ∧ a.nowIn = b.nowIn

/-- Every listener returns and issues nothing: no reaction is listed, or every one listed is empty. -/
abbrev ListenersQuiet (s : State) : Prop := ∀ r ∈ s.env.reactIn, r = .returns []

/-- The history entries of one notification whose listeners issue nothing, from a slot on (R232). -/
def eventObs (cat : Category) (p : Payload) : Nat → List Handle → List Obs
  | _, [] => []
  | slot, h :: rest => .ev cat slot h p :: eventObs cat p (slot + 1) rest

/-- `t` is `s` after its listeners of `cat` were invoked once with payload `p` and returned: registers, parameters, the other inputs
and `xcfg_trace` are unchanged, the histories are extended, and exactly one event per filled slot is added, in slot order
(R232, R235). Where the listeners issue nothing, nothing else happens: no frame, no status, no diagnostics line; only the
invoked listeners' reactions are taken from the inputs. -/
def NotifiedOnce (cat : Category) (p : Payload) (s t : State) : Prop :=
  t.regs = s.regs ∧ t.params = s.params ∧ sameInputs t.env s.env ∧ t.out.xcfg = s.out.xcfg ∧
  s.out.trace <+: t.out.trace ∧ s.out.diag <+: t.out.diag ∧
  t.out.events = s.out.events ++ eventsFrom cat p 0 (s.regs.lst.slots cat) ∧
  (ListenersQuiet s → t =
    { s with
      env := { s.env with reactIn := s.env.reactIn.drop (s.regs.lst.slots cat).length }
      out := { s.out with trace := s.out.trace ++ eventObs cat p 0 (s.regs.lst.slots cat) } })

/-! ## What a send command leaves, written out -/

/-- `s` after the frame `f` was handed to `Tx` once and the status of its result returned, and nothing else happened but, on a bus
error with `debug` set, one diagnostics line (R60, R260, R261). -/
def transmitted (f : Frame) (s : State) : State :=
  { s with
    env := afterTx s.env
    out :=
      { s.out with
        trace := s.out.trace ++
          [.tx f (txAnswer s.env), .status (match txAnswer s.env with | .ok => .ok | .busError => .busError)]
        diag := s.out.diag ++ (if txAnswer s.env = .busError ∧ s.regs.debug = true then [.transmitFailed] else []) } }

/-- `s` after the status `st` was returned, and nothing else happened. -/
def answered (st : Status) (s : State) : State :=
  { s with out := { s.out with trace := s.out.trace ++ [.status st] } }

/-- `s` without what only diagnostics see: the `debug` flag and `diag_trace` (R31, R277). -/
def undebugged (s : State) : State :=
  { s with regs := { s.regs with debug := false }, out := { s.out with diag := [] } }

end Sys2Proof.Machine
end

