-- ==== Sys2Proof/Certificates/Slice0/Obligations.lean ====
section
/-! DEFINITION. The statements about the model. Each docstring names the rule of spec/ or the model's choice it rests on. -/

open Sys2Proof Sys2Proof.Machine

/-! ## Reset and `INIT` -/

/-- The state after reset is what the first `INIT` leaves (spec/70_reset_and_hazards.md, section 1). The operands of that `INIT`
are the model's choice (log entry 2). -/
def Obligations.ResetIsTheStateAfterTheFirstInit : Prop :=
  exec (.init Config.resetOwn.toNat Config.resetRole Config.defaultHbInterval Config.resetDebug) State.powerOn
    = .next State.reset

/-- R40: `INIT` gives every register its reset value, from every state, transmits nothing and notifies nobody, and leaves the
histories; they are empty before the first one; before it every other operation is refused. -/
def Obligations.InitGivesEveryRegisterItsResetValue : Prop :=
  (∀ (s : State) (a : Nat) (role : Role) (hb : Time) (dbg : Bool), 1 ≤ a → a ≤ 127 →
    ∃ t, exec (.init a role hb dbg) s = .next t ∧
      t.regs.own.toNat = a ∧ t.regs.role = role ∧
      (role = .master → t.regs.nmt = .operational) ∧ (role = .slave → t.regs.nmt = .bootup) ∧
      t.regs.bootDone = false ∧ t.regs.hbInterval = hb ∧ t.regs.hbLast = s.params.hbLastReset ∧ t.regs.debug = dbg ∧
      t.regs.filt = [] ∧ (∀ c, t.regs.lst.slots c = []) ∧ t.regs.ready = true ∧
      t.params = s.params ∧ t.env = s.env ∧ t.out.trace = s.out.trace ∧ t.out.diag = s.out.diag) ∧
  (State.powerOn.out.trace = [] ∧ State.powerOn.out.diag = []) ∧
  (∀ (s : State) (i : Instr), s.regs.ready = false → (∀ a r h d, i ≠ .init a r h d) → exec i s = .refused .beforeInit)

/-- `INIT` issues the six transport bring-up calls once each, in the order the source lists them
(spec/46_host_ops.md, INIT; the order is decision D33, the arguments `rate`, `id`, `mask` are free values). -/
def Obligations.InitBringsTheTransportUpInOrder : Prop :=
  ∀ (s : State) (a : Nat) (role : Role) (hb : Time) (dbg : Bool), 1 ≤ a → a ≤ 127 →
    ∃ t rate own id mask, exec (.init a role hb dbg) s = .next t ∧ own.toNat = a ∧
      t.out.xcfg = s.out.xcfg ++ [.configureBitrate rate, .initTransport own, .addAcceptanceFilter id mask, .enable, .wake,
        .attachReceiveInterrupt]

/-- `INIT` with an own address outside 1 to 127 is refused, before and after a first `INIT` (spec/46_host_ops.md, INIT). -/
def Obligations.InitRefusesAnIllegalOwnAddress : Prop :=
  ∀ (s : State) (a : Nat) (role : Role) (hb : Time) (dbg : Bool), a = 0 ∨ 127 < a →
    exec (.init a role hb dbg) s = .refused .illegalOwnAddress

/-! ## Registrations -/

/-- `LISTENER.REG` fills the first free slot of its category; on a full category it changes nothing; other categories and
everything else stay (spec/45_listener_registry.md, section on registration; the silent drop is the spec's decision D23). -/
def Obligations.ListenerRegFillsTheFirstFreeSlotOrIsDropped : Prop :=
  ∀ (s : State) (cat : Category) (h : Handle), s.regs.ready = true →
    ∃ t, exec (.listenerReg cat h) s = .next t ∧
      t = { s with regs := { s.regs with lst := t.regs.lst } } ∧
      ((s.regs.lst.slots cat).length < 6 → t.regs.lst.slots cat = s.regs.lst.slots cat ++ [h]) ∧
      (6 ≤ (s.regs.lst.slots cat).length → t = s) ∧
      (∀ d, d ≠ cat → t.regs.lst.slots d = s.regs.lst.slots d)

/-- `FILTER.ADD` masks its operand to 7 bits, appends it and makes one acceptance filter call, unless it is 0, the own
address, already in the filter, or the filter holds 12; then nothing changes (spec/46_host_ops.md, FILTER.ADD; the silent
drops are the spec's decision D24; `id` and `mask` are free values). -/
def Obligations.FilterAddAppendsOrDropsSilently : Prop :=
  ∀ (s : State) (addr : Nat) (a : Addr), s.regs.ready = true → a.toNat = addr % 128 →
    ((a = 0 ∨ a = s.regs.own ∨ a ∈ s.regs.filt ∨ 12 ≤ s.regs.filt.length) → exec (.filterAdd addr) s = .next s) ∧
    (¬(a = 0 ∨ a = s.regs.own ∨ a ∈ s.regs.filt ∨ 12 ≤ s.regs.filt.length) →
      ∃ id mask, exec (.filterAdd addr) s =
        .next
          { s with
            regs := { s.regs with filt := s.regs.filt ++ [a] }
            out := { s.out with xcfg := s.out.xcfg ++ [.addAcceptanceFilter id mask] } })

/-- A `FILTER.ADD` that took is seen by the very next frame: a slave then forwards that node's heartbeat and SDO reply
(spec/20_memory.md, section 7). -/
def Obligations.AddedFilterEntryIsSeenByTheNextFrame : Prop :=
  ∀ (s t : State) (addr : Nat) (a : Addr) (f g : Frame), s.regs.role = .slave → a.toNat = addr % 128 →
    exec (.filterAdd addr) s = .next t → t ≠ s → f.id.toNat = 0x700 + a.toNat → g.id.toNat = 0x580 + a.toNat →
    decodeFrame t.ctx f = .instr (.hbRx f) ∧ decodeFrame t.ctx g = .instr (.sdoRpyRxFlt g)

/-! ## NMT -/

/-- R153 to R157: an addressed or broadcast `NMT.START`, `NMT.STOP`, `NMT.PREOP`, `NMT.RESET`, from every state and in both roles, writes
its state, and no other register, and notifies it once to every registered listener; where the listeners issue nothing, nothing
else happens. Addressed to another nonzero node, or with any other command byte, the frame is `NMT.IGN` and leaves everything
unchanged. -/
def Obligations.NmtCommandsWriteTheirStateAndNotify : Prop :=
  (∀ (mk : Frame → Instr) (cs : Byte) (new : NmtState),
    (mk, cs, new) ∈ [(Instr.nmtStart, 0x01, NmtState.operational), (Instr.nmtStop, 0x02, NmtState.stopped),
      (Instr.nmtPreop, 0x80, NmtState.preOperational), (Instr.nmtReset, 0x81, NmtState.reset)] →
    ∀ (s : State) (f : Frame), s.regs.ready = true → f.id = 0 → f.data.b0 = cs →
      (f.data.b1 = s.regs.own.setWidth 8 ∨ f.data.b1 = 0) → ListenersLawful s →
        decodeFrame s.ctx f = .instr (mk f) ∧
        ∃ t, exec (mk f) s = .next t ∧ NotifiedOnce .stateChange (.state new) (s.setNmt new) t) ∧
  (∀ (s : State) (f : Frame), s.regs.ready = true → f.id = 0 →
    ((f.data.b1 ≠ s.regs.own.setWidth 8 ∧ f.data.b1 ≠ 0) ∨ f.data.b0 ∉ ([0x01, 0x02, 0x80, 0x81] : List Byte)) →
    decodeFrame s.ctx f = .instr (.nmtIgn f) ∧ exec (.nmtIgn f) s = .next s)

/-- The command classifier `NMT_APPLY`. The four bytes lead to their states from every state, written before the notification; any
other byte changes nothing at all (spec/41_nmt.md, section 1; that every recognised command notifies and that the write comes
first is the spec's decision D7). -/
def Obligations.NmtApplyFollowsTheCommandTable : Prop :=
  ∀ (s : State) (c : Byte), ListenersLawful s →
    ∃ t, nmtApply c s = .next t ∧
      (c = 0x01 → NotifiedOnce .stateChange (.state .operational) (s.setNmt .operational) t) ∧
      (c = 0x02 → NotifiedOnce .stateChange (.state .stopped) (s.setNmt .stopped) t) ∧
      (c = 0x80 → NotifiedOnce .stateChange (.state .preOperational) (s.setNmt .preOperational) t) ∧
      (c = 0x81 → NotifiedOnce .stateChange (.state .reset) (s.setNmt .reset) t) ∧
      (c ≠ 0x01 → c ≠ 0x02 → c ≠ 0x80 → c ≠ 0x81 → t = s)

/-- R157: an identifier-0 frame for another node, or with an unrecognised command byte, is `NMT.IGN` and leaves everything
unchanged; the Dispatcher does not report it either, also with `debug` set, since the frame matched predicate 1. -/
def Obligations.NmtIgnoredFrameChangesNothing : Prop :=
  ∀ (s : State) (f : Frame), s.regs.ready = true → f.id = 0 →
    ((f.data.b1 ≠ s.regs.own.setWidth 8 ∧ f.data.b1 ≠ 0) ∨
      (f.data.b0 ≠ 0x01 ∧ f.data.b0 ≠ 0x02 ∧ f.data.b0 ≠ 0x80 ∧ f.data.b0 ≠ 0x81)) →
    decodeFrame s.ctx f = .instr (.nmtIgn f) ∧ exec (.nmtIgn f) s = .next s ∧ dispatch f s = .next s

/-- The Bootup one-shot of a slave: it consumes its flag, and moves the state to PreOperational with one notification if the state
is still Bootup, else changes nothing more (spec/41_nmt.md, section 3; the spec's decision D9). -/
def Obligations.BootdoneFiresOnceFromBootup : Prop :=
  ∀ s : State, s.regs.ready = true → s.regs.role = .slave → s.regs.bootDone = false →
    (s.regs.nmt = .bootup → ListenersLawful s → ∃ t, exec .nmtBootdone s = .next t ∧
      NotifiedOnce .stateChange (.state .preOperational)
        { s with regs := { s.regs with bootDone := true, nmt := .preOperational } } t) ∧
    (s.regs.nmt ≠ .bootup → exec .nmtBootdone s = .next { s with regs := { s.regs with bootDone := true } })

/-- `NMT.BOOTDONE` does not occur in a master, nor once the flag is set (spec/41_nmt.md, section 3; that it is
then refused is the model's, log entry 11). -/
def Obligations.BootdoneIsNotEnabledInAMasterOrTwice : Prop :=
  ∀ s : State, s.regs.ready = true → (s.regs.role = .master ∨ s.regs.bootDone = true) →
    exec .nmtBootdone s = .refused .notEnabled

/-- `NMT.SEND` transmits `[cs, target & 0x7F]` on identifier 0 from a master, whose own state is untouched; a slave gets
`ST_REJECTED_ROLE` and transmits nothing (spec/41_nmt.md, section 4; the frame and the statuses are the spec's decision D18). -/
def Obligations.NmtSendTransmitsFromAMasterOnly : Prop :=
  ∀ (s : State) (cs : Byte) (target : Nat), s.regs.ready = true →
    (s.regs.role = .master → exec (.nmtSend cs target) s =
      .next (transmitted
        { id := 0, ext := false, rtr := false, dlc := 2,
          data := ⟨cs, BitVec.ofNat 8 (target % 128), 0, 0, 0, 0, 0, 0⟩ } s)) ∧
    (s.regs.role = .slave → exec (.nmtSend cs target) s = .next (answered .rejectedRole s))

/-! ## SDO -/

/-- The frame `SDO_ENCODE` builds, byte by byte (spec/42_sdo.md, section 2; `dlc` 8 and the zero fill are the spec's decision
D12). -/
def Obligations.SdoEncodeLaysOutTheFrame : Prop :=
  ∀ (id : CanId) (d : Descriptor), d.len ≤ 4 →
    (sdoEncode id d).id = id ∧ (sdoEncode id d).ext = false ∧ (sdoEncode id d).rtr = false ∧ (sdoEncode id d).dlc = 8 ∧
    (sdoEncode id d).data.b0.toNat / 16 = d.cmd.toNat / 16 ∧
    (sdoEncode id d).data.b0.toNat % 16 = (if d.len = 0 then 0 else 4 * (4 - d.len)) ∧
    (sdoEncode id d).data.b1.toNat = d.index.toNat % 256 ∧ (sdoEncode id d).data.b2.toNat = d.index.toNat / 256 ∧
    (sdoEncode id d).data.b3 = d.sub ∧
    (sdoEncode id d).data.b4 = (if 1 ≤ d.len then d.data.b0 else 0) ∧
    (sdoEncode id d).data.b5 = (if 2 ≤ d.len then d.data.b1 else 0) ∧
    (sdoEncode id d).data.b6 = (if 3 ≤ d.len then d.data.b2 else 0) ∧
    (sdoEncode id d).data.b7 = (if 4 ≤ d.len then d.data.b3 else 0)

/-- The descriptor `SDO_DECODE` reads; `id`, `ext`, `rtr` and `dlc` are not read (spec/42_sdo.md, section 2; zero bytes above the
length are the spec's decision D12). -/
def Obligations.SdoDecodeReadsTheDescriptor : Prop :=
  ∀ (f : Frame) (node : Byte) (len : Nat),
    len = (if f.data.b0 = 0x40 ∨ f.data.b0 = 0x60 then 0 else 4 - f.data.b0.toNat / 4 % 4) →
    (sdoDecode f node).node = node ∧
    (sdoDecode f node).cmd.toNat = 16 * (f.data.b0.toNat / 16) ∧
    (sdoDecode f node).index.toNat = f.data.b1.toNat + 256 * f.data.b2.toNat ∧
    (sdoDecode f node).sub = f.data.b3 ∧
    (sdoDecode f node).len = len ∧
    (sdoDecode f node).data = ⟨if 1 ≤ len then f.data.b4 else 0, if 2 ≤ len then f.data.b5 else 0,
      if 3 ≤ len then f.data.b6 else 0, if 4 ≤ len then f.data.b7 else 0⟩ ∧
    (∀ id ext rtr dlc, sdoDecode { f with id := id, ext := ext, rtr := rtr, dlc := dlc } node = sdoDecode f node)

/-- R88: the SDO length field in both directions, over every byte 0 and every command value (high nibble only), and the three
named pairs that do not come back. -/
def Obligations.SdoLengthFieldFollowsItsTables : Prop :=
  (∀ (cmd : Byte), cmd &&& 0xF0 = cmd →
    sdoByte0 cmd 0 = cmd ∧ sdoByte0 cmd 1 = cmd ||| 0x0C ∧ sdoByte0 cmd 2 = cmd ||| 0x08 ∧
    sdoByte0 cmd 3 = cmd ||| 0x04 ∧ sdoByte0 cmd 4 = cmd) ∧
  (∀ b0 : Byte,
    ((b0 = 0x40 ∨ b0 = 0x60) → sdoLength b0 = 0) ∧
    (b0 ≠ 0x40 → b0 ≠ 0x60 → b0.toNat / 4 % 4 = 0 → sdoLength b0 = 4) ∧
    (b0 ≠ 0x40 → b0 ≠ 0x60 → b0.toNat / 4 % 4 = 1 → sdoLength b0 = 3) ∧
    (b0 ≠ 0x40 → b0 ≠ 0x60 → b0.toNat / 4 % 4 = 2 → sdoLength b0 = 2) ∧
    (b0 ≠ 0x40 → b0 ≠ 0x60 → b0.toNat / 4 % 4 = 3 → sdoLength b0 = 1)) ∧
  (∀ cmd ∈ [Config.sdoCmdWrite, Config.sdoCmdRead, Config.sdoCmdWriteAck], ∀ len ∈ [0, 1, 2, 3, 4],
    sdoLength (sdoByte0 cmd len) ≠ len ↔
      (cmd, len) ∈ [(Config.sdoCmdWrite, 0), (Config.sdoCmdRead, 4), (Config.sdoCmdWriteAck, 4)])

/-- The round-trip law on exactly its domain, for a descriptor with a command in the high nibble, `len` in 0 to 4 and zero
bytes above `len`; `index`, `sub` and `cmd` come back in every case, and the failing pairs decode as the spec says
(spec/42_sdo.md, section 3; the spec derives the domain itself). -/
def Obligations.SdoRoundTripHoldsExactlyOnItsDomain : Prop :=
  ∀ (id : CanId) (d : Descriptor), d.cmd &&& 0xF0 = d.cmd → d.len ≤ 4 → firstBytes4 d.len d.data = d.data →
    (sdoDecode (sdoEncode id d) d.node = d ↔
      ((1 ≤ d.len ∧ d.len ≤ 3) ∨ (d.len = 4 ∧ d.cmd ≠ 0x40 ∧ d.cmd ≠ 0x60) ∨
        (d.len = 0 ∧ (d.cmd = 0x40 ∨ d.cmd = 0x60)))) ∧
    (sdoDecode (sdoEncode id d) d.node).index = d.index ∧ (sdoDecode (sdoEncode id d) d.node).sub = d.sub ∧
    (sdoDecode (sdoEncode id d) d.node).cmd = d.cmd ∧
    (d.len = 4 → (d.cmd = 0x40 ∨ d.cmd = 0x60) →
      (sdoDecode (sdoEncode id d) d.node).len = 0 ∧ (sdoDecode (sdoEncode id d) d.node).data = ⟨0, 0, 0, 0⟩) ∧
    (d.len = 0 → d.cmd ≠ 0x40 → d.cmd ≠ 0x60 →
      (sdoDecode (sdoEncode id d) d.node).len = 4 ∧ (sdoDecode (sdoEncode id d) d.node).data = ⟨0, 0, 0, 0⟩)

/-- `SDO.SEND.REQ` transmits the encoded frame on 0x600 + (node & 0x7F) in either role; with a length above 4 it returns
`ST_REJECTED_PARAM` and transmits nothing (spec/42_sdo.md, section 3; the spec's decisions D13, D16). -/
def Obligations.SdoSendReqTransmitsOrRejects : Prop :=
  ∀ (s : State) (d : Descriptor), s.regs.ready = true →
    (d.len ≤ 4 → ∃ id : CanId, id.toNat = 0x600 + d.node.toNat % 128 ∧
      exec (.sdoSendReq d) s = .next (transmitted (sdoEncode id d) s)) ∧
    (4 < d.len → exec (.sdoSendReq d) s = .next (answered .rejectedParam s))

/-- `SDO.SEND.RSP` transmits on 0x580 + own and ignores the descriptor's node; both SDO sends reject a length above 4 with
`ST_REJECTED_PARAM`, no frame and no diagnostics line (spec/42_sdo.md, section 3; the spec's decisions D13, D16). -/
def Obligations.SdoSendRspTransmitsOrRejects : Prop :=
  ∀ (s : State) (d : Descriptor), s.regs.ready = true →
    (d.len ≤ 4 → ∃ id : CanId, id.toNat = 0x580 + s.regs.own.toNat ∧
      exec (.sdoSendRsp d) s = .next (transmitted (sdoEncode id d) s)) ∧
    (4 < d.len → exec (.sdoSendRsp d) s = .next (answered .rejectedParam s) ∧
      exec (.sdoSendReq d) s = .next (answered .rejectedParam s)) ∧
    (∀ node, exec (.sdoSendRsp { d with node := node }) s = exec (.sdoSendRsp d) s)

/-- R180 to R183: the four SDO receive operations, each selected by its identifier and role, decode the frame and notify the
descriptor once, to every listener of the category, and write no register; where the listeners issue nothing, nothing else
happens: no frame, no status, no diagnostics line. The descriptor's `node` is the own address, for a master the sender or, under
the other setting of `SDO_REPLY_NODE_MASTER`, the own address. -/
def Obligations.SdoReceiveNotifiesTheDecodedDescriptor : Prop :=
  ∀ (s : State) (f : Frame) (own : Byte), s.regs.ready = true → ListenersLawful s → own = s.regs.own.setWidth 8 →
    (f.id.toNat = 0x600 + s.regs.own.toNat →
      decodeFrame s.ctx f = .instr (.sdoReqRx f) ∧
      ∃ t, exec (.sdoReqRx f) s = .next t ∧ NotifiedOnce .sdoReqRx (.descriptor (sdoDecode f own)) s t) ∧
    (f.id.toNat = 0x580 + s.regs.own.toNat → s.regs.role = .slave →
      decodeFrame s.ctx f = .instr (.sdoRpyRxOwn f) ∧
      ∃ t, exec (.sdoRpyRxOwn f) s = .next t ∧ NotifiedOnce .sdoRpyRx (.descriptor (sdoDecode f own)) s t) ∧
    (∀ e ∈ s.regs.filt, f.id.toNat = 0x580 + e.toNat → e ≠ s.regs.own → s.regs.role = .slave →
      decodeFrame s.ctx f = .instr (.sdoRpyRxFlt f) ∧
      ∃ t, exec (.sdoRpyRxFlt f) s = .next t ∧ NotifiedOnce .sdoRpyRx (.descriptor (sdoDecode f own)) s t) ∧
    (0x580 ≤ f.id.toNat → f.id.toNat < 0x600 → s.regs.role = .master →
      decodeFrame s.ctx f = .instr (.sdoRpyRxMst f) ∧
      ∃ t node, exec (.sdoRpyRxMst f) s = .next t ∧ NotifiedOnce .sdoRpyRx (.descriptor (sdoDecode f node)) s t ∧
        (s.params.replyNode = .source → node.toNat = f.id.toNat - 0x580) ∧ (s.params.replyNode = .own → node = own))

/-- On the Listen Filter path the sender cannot be told: two replies from different filter entries with the same bytes have the
same outcome (spec/70_reset_and_hazards.md, section 3; the spec derives it from the `node` rule). -/
def Obligations.FilteredReplyHidesItsSender : Prop :=
  ∀ (s : State) (f g : Frame), selected s.ctx (.sdoRpyRxFlt f) = true → selected s.ctx (.sdoRpyRxFlt g) = true →
    f.data = g.data → exec (.sdoRpyRxFlt f) s = exec (.sdoRpyRxFlt g) s

/-! ## PDO and heartbeat -/

/-- `PDO.SEND` transmits the frame, the payload below `length` and zeros above, exactly for identifiers 0x181 to 0x57F with at most
8 bytes, in either role and every NMT state; otherwise it returns `ST_REJECTED_PARAM` and transmits nothing (spec/43_pdo.md; that no role or state is
checked and the status of a bus error are the spec's decisions D16, D17). -/
def Obligations.PdoSendTransmitsExactlyInRange : Prop :=
  ∀ (s : State) (id length : Nat) (p : Bytes8), s.regs.ready = true →
    (0x181 ≤ id → id ≤ 0x57F → length ≤ 8 →
      ∃ (cid : CanId) (dlc : Fin 9), cid.toNat = id ∧ dlc.val = length ∧
        exec (.pdoSend id length p) s =
          .next (transmitted
            { id := cid, ext := false, rtr := false, dlc := dlc,
              data := ⟨if 1 ≤ length then p.b0 else 0, if 2 ≤ length then p.b1 else 0, if 3 ≤ length then p.b2 else 0,
                if 4 ≤ length then p.b3 else 0, if 5 ≤ length then p.b4 else 0, if 6 ≤ length then p.b5 else 0,
                if 7 ≤ length then p.b6 else 0, if 8 ≤ length then p.b7 else 0⟩ } s)) ∧
    (id < 0x181 ∨ 0x57F < id ∨ 8 < length → exec (.pdoSend id length p) s = .next (answered .rejectedParam s))

/-- R203 and R216: `PDO.RX` and `HB.RX` hand the received frame, every field unchanged, once to every listener of their category,
in every NMT state, and write no register; where the listeners issue nothing, nothing else happens. -/
def Obligations.PdoAndHeartbeatFramesAreForwardedVerbatim : Prop :=
  ∀ (s : State) (f : Frame), s.regs.ready = true → ListenersLawful s →
    (0x17F < f.id.toNat → f.id.toNat < 0x580 →
      decodeFrame s.ctx f = .instr (.pdoRx f) ∧
      ∃ t, exec (.pdoRx f) s = .next t ∧ NotifiedOnce .pdoRx (.frame f) s t) ∧
    (0x700 < f.id.toNat → (s.regs.role = .master ∨ ∃ e ∈ s.regs.filt, f.id.toNat = 0x700 + e.toNat) →
      decodeFrame s.ctx f = .instr (.hbRx f) ∧
      ∃ t, exec (.hbRx f) s = .next t ∧ NotifiedOnce .hbRx (.frame f) s t)

/-- Identifier 0x180 is a PDO when received and is rejected when sent (spec/70_reset_and_hazards.md, section 3; the spec derives
it from the two ranges). -/
def Obligations.Identifier180IsReceiveOnly : Prop :=
  (∀ (s : State) (f : Frame), f.id = 0x180 → decodeFrame s.ctx f = .instr (.pdoRx f)) ∧
  (∀ (s : State) (length : Nat) (p : Bytes8), s.regs.ready = true →
    exec (.pdoSend 0x180 length p) s = .next (answered .rejectedParam s))

/-- The heartbeat codes; the byte of `Reset` is the open parameter, whatever it is (spec/44_heartbeat.md, section 1; the
parameter is the spec's decision D10). -/
def Obligations.HeartbeatCodesOfTheFiveStates : Prop :=
  ∀ b : Byte, hbCode b .bootup = 0x00 ∧ hbCode b .stopped = 0x04 ∧ hbCode b .operational = 0x05 ∧
    hbCode b .preOperational = 0x7F ∧ hbCode b .reset = b

/-- One heartbeat emission: the frame with identifier 0x700 + own, one byte, `ext` and `rtr` 0; on a bus error one
diagnostics line if `debug` is set; no status, no register (spec/44_heartbeat.md, section 1). -/
def Obligations.HeartbeatEmissionTransmitsOneFrame : Prop :=
  ∀ s : State, ∃ id : CanId, id.toNat = 0x700 + s.regs.own.toNat ∧
    hbEmit s =
      { s with
        env := afterTx s.env
        out :=
          { s.out with
            trace := s.out.trace ++
              [.tx { id := id, ext := false, rtr := false, dlc := 1,
                     data := ⟨hbCode s.params.hbResetByte s.regs.nmt, 0, 0, 0, 0, 0, 0, 0⟩ } (txAnswer s.env)]
            diag := s.out.diag ++
              (if txAnswer s.env = .busError ∧ s.regs.debug = true then [.heartbeatTransmitFailed] else []) } }

/-- The timer check: due when at least `hb_interval` time-units have passed since `hb_last`, mod 2^32; then `hb_last` takes
`now`, whatever the transmission answers; else nothing (spec/44_heartbeat.md, section 1; the spec's decision D19). -/
def Obligations.HeartbeatTickEmitsExactlyWhenDue : Prop :=
  ∀ (s : State) (t : Time),
    (s.regs.hbInterval.toNat ≤ (t.toNat + 4294967296 - s.regs.hbLast.toNat) % 4294967296 →
      hbTick t s = hbEmit { s with regs := { s.regs with hbLast := t } }) ∧
    ((t.toNat + 4294967296 - s.regs.hbLast.toNat) % 4294967296 < s.regs.hbInterval.toNat → hbTick t s = s)

/-! ## Receive interrupt and poll -/

/-- `RXIRQ` takes one frame from the transport and dispatches it; with none nothing happens; it always completes if the
listeners are lawful (spec/46_host_ops.md, RXIRQ; the spec's decision D21). -/
def Obligations.RxirqDispatchesTheReceivedFrame : Prop :=
  ∀ s : State, s.regs.ready = true →
    (∀ f rest, s.env.rxIn = some f :: rest →
      exec .rxirq s = dispatch f { s with env := { s.env with rxIn := rest } }) ∧
    (∀ rest, s.env.rxIn = none :: rest → exec .rxirq s = .next { s with env := { s.env with rxIn := rest } }) ∧
    (s.env.rxIn = [] → exec .rxirq s = .next s) ∧
    (ListenersLawful s → ∃ t, exec .rxirq s = .next t ∧ t.regs = { s.regs with nmt := t.regs.nmt })

/-- `POLL` drains at most one frame, only if `Pending()`, and then checks the timer; it always completes if the listeners are
lawful (spec/46_host_ops.md, POLL; one frame and this order are the spec's decision D20). -/
def Obligations.PollDrainsThenChecksTheTimer : Prop :=
  ∀ s : State, s.regs.ready = true → ListenersLawful s →
    ∃ u, exec .poll s = .next (hbTick (now u).1 (now u).2) ∧
      u.regs = { s.regs with nmt := u.regs.nmt } ∧ u.env.nowIn = s.env.nowIn ∧
      ((pending s).1 = false → u = (pending s).2) ∧
      ((pending s).1 = true → (rx (pending s).2).1 = none → u = (rx (pending s).2).2) ∧
      (∀ f, (pending s).1 = true → (rx (pending s).2).1 = some f → dispatch f (rx (pending s).2).2 = .next u)

/-- The heartbeat of a `POLL` already carries the state of the addressed or broadcast NMT command that `POLL` drained (spec/44_heartbeat.md, section 1;
the spec derives it from the order inside `POLL`). -/
def Obligations.DrainedCommandShowsInTheSamePollsHeartbeat : Prop :=
  ∀ (s : State) (f : Frame) (ps : List Bool) (rest : List (Option Frame)) (t : Time) (ts : List Time) (new : NmtState),
    s.regs.ready = true → ListenersLawful s → s.env.pendingIn = true :: ps → s.env.rxIn = some f :: rest →
    s.env.nowIn = t :: ts → f.id = 0 → (f.data.b1 = s.regs.own.setWidth 8 ∨ f.data.b1 = 0) →
    nmtTarget f.data.b0 = some new →
    s.regs.hbInterval.toNat ≤ (t - s.regs.hbLast).toNat →
    ∃ u id r, exec .poll s = .next u ∧ u.regs.nmt = new ∧ u.regs.hbLast = t ∧ id.toNat = 0x700 + s.regs.own.toNat ∧
      u.out.sent.getLast? = some
        ({ id := id, ext := false, rtr := false, dlc := 1,
           data := ⟨hbCode s.params.hbResetByte new, 0, 0, 0, 0, 0, 0, 0⟩ }, r)

/-! ## The Dispatcher -/

/-- The Dispatcher, evaluated as its seven predicates in order, does for every frame exactly what the operation the table decodes
the frame to does, and nothing for a frame that decodes to none (spec/40_dispatcher.md, sections 1 and 3). -/
def Obligations.DispatchExecutesTheDecodedOperation : Prop :=
  ∀ (s : State) (f : Frame), s.regs.ready = true → s.regs.filt.Nodup →
    dispatch f s =
      match decodeFrame s.ctx f with
      | .instr i => exec i s
      | .rejected _ => .next s

/-- The complete classification of received frames, for every engine (spec/40_dispatcher.md, section 3, its last table, which
the spec derives from the predicates; spec/30_encoding.md, section 4). -/
def Obligations.FrameClassificationTable : Prop :=
  ∀ (c : DecodeCtx) (f : Frame) (id : Nat), id = f.id.toNat →
    decodeFrame c f =
      if id = 0 then
        (if f.data.b1 = c.own.setWidth 8 ∨ f.data.b1 = 0 then
          (if f.data.b0 = 0x01 then .instr (.nmtStart f) else if f.data.b0 = 0x02 then .instr (.nmtStop f)
           else if f.data.b0 = 0x80 then .instr (.nmtPreop f) else if f.data.b0 = 0x81 then .instr (.nmtReset f)
           else .instr (.nmtIgn f))
         else .instr (.nmtIgn f))
      else if id ≤ 0x17F then .instr (.unparsed f)
      else if id ≤ 0x57F then .instr (.pdoRx f)
      else if id ≤ 0x5FF then
        (if c.role = .master then .instr (.sdoRpyRxMst f)
         else if id = 0x580 + c.own.toNat then .instr (.sdoRpyRxOwn f)
         else if (∃ e ∈ c.filt, 0x580 + e.toNat = id) then .instr (.sdoRpyRxFlt f) else .instr (.unparsed f))
      else if id ≤ 0x6FF then (if id = 0x600 + c.own.toNat then .instr (.sdoReqRx f) else .instr (.unparsed f))
      else if id = 0x700 then .instr (.unparsed f)
      else if c.role = .master ∨ (∃ e ∈ c.filt, 0x700 + e.toNat = id) then .instr (.hbRx f)
      else .rejected .matchedDropped

/-- Disjointness. At most one row of the table selects a frame, in every engine, so the decoder never meets an ambiguous one. At most
one of the Dispatcher's seven predicates holds for any state and frame: of any two, one hands the dispatcher's local state on as
it is (a predicate that holds sets `matched`). Predicate 6 hits at most one entry of a filter with distinct entries: it does
nothing, or what one hit does (spec/40_dispatcher.md, section 3; the spec derives it). -/
def Obligations.AtMostOnePredicateHolds : Prop :=
  (∀ (c : DecodeCtx) (f : Frame), (classify c f).length ≤ 1 ∧ decodeFrame c f ≠ .rejected .ambiguous) ∧
  (∀ (s : State) (f : Frame),
    [predicate1 f, predicate2 f, predicate3 f, predicate4 f, predicate5 f, predicate6 f, predicate7 f].Pairwise fun p q =>
      p ⟨false, s⟩ = .next ⟨false, s⟩ ∨ q ⟨false, s⟩ = .next ⟨false, s⟩) ∧
  (∀ (s : State) (f : Frame), s.regs.filt.Nodup →
    predicate6 f ⟨false, s⟩ = .next ⟨false, s⟩ ∨
    predicate6 f ⟨false, s⟩ = handled (sdoRx .sdoRpyRx f (ownNode s) s))

/-- What the Dispatcher does not look at: `ext`, `rtr` and `dlc` take no part in which operation a frame decodes to
(spec/40_dispatcher.md, section 3). -/
def Obligations.DecodeIgnoresFlagsAndDataLength : Prop :=
  ∀ (c : DecodeCtx) (f : Frame) (ext rtr : Bool) (dlc : Fin 9) (mk : Frame → Instr),
    mk ∈ [Instr.nmtStart, .nmtStop, .nmtPreop, .nmtReset, .nmtIgn, .pdoRx, .hbRx, .sdoReqRx, .sdoRpyRxOwn, .sdoRpyRxFlt,
      .sdoRpyRxMst, .unparsed] →
    (decodeFrame c { f with ext := ext, rtr := rtr, dlc := dlc } = .instr (mk { f with ext := ext, rtr := rtr, dlc := dlc }) ↔
      decodeFrame c f = .instr (mk f))

/-- Every operation a frame decodes to is a row whose pattern of spec/opcode_table.json the frame's 19-bit vector matches, and the
patterns of `PDO.RX` and `HB.RX` cover exactly their identifier ranges (spec/30_encoding.md, section 4). -/
def Obligations.DecodedRowMatchesItsTablePattern : Prop :=
  (∀ (c : DecodeCtx) (f : Frame) (i : Instr), decodeFrame c f = .instr i → matchesRow f.vector i = true) ∧
  (∀ f : Frame, (matchesRow f.vector (.pdoRx f) = true ↔ 0x180 ≤ f.id.toNat ∧ f.id.toNat ≤ 0x57F) ∧
    (matchesRow f.vector (.hbRx f) = true ↔ 0x701 ≤ f.id.toNat))

/-- R129: exactly the listed identifiers are unparsed, per role; an unparsed frame produces one diagnostics line if `debug` is set
and nothing else. -/
def Obligations.UnparsedFrameIsOnlyReported : Prop :=
  ∀ (s : State) (f : Frame) (id : Nat), s.regs.ready = true → id = f.id.toNat →
    (decodeFrame s.ctx f = .instr (.unparsed f) ↔
      (1 ≤ id ∧ id ≤ 0x17F) ∨ (0x600 ≤ id ∧ id ≤ 0x6FF ∧ id ≠ 0x600 + s.regs.own.toNat) ∨ id = 0x700 ∨
        (s.regs.role = .slave ∧ 0x580 ≤ id ∧ id ≤ 0x5FF ∧ id ≠ 0x580 + s.regs.own.toNat ∧
          ∀ e ∈ s.regs.filt, id ≠ 0x580 + e.toNat)) ∧
    (decodeFrame s.ctx f = .instr (.unparsed f) →
      exec (.unparsed f) s =
        .next { s with out := { s.out with diag := s.out.diag ++ (if s.regs.debug = true then [.unparsedFrame] else []) } } ∧
      dispatch f s = exec (.unparsed f) s)

/-- `DISPATCH` accepts every frame: with lawful listeners it completes, and the only register it can change is `nmt`; with
listeners that issue nothing it transmits nothing and returns no status (spec/40_dispatcher.md, section 1). A heartbeat a slave
does not subscribe to is matched and executes no operation: nothing changes, and it is not reported either, also with `debug` set
(spec/30_encoding.md, section 5; that it counts as matched is the spec's decision D26). -/
def Obligations.DispatchAcceptsEveryFrame : Prop :=
  ∀ (s : State) (f : Frame),
    (ListenersLawful s → ∃ t, dispatch f s = .next t ∧ t.regs = { s.regs with nmt := t.regs.nmt } ∧ t.params = s.params ∧
      (ListenersQuiet s → t.out.sent = s.out.sent ∧ t.out.statuses = s.out.statuses)) ∧
    (0x700 < f.id.toNat → s.regs.role = .slave → (∀ e ∈ s.regs.filt, f.id.toNat ≠ 0x700 + e.toNat) →
      decodeFrame s.ctx f = .rejected .matchedDropped ∧ dispatch f s = .next s)

/-- A master's Listen Filter changes nothing inside the block (spec/44_heartbeat.md, section 2; the spec derives it from the
predicates). -/
def Obligations.MasterDispatchIgnoresTheListenFilter : Prop :=
  ∀ (s : State) (f : Frame) (l : List Addr), s.regs.role = .master →
    dispatch f { s with regs := { s.regs with filt := l } } =
      andThen (dispatch f s) fun t => .next { t with regs := { t.regs with filt := l } }

/-! ## Listeners -/

/-- `Notify` invokes every filled slot once, in slot order, with the same payload; with no listener registered nothing happens;
with listeners that issue nothing the history gains exactly these entries and nothing else changes
(spec/45_listener_registry.md, `Notify`). -/
def Obligations.NotifyInvokesEverySlotInOrder : Prop :=
  ∀ (s : State) (cat : Category) (p : Payload),
    (ListenersLawful s → ∃ t, notify cat p s = .next t ∧ NotifiedOnce cat p s t) ∧
    (s.regs.lst.slots cat = [] → notify cat p s = .next s) ∧
    (s.env.reactIn = [] → notify cat p s =
      .next { s with out := { s.out with trace := s.out.trace ++ eventObs cat p 0 (s.regs.lst.slots cat) } })

/-- A send command a listener issues runs at that point: its entries stand after its own invocation and before the next listener's
(spec/45_listener_registry.md, what a listener may do). -/
def Obligations.NestedSendPrecedesTheNextListener : Prop :=
  ∀ (s u : State) (cat : Category) (p : Payload) (h0 h1 : Handle) (i : Instr), s.regs.ready = true →
    s.regs.lst.slots cat = [h0, h1] → s.env.reactIn = [.returns [i]] → isSend i = true →
    exec i
      { s with
        env := { s.env with reactIn := [] }
        out := { s.out with trace := s.out.trace ++ [.ev cat 0 h0 p] } } = .next u →
    notify cat p s = .next { u with out := { u.out with trace := u.out.trace ++ [.ev cat 1 h1 p] } }

/-- An operation other than the four send commands, issued from inside a listener, has no meaning: the execution is refused
(spec/70_reset_and_hazards.md, section 3; the spec's decision D36). -/
def Obligations.ReentrantListenerIsRefused : Prop :=
  ∀ (s : State) (cat : Category) (p : Payload) (h : Handle) (hs : List Handle) (i : Instr) (is : List Instr)
    (rest : List Reaction), s.regs.lst.slots cat = h :: hs → s.env.reactIn = .returns (i :: is) :: rest →
    isSend i = false → notify cat p s = .refused .reentrancy

/-- A listener that fails or does not return leaves the notifying operation stuck (spec/45_listener_registry.md, a failing
listener). -/
def Obligations.ListenerThatDoesNotReturnIsStuck : Prop :=
  ∀ (s : State) (cat : Category) (p : Payload) (h : Handle) (hs : List Handle) (rest : List Reaction),
    s.regs.lst.slots cat = h :: hs → s.env.reactIn = .neverReturns :: rest → notify cat p s = .fault .listenerStuck

/-- No send command, no registration, no `INIT`, no unparsed frame, no ignored NMT frame and no timer check produces an event of
its own (spec/45_listener_registry.md, which events exist; the spec derives the list). -/
def Obligations.OnlyTheListedOperationsProduceEvents : Prop :=
  (∀ (s t : State) (i : Instr), exec i s = .next t →
    (isSend i = true ∨ (∃ a r h d, i = .init a r h d) ∨ (∃ c h, i = .listenerReg c h) ∨ (∃ a, i = .filterAdd a) ∨
      (∃ f, i = .unparsed f) ∨ (∃ f, i = .nmtIgn f)) → t.out.events = s.out.events) ∧
  (∀ (s : State) (t : Time), (hbTick t s).out.events = s.out.events)

/-! ## Whole-machine rules -/

/-- The registers `own`, `role`, `hb_interval`, `debug` are read-only after `INIT`: only an `INIT` changes them; the parameters
never change (spec/10_state.md, section 3). -/
def Obligations.ConfigurationIsReadOnlyAfterInit : Prop :=
  ∀ (s t : State) (i : Instr), exec i s = .next t → (∀ a r h d, i ≠ .init a r h d) →
    t.regs.own = s.regs.own ∧ t.regs.role = s.regs.role ∧ t.regs.hbInterval = s.regs.hbInterval ∧
    t.regs.debug = s.regs.debug ∧ t.regs.ready = s.regs.ready ∧ t.params = s.params

/-- Every register's writers beside `INIT`: none for `own`, `role`, `hb_interval`, `debug`; for `nmt` the four NMT commands, as their own
operations or drained by `RXIRQ` or `POLL`, and the one-shot; `boot_done` only the one-shot, `hb_last` only `POLL`, the Listen
Filter only `FILTER.ADD`, the Listener table only `LISTENER.REG` (spec/10_state.md, sections 3 and 4). -/
def Obligations.EveryRegisterHasOnlyItsListedWriters : Prop :=
  ∀ (s t : State) (i : Instr), exec i s = .next t → (∀ a r h d, i ≠ .init a r h d) →
    t.regs.own = s.regs.own ∧ t.regs.role = s.regs.role ∧ t.regs.hbInterval = s.regs.hbInterval ∧
    t.regs.debug = s.regs.debug ∧
    ((∀ f, i ≠ .nmtStart f ∧ i ≠ .nmtStop f ∧ i ≠ .nmtPreop f ∧ i ≠ .nmtReset f) → i ≠ .nmtBootdone → i ≠ .rxirq → i ≠ .poll →
      t.regs.nmt = s.regs.nmt) ∧
    (i ≠ .nmtBootdone → t.regs.bootDone = s.regs.bootDone) ∧ (i ≠ .poll → t.regs.hbLast = s.regs.hbLast) ∧
    ((∀ a, i ≠ .filterAdd a) → t.regs.filt = s.regs.filt) ∧ ((∀ c h, i ≠ .listenerReg c h) → t.regs.lst = s.regs.lst)

/-- R28: the initial value of `nmt` per role, and the complete list of its writers: `INIT`, an addressed or broadcast frame with
one of the four command bytes (as its own operation, or drained by `RXIRQ` or `POLL`), and the one-shot; nothing else changes
it. -/
def Obligations.NmtStateHasOnlyItsListedWriters : Prop :=
  (∀ (s : State) (a : Nat) (hb : Time) (dbg : Bool), 1 ≤ a → a ≤ 127 →
    (∃ t, exec (.init a .slave hb dbg) s = .next t ∧ t.regs.nmt = .bootup) ∧
    (∃ t, exec (.init a .master hb dbg) s = .next t ∧ t.regs.nmt = .operational)) ∧
  (∀ (s t : State) (i : Instr), exec i s = .next t → t.regs.nmt ≠ s.regs.nmt →
    (∃ a r h d, i = .init a r h d) ∨ (i = .nmtBootdone ∧ t.regs.nmt = .preOperational) ∨
    (∃ f : Frame, f.id = 0 ∧ (f.data.b1 = s.regs.own.setWidth 8 ∨ f.data.b1 = 0) ∧
      ((f.data.b0 = 0x01 ∧ t.regs.nmt = .operational) ∨ (f.data.b0 = 0x02 ∧ t.regs.nmt = .stopped) ∨
        (f.data.b0 = 0x80 ∧ t.regs.nmt = .preOperational) ∨ (f.data.b0 = 0x81 ∧ t.regs.nmt = .reset)) ∧
      (i = .nmtStart f ∨ i = .nmtStop f ∨ i = .nmtPreop f ∨ i = .nmtReset f ∨
        ((i = .rxirq ∨ i = .poll) ∧ s.env.rxIn.head? = some (some f)))))

/-- Only `INIT` brings `nmt` back to `Bootup` (spec/41_nmt.md, section 3, `Reset` and the return to `Bootup`). -/
def Obligations.OnlyInitReturnsToBootup : Prop :=
  ∀ (s t : State) (i : Instr), exec i s = .next t → t.regs.nmt = .bootup → s.regs.nmt ≠ .bootup →
    ∃ a h d, i = .init a .slave h d

/-- A slave's engine never emits an NMT command: whatever a slave does, also from its listeners, no frame it hands to `Tx` has
identifier 0 (spec/10_state.md, section 6; said of each operation, log entry 9). -/
def Obligations.SlaveNeverEmitsAnNmtCommand : Prop :=
  ∀ (s t : State) (i : Instr), s.regs.role = .slave → exec i s = .next t →
    ∃ new, t.out.trace = s.out.trace ++ new ∧ ∀ f r, Obs.tx f r ∈ new → f.id ≠ 0

/-- R261: a transmission the transport answers with `busError` is recorded once and abandoned: a send command then returns
`ST_BUS_ERROR`, a heartbeat emission returns nothing; one diagnostics line if `debug` is set; no register changes, and nothing is
sent again. (A send that was rejected before transmission returns its rejection instead.) -/
def Obligations.TransportFailureIsReportedOnceAndAbandoned : Prop :=
  ∀ s : State, s.regs.ready = true → txAnswer s.env = .busError →
    (∀ i, isSend i = true → ∃ t, exec i s = .next t ∧ t.regs = s.regs ∧
      (t = answered .rejectedParam s ∨ t = answered .rejectedRole s ∨
        ∃ f, t.out.trace = s.out.trace ++ [.tx f .busError, .status .busError] ∧
          t.out.diag = s.out.diag ++ (if s.regs.debug = true then [.transmitFailed] else []))) ∧
    ((hbEmit s).regs = s.regs ∧ ∃ f, (hbEmit s).out.trace = s.out.trace ++ [.tx f .busError] ∧
      (hbEmit s).out.diag = s.out.diag ++ (if s.regs.debug = true then [.heartbeatTransmitFailed] else []))

/-- The NMT state enables or disables nothing: for every received PDO, SDO frame, heartbeat, unparsed or ignored frame, every send
and every registration, the outcome is the same in every NMT state, with that state kept (spec/40_dispatcher.md, section 3; the spec's
decision D16). -/
def Obligations.NmtStateGatesNothing : Prop :=
  ∀ (s : State) (n : NmtState) (i : Instr),
    (isSend i = true ∨ (∃ f, i = .pdoRx f ∨ i = .hbRx f ∨ i = .sdoReqRx f ∨ i = .sdoRpyRxOwn f ∨ i = .sdoRpyRxFlt f ∨
      i = .sdoRpyRxMst f ∨ i = .unparsed f ∨ i = .nmtIgn f) ∨ (∃ c h, i = .listenerReg c h) ∨ (∃ a, i = .filterAdd a)) →
    exec i (s.setNmt n) = andThen (exec i s) fun t => .next (t.setNmt n)

/-- R31: the `debug` flag gates diagnostics and nothing else. With it clear no operation produces a line; and for every operation
but `INIT`, what it does is the same with the flag cleared, up to the flag and the diagnostics history. -/
def Obligations.DebugFlagIsDecorative : Prop :=
  ∀ (s : State) (i : Instr),
    (s.regs.debug = false → ∀ t, exec i s = .next t → t.out.diag = s.out.diag) ∧
    ((∀ a r h d, i ≠ .init a r h d) →
      (andThen (exec i s) fun t => .next (undebugged t)) = andThen (exec i (undebugged s)) fun t => .next (undebugged t))

/-- The histories only grow, also over a later `INIT` (spec/90_conflicts.md, C12). -/
def Obligations.HistoriesOnlyGrow : Prop :=
  ∀ s t : State, step s = .next t →
    s.out.trace <+: t.out.trace ∧ s.out.diag <+: t.out.diag ∧ s.out.xcfg <+: t.out.xcfg

/-- Every operation runs to completion wherever its precondition holds, with lawful listeners, and leaves the remaining listeners
lawful: nothing a frame or a host command holds stops the block (spec/30_encoding.md, section 5; spec/10_state.md, section 2). -/
def Obligations.EveryPermittedOperationCompletes : Prop :=
  ∀ (s : State) (i : Instr), permitted s i = true → ListenersLawful s →
    ∃ t, exec i s = .next t ∧ ListenersLawful t

/-- The invariant holds after reset (spec/10_state.md, section 6). -/
def Obligations.InvariantHoldsAfterReset : Prop := Inv State.reset

/-- Every step keeps the invariant of spec/10_state.md, section 6: the own address in 1 to 127, the Listen Filter's and the Listener
table's bounds and distinctness, and the form of every transmitted frame and every event. -/
def Obligations.EveryStepKeepsTheInvariant : Prop :=
  ∀ s t : State, Inv s → step s = .next t → Inv t

/-! ## Encoding and the step -/

/-- Decoding an encoded well-formed operation gives it back, with every operand: for every operation of the table, in every engine
in which its frame selects it (the record layouts are the model's, log entry 1). -/
def Obligations.DecodeOfEncodeIsTheOperation : Prop :=
  ∀ (c : DecodeCtx) (i : Instr), i.wf = true → selected c i = true → decode c i.port (encode i) = .instr i

/-- A few records written out from the frames of the spec and the selectors of R92 decode to their operations (the operand layout
is the model's, log entry 1). -/
def Obligations.SampleRecordsDecode : Prop :=
  (∀ c : DecodeCtx, decode c .rx [0x01, 0x00, 0x00, 2, 0x00, 0, 0, 0, 0, 0, 0] =
    .instr (.nmtStart ⟨0, false, false, 2, ⟨0x01, 0x00, 0, 0, 0, 0, 0, 0⟩⟩)) ∧
  decode ⟨5, .slave, []⟩ .rx [0x2B, 0x05, 0x06, 8, 0x00, 0x20, 0x00, 0x34, 0x12, 0x00, 0x00] =
    .instr (.sdoReqRx ⟨0x605, false, false, 8, ⟨0x2B, 0x00, 0x20, 0x00, 0x34, 0x12, 0x00, 0x00⟩⟩) ∧
  (∀ c : DecodeCtx, decode c .cmd [2, 0, 0, 0, 0x8A, 0, 0, 0, 0, 0, 0, 0, 0, 0, 0, 0, 0, 0, 0, 0] =
    .instr (.filterAdd 0x8A)) ∧
  (∀ c : DecodeCtx, decode c .cmd [7, 0, 0, 0, 0, 0, 0, 0, 0, 0, 0, 0, 0, 0, 0, 0, 0, 0, 0, 0] = .instr .poll)

/-- A step runs the operation that the record at the head of port `cmd` decodes to, on the state without that record; a record that
decodes to none is refused by name; with none issued the step changes nothing (the model's scheduling, log entry 7). -/
def Obligations.StepRunsTheIssuedOperation : Prop :=
  ∀ s : State,
    (∀ record rest i, s.env.cmd = record :: rest → decodeHost record = .instr i →
      step s = exec i { s with env := { s.env with cmd := rest } }) ∧
    (∀ record rest why, s.env.cmd = record :: rest → decodeHost record = .rejected why →
      step s = .refused (.badRecord why)) ∧
    (s.env.cmd = [] → step s = .next s)

/-- The receive interrupt issued next with a frame waiting: the step runs the operation the frame decodes to in this engine, on the
state without the interrupt's record and without the frame. -/
def Obligations.StepRunsTheArrivedFramesOperation : Prop :=
  ∀ (s : State) (f : Frame) (i : Instr), s.regs.ready = true → s.regs.filt.Nodup → decodeFrame s.ctx f = .instr i →
    step (s.arrive f) = exec i s

/-- A word of the opcode table placed for the next step after reset runs exactly the operation the decoder reads from it
(log entry 8). -/
def Obligations.TableWordRunsFirstAfterReset : Prop :=
  ∀ (nbits w : Nat) (i : Instr), decodeTableWord nbits w = some i →
    step (State.reset.withFetchWord nbits w) = exec i State.reset
end

