-- ==== Sys2Proof/Laws/State.lean ====
section
/-! SUPPORT. One lemma for each field and each update of the state, and for each view of the histories: true by unfolding the
update once, so that no later proof unfolds a record update. -/

namespace Sys2Proof.Machine

/-! ## `State.setNmt` -/

@[simp] theorem setNmt_own (n : NmtState) (s : State) : (s.setNmt n).regs.own = s.regs.own := rfl
@[simp] theorem setNmt_role (n : NmtState) (s : State) : (s.setNmt n).regs.role = s.regs.role := rfl
@[simp] theorem setNmt_nmt (n : NmtState) (s : State) : (s.setNmt n).regs.nmt = n := rfl
@[simp] theorem setNmt_bootDone (n : NmtState) (s : State) : (s.setNmt n).regs.bootDone = s.regs.bootDone := rfl
@[simp] theorem setNmt_hbInterval (n : NmtState) (s : State) : (s.setNmt n).regs.hbInterval = s.regs.hbInterval := rfl
@[simp] theorem setNmt_hbLast (n : NmtState) (s : State) : (s.setNmt n).regs.hbLast = s.regs.hbLast := rfl
@[simp] theorem setNmt_debug (n : NmtState) (s : State) : (s.setNmt n).regs.debug = s.regs.debug := rfl
@[simp] theorem setNmt_filt (n : NmtState) (s : State) : (s.setNmt n).regs.filt = s.regs.filt := rfl
@[simp] theorem setNmt_lst (n : NmtState) (s : State) : (s.setNmt n).regs.lst = s.regs.lst := rfl
@[simp] theorem setNmt_ready (n : NmtState) (s : State) : (s.setNmt n).regs.ready = s.regs.ready := rfl
@[simp] theorem setNmt_params (n : NmtState) (s : State) : (s.setNmt n).params = s.params := rfl
@[simp] theorem setNmt_env (n : NmtState) (s : State) : (s.setNmt n).env = s.env := rfl
@[simp] theorem setNmt_out (n : NmtState) (s : State) : (s.setNmt n).out = s.out := rfl
@[simp] theorem setNmt_ctx (n : NmtState) (s : State) : (s.setNmt n).ctx = s.ctx := rfl

/-! ## `State.setBootDone` -/

@[simp] theorem setBootDone_own (s : State) : s.setBootDone.regs.own = s.regs.own := rfl
@[simp] theorem setBootDone_role (s : State) : s.setBootDone.regs.role = s.regs.role := rfl
@[simp] theorem setBootDone_nmt (s : State) : s.setBootDone.regs.nmt = s.regs.nmt := rfl
@[simp] theorem setBootDone_bootDone (s : State) : s.setBootDone.regs.bootDone = true := rfl
@[simp] theorem setBootDone_hbInterval (s : State) : s.setBootDone.regs.hbInterval = s.regs.hbInterval := rfl
@[simp] theorem setBootDone_hbLast (s : State) : s.setBootDone.regs.hbLast = s.regs.hbLast := rfl
@[simp] theorem setBootDone_debug (s : State) : s.setBootDone.regs.debug = s.regs.debug := rfl
@[simp] theorem setBootDone_filt (s : State) : s.setBootDone.regs.filt = s.regs.filt := rfl
@[simp] theorem setBootDone_lst (s : State) : s.setBootDone.regs.lst = s.regs.lst := rfl
@[simp] theorem setBootDone_ready (s : State) : s.setBootDone.regs.ready = s.regs.ready := rfl
@[simp] theorem setBootDone_params (s : State) : s.setBootDone.params = s.params := rfl
@[simp] theorem setBootDone_env (s : State) : s.setBootDone.env = s.env := rfl
@[simp] theorem setBootDone_out (s : State) : s.setBootDone.out = s.out := rfl
@[simp] theorem setBootDone_ctx (s : State) : s.setBootDone.ctx = s.ctx := rfl

/-! ## `State.setHbLast` -/

@[simp] theorem setHbLast_own (t : Time) (s : State) : (s.setHbLast t).regs.own = s.regs.own := rfl
@[simp] theorem setHbLast_role (t : Time) (s : State) : (s.setHbLast t).regs.role = s.regs.role := rfl
@[simp] theorem setHbLast_nmt (t : Time) (s : State) : (s.setHbLast t).regs.nmt = s.regs.nmt := rfl
@[simp] theorem setHbLast_bootDone (t : Time) (s : State) : (s.setHbLast t).regs.bootDone = s.regs.bootDone := rfl
@[simp] theorem setHbLast_hbInterval (t : Time) (s : State) : (s.setHbLast t).regs.hbInterval = s.regs.hbInterval := rfl
@[simp] theorem setHbLast_hbLast (t : Time) (s : State) : (s.setHbLast t).regs.hbLast = t := rfl
@[simp] theorem setHbLast_debug (t : Time) (s : State) : (s.setHbLast t).regs.debug = s.regs.debug := rfl
@[simp] theorem setHbLast_filt (t : Time) (s : State) : (s.setHbLast t).regs.filt = s.regs.filt := rfl
@[simp] theorem setHbLast_lst (t : Time) (s : State) : (s.setHbLast t).regs.lst = s.regs.lst := rfl
@[simp] theorem setHbLast_ready (t : Time) (s : State) : (s.setHbLast t).regs.ready = s.regs.ready := rfl
@[simp] theorem setHbLast_params (t : Time) (s : State) : (s.setHbLast t).params = s.params := rfl
@[simp] theorem setHbLast_env (t : Time) (s : State) : (s.setHbLast t).env = s.env := rfl
@[simp] theorem setHbLast_out (t : Time) (s : State) : (s.setHbLast t).out = s.out := rfl
@[simp] theorem setHbLast_ctx (t : Time) (s : State) : (s.setHbLast t).ctx = s.ctx := rfl

/-! ## `State.emit` -/

@[simp] theorem emit_regs (o : Obs) (s : State) : (s.emit o).regs = s.regs := rfl
@[simp] theorem emit_params (o : Obs) (s : State) : (s.emit o).params = s.params := rfl
@[simp] theorem emit_env (o : Obs) (s : State) : (s.emit o).env = s.env := rfl
@[simp] theorem emit_ctx (o : Obs) (s : State) : (s.emit o).ctx = s.ctx := rfl
@[simp] theorem emit_trace (o : Obs) (s : State) : (s.emit o).out.trace = s.out.trace ++ [o] := rfl
@[simp] theorem emit_diag (o : Obs) (s : State) : (s.emit o).out.diag = s.out.diag := rfl
@[simp] theorem emit_xcfg (o : Obs) (s : State) : (s.emit o).out.xcfg = s.out.xcfg := rfl

/-! ## `State.emitXcfg` -/

@[simp] theorem emitXcfg_regs (cs : List XcfgCall) (s : State) : (s.emitXcfg cs).regs = s.regs := rfl
@[simp] theorem emitXcfg_params (cs : List XcfgCall) (s : State) : (s.emitXcfg cs).params = s.params := rfl
@[simp] theorem emitXcfg_env (cs : List XcfgCall) (s : State) : (s.emitXcfg cs).env = s.env := rfl
@[simp] theorem emitXcfg_ctx (cs : List XcfgCall) (s : State) : (s.emitXcfg cs).ctx = s.ctx := rfl
@[simp] theorem emitXcfg_trace (cs : List XcfgCall) (s : State) : (s.emitXcfg cs).out.trace = s.out.trace := rfl
@[simp] theorem emitXcfg_diag (cs : List XcfgCall) (s : State) : (s.emitXcfg cs).out.diag = s.out.diag := rfl
@[simp] theorem emitXcfg_xcfg (cs : List XcfgCall) (s : State) : (s.emitXcfg cs).out.xcfg = s.out.xcfg ++ cs := rfl

/-! ## `State.diagIf` -/

@[simp] theorem diagIf_regs (b : Bool) (l : DiagLine) (s : State) : (s.diagIf b l).regs = s.regs := rfl
@[simp] theorem diagIf_params (b : Bool) (l : DiagLine) (s : State) : (s.diagIf b l).params = s.params := rfl
@[simp] theorem diagIf_env (b : Bool) (l : DiagLine) (s : State) : (s.diagIf b l).env = s.env := rfl
@[simp] theorem diagIf_ctx (b : Bool) (l : DiagLine) (s : State) : (s.diagIf b l).ctx = s.ctx := rfl
@[simp] theorem diagIf_trace (b : Bool) (l : DiagLine) (s : State) : (s.diagIf b l).out.trace = s.out.trace := rfl
@[simp] theorem diagIf_diag (b : Bool) (l : DiagLine) (s : State) : (s.diagIf b l).out.diag = s.out.diag ++ diagLines s.regs.debug b l := rfl
@[simp] theorem diagIf_xcfg (b : Bool) (l : DiagLine) (s : State) : (s.diagIf b l).out.xcfg = s.out.xcfg := rfl

/-! ## `State.withCmd` -/

@[simp] theorem withCmd_regs (rs : List (List Byte)) (s : State) : (s.withCmd rs).regs = s.regs := rfl
@[simp] theorem withCmd_params (rs : List (List Byte)) (s : State) : (s.withCmd rs).params = s.params := rfl
@[simp] theorem withCmd_out (rs : List (List Byte)) (s : State) : (s.withCmd rs).out = s.out := rfl
@[simp] theorem withCmd_ctx (rs : List (List Byte)) (s : State) : (s.withCmd rs).ctx = s.ctx := rfl
@[simp] theorem withCmd_cmd (rs : List (List Byte)) (s : State) : (s.withCmd rs).env.cmd = rs := rfl
@[simp] theorem withCmd_pendingIn (rs : List (List Byte)) (s : State) : (s.withCmd rs).env.pendingIn = s.env.pendingIn := rfl
@[simp] theorem withCmd_rxIn (rs : List (List Byte)) (s : State) : (s.withCmd rs).env.rxIn = s.env.rxIn := rfl
@[simp] theorem withCmd_txIn (rs : List (List Byte)) (s : State) : (s.withCmd rs).env.txIn = s.env.txIn := rfl
@[simp] theorem withCmd_nowIn (rs : List (List Byte)) (s : State) : (s.withCmd rs).env.nowIn = s.env.nowIn := rfl
@[simp] theorem withCmd_reactIn (rs : List (List Byte)) (s : State) : (s.withCmd rs).env.reactIn = s.env.reactIn := rfl
@[simp] theorem withCmd_draws (rs : List (List Byte)) (s : State) : (s.withCmd rs).env.draws = s.env.draws := rfl

/-! ## Histories by port -/

theorem events_of_trace_append {o o' : Out} {l : List Obs} (h : o'.trace = o.trace ++ l) :
    o'.events = o.events ++ Out.events ⟨l, [], []⟩ := by simp [Out.events, h]

theorem sent_of_trace_append {o o' : Out} {l : List Obs} (h : o'.trace = o.trace ++ l) :
    o'.sent = o.sent ++ Out.sent ⟨l, [], []⟩ := by simp [Out.sent, h]

theorem statuses_of_trace_append {o o' : Out} {l : List Obs} (h : o'.trace = o.trace ++ l) :
    o'.statuses = o.statuses ++ Out.statuses ⟨l, [], []⟩ := by simp [Out.statuses, h]

theorem events_congr {o o' : Out} (h : o'.trace = o.trace) : o'.events = o.events := by simp [Out.events, h]

theorem sent_congr {o o' : Out} (h : o'.trace = o.trace) : o'.sent = o.sent := by simp [Out.sent, h]

@[simp] theorem emitXcfg_events (cs : List XcfgCall) (s : State) : (s.emitXcfg cs).out.events = s.out.events := rfl
@[simp] theorem emitXcfg_sent (cs : List XcfgCall) (s : State) : (s.emitXcfg cs).out.sent = s.out.sent := rfl
@[simp] theorem diagIf_events (b : Bool) (l : DiagLine) (s : State) : (s.diagIf b l).out.events = s.out.events := rfl
@[simp] theorem diagIf_sent (b : Bool) (l : DiagLine) (s : State) : (s.diagIf b l).out.sent = s.out.sent := rfl
@[simp] theorem diagIf_statuses (b : Bool) (l : DiagLine) (s : State) : (s.diagIf b l).out.statuses = s.out.statuses := rfl

@[simp] theorem emit_tx_events (f : Frame) (r : TxResult) (s : State) : (s.emit (.tx f r)).out.events = s.out.events := by
  simp [Out.events]
@[simp] theorem emit_status_events (st : Status) (s : State) : (s.emit (.status st)).out.events = s.out.events := by
  simp [Out.events]
@[simp] theorem emit_ev_events (c : Category) (i : Nat) (h : Handle) (p : Payload) (s : State) :
    (s.emit (.ev c i h p)).out.events = s.out.events ++ [⟨c, i, h, p⟩] := by simp [Out.events]
@[simp] theorem emit_tx_sent (f : Frame) (r : TxResult) (s : State) : (s.emit (.tx f r)).out.sent = s.out.sent ++ [(f, r)] := by
  simp [Out.sent]
@[simp] theorem emit_status_sent (st : Status) (s : State) : (s.emit (.status st)).out.sent = s.out.sent := by
  simp [Out.sent]
@[simp] theorem emit_ev_sent (c : Category) (i : Nat) (h : Handle) (p : Payload) (s : State) :
    (s.emit (.ev c i h p)).out.sent = s.out.sent := by simp [Out.sent]
@[simp] theorem emit_tx_statuses (f : Frame) (r : TxResult) (s : State) :
    (s.emit (.tx f r)).out.statuses = s.out.statuses := by simp [Out.statuses]
@[simp] theorem emit_status_statuses (st : Status) (s : State) :
    (s.emit (.status st)).out.statuses = s.out.statuses ++ [st] := by simp [Out.statuses]
@[simp] theorem emit_ev_statuses (c : Category) (i : Nat) (h : Handle) (p : Payload) (s : State) :
    (s.emit (.ev c i h p)).out.statuses = s.out.statuses := by simp [Out.statuses]

@[simp] theorem slots_empty (c : Category) : ListenerTable.empty.slots c = [] := by cases c <;> rfl

@[simp] theorem append_slots_self (t : ListenerTable) (c : Category) (h : Handle) :
    (t.append c h).slots c = t.slots c ++ [h] := by cases c <;> rfl

theorem append_slots_other (t : ListenerTable) {c d : Category} (h : Handle) (hd : d ≠ c) :
    (t.append c h).slots d = t.slots d := by cases c <;> cases d <;> first | rfl | exact absurd rfl hd

end Sys2Proof.Machine
end

