-- ==== Sys2Proof/Laws/Decode.lean ====
section
/-! SUPPORT. For each received-frame row of the table, when a frame selects it, as arithmetic on the identifier; and the
decoder as the one selected row. -/

namespace Sys2Proof

theorem id_eq_zero_iff (f : Frame) : f.id = 0 ↔ f.id.toNat = 0 := by
  rw [← BitVec.toNat_inj]; rfl

theorem inFilter_iff {l : List Addr} {v : Nat} : inFilter l v = true ↔ ∃ e ∈ l, e.toNat = v := by
  simp [inFilter]

theorem inFilter_toNat {l : List Addr} {a : Addr} : inFilter l a.toNat = true ↔ a ∈ l := by
  rw [inFilter_iff]
  constructor
  · rintro ⟨e, he, h⟩; rwa [← BitVec.eq_of_toNat_eq h]
  · intro h; exact ⟨a, h, rfl⟩

theorem inFilter_sub {l : List Addr} {base v : Nat} (h : base ≤ v) :
    inFilter l (v - base) = true ↔ ∃ e ∈ l, base + e.toNat = v := by
  rw [inFilter_iff]
  exact exists_congr fun e => and_congr_right fun _ => by omega

theorem addressed_iff (c : DecodeCtx) (f : Frame) :
    c.addressed f = true ↔ f.data.b1 = c.own.setWidth 8 ∨ f.data.b1 = 0 := by
  simp only [DecodeCtx.addressed, Bool.or_eq_true, beq_iff_eq]

theorem recognisedNmt_iff (cs : Byte) :
    recognisedNmt cs = true ↔ cs = 0x01 ∨ cs = 0x02 ∨ cs = 0x80 ∨ cs = 0x81 := by
  simp only [recognisedNmt, Bool.or_eq_true, beq_iff_eq, or_assoc]

theorem inReplyRange_iff (f : Frame) : inReplyRange f = true ↔ 0x580 ≤ f.id.toNat ∧ f.id.toNat < 0x600 := by
  simp only [inReplyRange, Bool.and_eq_true, decide_eq_true_eq]

/-! ## The rows -/

variable {c : DecodeCtx} {f : Frame}

theorem selected_nmtStart :
    selected c (.nmtStart f) = true ↔ f.id.toNat = 0 ∧ f.data.b0 = 0x01 ∧ c.addressed f = true := by
  simp only [selected, Bool.and_eq_true, beq_iff_eq, id_eq_zero_iff, and_assoc]

theorem selected_nmtStop :
    selected c (.nmtStop f) = true ↔ f.id.toNat = 0 ∧ f.data.b0 = 0x02 ∧ c.addressed f = true := by
  simp only [selected, Bool.and_eq_true, beq_iff_eq, id_eq_zero_iff, and_assoc]

theorem selected_nmtPreop :
    selected c (.nmtPreop f) = true ↔ f.id.toNat = 0 ∧ f.data.b0 = 0x80 ∧ c.addressed f = true := by
  simp only [selected, Bool.and_eq_true, beq_iff_eq, id_eq_zero_iff, and_assoc]

theorem selected_nmtReset :
    selected c (.nmtReset f) = true ↔ f.id.toNat = 0 ∧ f.data.b0 = 0x81 ∧ c.addressed f = true := by
  simp only [selected, Bool.and_eq_true, beq_iff_eq, id_eq_zero_iff, and_assoc]

theorem selected_nmtIgn :
    selected c (.nmtIgn f) = true ↔ f.id.toNat = 0 ∧ ¬(recognisedNmt f.data.b0 = true ∧ c.addressed f = true) := by
  simp only [selected, Bool.and_eq_true, beq_iff_eq, id_eq_zero_iff, Bool.not_eq_true', ← Bool.not_eq_true]

theorem selected_pdoRx : selected c (.pdoRx f) = true ↔ 0x17F < f.id.toNat ∧ f.id.toNat < 0x580 := by
  simp only [selected, Bool.and_eq_true, decide_eq_true_eq]

theorem selected_hbRx :
    selected c (.hbRx f) = true ↔ 0x700 < f.id.toNat ∧ (c.role = .master ∨ ∃ e ∈ c.filt, 0x700 + e.toNat = f.id.toNat) := by
  simp only [selected, Bool.and_eq_true, decide_eq_true_eq, Bool.or_eq_true, beq_iff_eq]
  exact and_congr_right fun h => or_congr_right (inFilter_sub (Nat.le_of_lt h))

theorem selected_sdoReqRx : selected c (.sdoReqRx f) = true ↔ f.id.toNat = 0x600 + c.own.toNat := by
  simp only [selected, beq_iff_eq]

theorem selected_sdoRpyRxOwn :
    selected c (.sdoRpyRxOwn f) = true ↔ f.id.toNat = 0x580 + c.own.toNat ∧ c.role = .slave := by
  simp only [selected, Bool.and_eq_true, beq_iff_eq]

theorem selected_sdoRpyRxFlt :
    selected c (.sdoRpyRxFlt f) = true ↔
      (0x580 ≤ f.id.toNat ∧ f.id.toNat < 0x600) ∧ c.role = .slave ∧ f.id.toNat ≠ 0x580 + c.own.toNat ∧
      ∃ e ∈ c.filt, 0x580 + e.toNat = f.id.toNat := by
  simp only [selected, Bool.and_eq_true, beq_iff_eq, bne_iff_ne, inReplyRange_iff, and_assoc]
  exact and_congr_right fun h => by rw [inFilter_sub h]

theorem selected_sdoRpyRxMst :
    selected c (.sdoRpyRxMst f) = true ↔ (0x580 ≤ f.id.toNat ∧ f.id.toNat < 0x600) ∧ c.role = .master := by
  simp only [selected, Bool.and_eq_true, beq_iff_eq, inReplyRange_iff]

theorem selected_unparsed :
    selected c (.unparsed f) = true ↔
      (1 ≤ f.id.toNat ∧ f.id.toNat ≤ 0x17F) ∨
      (0x600 ≤ f.id.toNat ∧ f.id.toNat ≤ 0x6FF ∧ f.id.toNat ≠ 0x600 + c.own.toNat) ∨ f.id.toNat = 0x700 ∨
      (c.role = .slave ∧ (0x580 ≤ f.id.toNat ∧ f.id.toNat < 0x600) ∧ f.id.toNat ≠ 0x580 + c.own.toNat ∧
        ¬∃ e ∈ c.filt, 0x580 + e.toNat = f.id.toNat) := by
  simp only [selected, Bool.and_eq_true, Bool.or_eq_true, beq_iff_eq, bne_iff_ne, decide_eq_true_eq, inReplyRange_iff,
    Bool.not_eq_true', ← Bool.not_eq_true, and_assoc, or_assoc]
  refine or_congr_right (or_congr_right (or_congr_right ⟨?_, ?_⟩))
  · rintro ⟨h1, h2, h3, h4, h5⟩
    exact ⟨h3, h1, h2, h4, by rwa [inFilter_sub h1] at h5⟩
  · rintro ⟨h3, h1, h2, h4, h5⟩
    exact ⟨h1, h2, h3, h4, by rwa [inFilter_sub h1]⟩

/-! ## The decoder is the one selected row -/

theorem filter_eq_singleton {α : Type} [DecidableEq α] {l : List α} {p : α → Bool} {i : α} (hn : l.Nodup) (hi : i ∈ l)
    (h : ∀ j ∈ l, p j = true ↔ j = i) : l.filter p = [i] := by
  have hc : l.filter p = l.filter (· == i) := List.filter_congr fun j hj => by
    rw [Bool.eq_iff_iff, h j hj, beq_iff_eq]
  rw [hc, List.filter_beq, List.count_eq_one_of_mem hn hi]; rfl

theorem frameRows_nodup (f : Frame) : (frameRows f).Nodup := by simp [frameRows]

/-- The one row that selects a frame is what it decodes to. -/
theorem decodeFrame_eq_instr {i : Instr} (hi : i ∈ frameRows f)
    (h : ∀ j ∈ frameRows f, selected c j = true ↔ j = i) : decodeFrame c f = .instr i := by
  rw [decodeFrame, classify, filter_eq_singleton (frameRows_nodup f) hi h]

/-- A frame that no row selects executes no operation. -/
theorem decodeFrame_eq_dropped (h : ∀ j ∈ frameRows f, ¬selected c j = true) :
    decodeFrame c f = .rejected .matchedDropped := by
  have hn : (frameRows f).filter (selected c) = [] := by simpa using h
  rw [decodeFrame, classify, hn]

/-- What a frame decodes to is a row that selects it. -/
theorem selected_of_decodeFrame {i : Instr} (h : decodeFrame c f = .instr i) : i ∈ frameRows f ∧ selected c i = true := by
  unfold decodeFrame at h
  split at h
  · rename_i j hj
    cases h
    have : i ∈ classify c f := by rw [hj]; exact List.mem_singleton.2 rfl
    exact List.mem_filter.1 this
  · cases h
  · cases h

/-- The twelve rows, each as its selecting condition. -/
theorem forall_frameRows {P : Instr → Prop} :
    (∀ j ∈ frameRows f, P j) ↔
      P (.nmtStart f) ∧ P (.nmtStop f) ∧ P (.nmtPreop f) ∧ P (.nmtReset f) ∧ P (.nmtIgn f) ∧ P (.pdoRx f) ∧
      P (.hbRx f) ∧ P (.sdoReqRx f) ∧ P (.sdoRpyRxOwn f) ∧ P (.sdoRpyRxFlt f) ∧ P (.sdoRpyRxMst f) ∧
      P (.unparsed f) := by
  simp [frameRows]

/-- The number of the row a frame falls under, 12 for none: one value for each frame and engine. -/
def rowNumber (c : DecodeCtx) (f : Frame) : Nat :=
  if f.id.toNat = 0 then
    (if c.addressed f = true then
      (if f.data.b0 = 0x01 then 0 else if f.data.b0 = 0x02 then 1 else if f.data.b0 = 0x80 then 2
       else if f.data.b0 = 0x81 then 3 else 4)
     else 4)
  else if f.id.toNat ≤ 0x17F then 11
  else if f.id.toNat ≤ 0x57F then 5
  else if f.id.toNat ≤ 0x5FF then
    (if c.role = .master then 10 else if f.id.toNat = 0x580 + c.own.toNat then 8
     else if inFilter c.filt (f.id.toNat - 0x580) = true then 9 else 11)
  else if f.id.toNat ≤ 0x6FF then (if f.id.toNat = 0x600 + c.own.toNat then 7 else 11)
  else if f.id.toNat = 0x700 then 11
  else if c.role = .master ∨ inFilter c.filt (f.id.toNat - 0x700) = true then 6
  else 12

/-- A row that selects a frame is the one of its number. -/
theorem getElem_rowNumber_of_selected :
    ∀ j ∈ frameRows f, selected c j = true → (frameRows f)[rowNumber c f]? = some j := by
  have ho := c.own.isLt
  have hms : c.role = .master → c.role = .slave → False := fun a b => by rw [a] at b; cases b
  rw [forall_frameRows]
  refine ⟨?_, ?_, ?_, ?_, ?_, ?_, ?_, ?_, ?_, ?_, ?_, ?_⟩
  · rw [selected_nmtStart]; rintro ⟨h1, h2, h3⟩; rw [rowNumber, if_pos h1, if_pos h3, if_pos h2]; rfl
  · rw [selected_nmtStop]; rintro ⟨h1, h2, h3⟩; rw [rowNumber, if_pos h1, if_pos h3, h2]; rfl
  · rw [selected_nmtPreop]; rintro ⟨h1, h2, h3⟩; rw [rowNumber, if_pos h1, if_pos h3, h2]; rfl
  · rw [selected_nmtReset]; rintro ⟨h1, h2, h3⟩; rw [rowNumber, if_pos h1, if_pos h3, h2]; rfl
  · rw [selected_nmtIgn, recognisedNmt_iff]; rintro ⟨h1, h2⟩
    unfold rowNumber
    split_ifs <;> first | rfl | (exfalso; exact h2 ⟨by simp [*], ‹_›⟩)
  · rw [selected_pdoRx]; rintro h
    unfold rowNumber
    split_ifs <;> first | rfl | omega
  · rw [selected_hbRx]; rintro ⟨h, h'⟩
    rw [← inFilter_sub (by omega)] at h'
    unfold rowNumber
    split_ifs <;> first | rfl | omega
  · rw [selected_sdoReqRx]; rintro h
    unfold rowNumber
    split_ifs <;> first | rfl | omega
  · rw [selected_sdoRpyRxOwn]; rintro ⟨h, h'⟩
    unfold rowNumber
    split_ifs <;> first | rfl | omega | (exfalso; exact hms ‹_› h')
  · rw [selected_sdoRpyRxFlt]; rintro ⟨h1, h2, h3, h4⟩
    rw [← inFilter_sub h1.1] at h4
    unfold rowNumber
    split_ifs <;> first | rfl | omega | (exfalso; exact hms ‹_› h2)
  · rw [selected_sdoRpyRxMst]; rintro ⟨h, h'⟩
    unfold rowNumber
    split_ifs <;> first | rfl | omega
  · rw [selected_unparsed]; rintro (h | h | h | ⟨h1, h2, h3, h4⟩)
    · rw [rowNumber, if_neg (by omega), if_pos h.2]; rfl
    · rw [rowNumber, if_neg (by omega), if_neg (by omega), if_neg (by omega), if_neg (by omega), if_pos h.2.1,
        if_neg h.2.2]; rfl
    · rw [rowNumber, if_neg (by omega), if_neg (by omega), if_neg (by omega), if_neg (by omega), if_neg (by omega),
        if_pos h]; rfl
    · rw [← inFilter_sub h2.1] at h4
      rw [rowNumber, if_neg (by omega), if_neg (by omega), if_neg (by omega), if_pos (by omega),
        if_neg (fun h => hms h h1), if_neg h3, if_neg h4]; rfl

/-- At most one row selects a frame. -/
theorem selected_unique {i j : Instr} (hi : i ∈ frameRows f) (hj : j ∈ frameRows f) (si : selected c i = true)
    (sj : selected c j = true) : i = j := by
  have := (getElem_rowNumber_of_selected i hi si).symm.trans (getElem_rowNumber_of_selected j hj sj)
  simpa using this

/-- A frame decodes to a row exactly when the row selects it. -/
theorem decodeFrame_eq_instr_iff {i : Instr} (hi : i ∈ frameRows f) :
    decodeFrame c f = .instr i ↔ selected c i = true :=
  ⟨fun h => (selected_of_decodeFrame h).2,
   fun hs => decodeFrame_eq_instr hi fun _ hj => ⟨fun hsj => selected_unique hj hi hsj hs, fun e => e ▸ hs⟩⟩

/-! ## Records -/

theorem le32_byteOf {n : Nat} (h : n < 4294967296) : le32 (byteOf 0 n) (byteOf 1 n) (byteOf 2 n) (byteOf 3 n) = n := by
  simp only [le32, byteOf, BitVec.toNat_ofNat]
  omega

/-- A frame's record reads back as the frame. -/
theorem readFrame_writeFrame (f : Frame) : readFrame (writeFrame f) = some f := by
  obtain ⟨id, ext, rtr, dlc, d⟩ := f
  have h := id.isLt
  have hd := dlc.isLt
  have e1 : (BitVec.ofNat 8 dlc.val).toNat % 16 = dlc.val := by simp; omega
  have e2 : (byteOf 0 id.toNat).toNat
      + 256 * ((BitVec.ofNat 8 (id.toNat / 256 + 8 * ext.toNat + 16 * rtr.toNat)).toNat % 8) = id.toNat := by
    cases ext <;> cases rtr <;> simp [byteOf] <;> omega
  have e3 : (BitVec.ofNat 8 (id.toNat / 256 + 8 * ext.toNat + 16 * rtr.toNat)).getLsbD 3 = ext ∧
      (BitVec.ofNat 8 (id.toNat / 256 + 8 * ext.toNat + 16 * rtr.toNat)).getLsbD 4 = rtr := by
    have : id.toNat / 256 < 8 := by omega
    generalize id.toNat / 256 = k at this
    clear e1 e2 h hd
    have : k = 0 ∨ k = 1 ∨ k = 2 ∨ k = 3 ∨ k = 4 ∨ k = 5 ∨ k = 6 ∨ k = 7 := by omega
    rcases this with rfl | rfl | rfl | rfl | rfl | rfl | rfl | rfl <;> cases ext <;> cases rtr <;> decide
  simp only [readFrame, writeFrame, e1, e2, e3]
  rw [if_pos (by omega)]
  simp only [Option.some.injEq, Frame.mk.injEq, true_and, and_true]
  exact ⟨by simp, Fin.ext (by simp [Fin.ofNat])⟩

/-- A frame's record decodes as the frame does. -/
theorem decodeFrameRecord_writeFrame (f : Frame) : decodeFrameRecord c (writeFrame f) = decodeFrame c f := by
  rw [decodeFrameRecord, if_pos (show (writeFrame f).length = 11 from rfl), readFrame_writeFrame]

end Sys2Proof
end

