-- ==== Sys2Proof/Laws/Ops.lean ====
section
/-! SUPPORT. For each shared operation, one lemma that says what it can do: the port primitives, the send commands, an invoked
listener, and `Notify`. Later proofs cite these and unfold none of the operations. -/

namespace Sys2Proof.Machine

/-! ## Sequencing -/

@[simp] theorem andThen_next {α β : Type} (a : α) (k : α → Result β) : andThen (.next a) k = k a := rfl
@[simp] theorem andThen_fault {α β : Type} (e : Fault) (k : α → Result β) : andThen (.fault e) k = .fault e := rfl
@[simp] theorem andThen_refused {α β : Type} (e : Refusal) (k : α → Result β) : andThen (.refused e) k = .refused e := rfl

/-- A sequence answers a next value exactly when both parts do. -/
theorem andThen_eq_next {α β : Type} {r : Result α} {k : α → Result β} {b : β} :
    andThen r k = .next b ↔ ∃ a, r = .next a ∧ k a = .next b := by
  cases r <;> simp

theorem andThen_assoc {α β γ : Type} (r : Result α) (k : α → Result β) (l : β → Result γ) :
    andThen (andThen r k) l = andThen r fun a => andThen (k a) l := by
  cases r <;> rfl

@[simp] theorem andThen_pure {α : Type} (r : Result α) : (andThen r fun a => .next a) = r := by cases r <;> rfl

@[simp] theorem whenReady_ready {α : Type} {s : State} (h : s.regs.ready = true) (r : Result α) : whenReady s r = r := by
  simp [whenReady, h]

theorem whenReady_eq_next {α : Type} {s : State} {r : Result α} {a : α} :
    whenReady s r = .next a ↔ s.regs.ready = true ∧ r = .next a := by
  unfold whenReady; split <;> simp_all

theorem whenSelected_eq_next {i : Instr} {s t : State} {r : Result State} :
    whenSelected i s r = .next t ↔ s.regs.ready = true ∧ selected s.ctx i = true ∧ r = .next t := by
  unfold whenSelected; rw [whenReady_eq_next]; split <;> simp_all

theorem whenSelected_selected {i : Instr} {s : State} (h : s.regs.ready = true) (hs : selected s.ctx i = true)
    (r : Result State) : whenSelected i s r = r := by
  simp [whenSelected, h, hs]

/-! ## Growing histories -/

/-- The history grows by entries that all satisfy `P`. -/
def Extends (P : Obs → Bool) (s t : State) : Prop := ∃ new, t.out.trace = s.out.trace ++ new ∧ new.all P = true

theorem Extends.refl (P : Obs → Bool) (s : State) : Extends P s s := ⟨[], by simp⟩

theorem Extends.of_trace_eq {P : Obs → Bool} {s t : State} (h : t.out.trace = s.out.trace) : Extends P s t := ⟨[], by simp [h]⟩

theorem Extends.trans {P : Obs → Bool} {s t u : State} : Extends P s t → Extends P t u → Extends P s u := by
  rintro ⟨a, ha, pa⟩ ⟨b, hb, pb⟩
  exact ⟨a ++ b, by simp [hb, ha], by simp only [List.all_append, pa, pb, Bool.and_self]⟩

theorem Extends.mono {P Q : Obs → Bool} {s t : State} (hPQ : ∀ o, P o = true → Q o = true) :
    Extends P s t → Extends Q s t := by
  rintro ⟨a, ha, pa⟩
  exact ⟨a, ha, List.all_eq_true.2 fun o ho => hPQ o (List.all_eq_true.1 pa o ho)⟩

theorem Extends.one {P : Obs → Bool} (s : State) {o : Obs} (h : P o = true) : Extends P s (s.emit o) :=
  ⟨[o], by simp [h]⟩

theorem Extends.trace_prefix {P : Obs → Bool} {s t : State} : Extends P s t → s.out.trace <+: t.out.trace := by
  rintro ⟨a, ha, -⟩
  exact ⟨a, ha.symm⟩

/-! ## Port primitives -/

@[simp] theorem tx_regs (f : Frame) (s : State) : (tx f s).2.regs = s.regs := rfl
@[simp] theorem tx_params (f : Frame) (s : State) : (tx f s).2.params = s.params := rfl
@[simp] theorem tx_trace (f : Frame) (s : State) :
    (tx f s).2.out.trace = s.out.trace ++ [.tx f (txAnswer s.env)] := rfl
@[simp] theorem tx_diag (f : Frame) (s : State) : (tx f s).2.out.diag = s.out.diag := rfl
@[simp] theorem tx_xcfg (f : Frame) (s : State) : (tx f s).2.out.xcfg = s.out.xcfg := rfl
@[simp] theorem tx_env (f : Frame) (s : State) : (tx f s).2.env = afterTx s.env := rfl
@[simp] theorem tx_answer (f : Frame) (s : State) : (tx f s).1 = txAnswer s.env := rfl

@[simp] theorem afterTx_cmd (e : Env) : (afterTx e).cmd = e.cmd := by unfold afterTx; split <;> rfl
@[simp] theorem afterTx_pendingIn (e : Env) : (afterTx e).pendingIn = e.pendingIn := by unfold afterTx; split <;> rfl
@[simp] theorem afterTx_rxIn (e : Env) : (afterTx e).rxIn = e.rxIn := by unfold afterTx; split <;> rfl
@[simp] theorem afterTx_nowIn (e : Env) : (afterTx e).nowIn = e.nowIn := by unfold afterTx; split <;> rfl
@[simp] theorem afterTx_reactIn (e : Env) : (afterTx e).reactIn = e.reactIn := by unfold afterTx; split <;> rfl

theorem txAnswer_listed {e : Env} {r : TxResult} {rest : List TxResult} (h : e.txIn = r :: rest) : txAnswer e = r := by
  simp [txAnswer, h]

@[simp] theorem rx_regs (s : State) : (rx s).2.regs = s.regs := by unfold rx; split <;> rfl
@[simp] theorem rx_params (s : State) : (rx s).2.params = s.params := by unfold rx; split <;> rfl
@[simp] theorem rx_out (s : State) : (rx s).2.out = s.out := by unfold rx; split <;> rfl
@[simp] theorem rx_nowIn (s : State) : (rx s).2.env.nowIn = s.env.nowIn := by unfold rx; split <;> rfl
@[simp] theorem rx_reactIn (s : State) : (rx s).2.env.reactIn = s.env.reactIn := by unfold rx; split <;> rfl
@[simp] theorem rx_cmd (s : State) : (rx s).2.env.cmd = s.env.cmd := by unfold rx; split <;> rfl

theorem rx_listed {s : State} {x : Option Frame} {rest : List (Option Frame)} (h : s.env.rxIn = x :: rest) :
    rx s = (x, { s with env := { s.env with rxIn := rest } }) := by simp [rx, h]

theorem rx_exhausted {s : State} (h : s.env.rxIn = []) : rx s = (none, s) := by simp [rx, h]

@[simp] theorem pending_regs (s : State) : (pending s).2.regs = s.regs := by unfold pending; split <;> rfl
@[simp] theorem pending_params (s : State) : (pending s).2.params = s.params := by unfold pending; split <;> rfl
@[simp] theorem pending_out (s : State) : (pending s).2.out = s.out := by unfold pending; split <;> rfl
@[simp] theorem pending_nowIn (s : State) : (pending s).2.env.nowIn = s.env.nowIn := by unfold pending; split <;> rfl
@[simp] theorem pending_rxIn (s : State) : (pending s).2.env.rxIn = s.env.rxIn := by unfold pending; split <;> rfl
@[simp] theorem pending_reactIn (s : State) : (pending s).2.env.reactIn = s.env.reactIn := by unfold pending; split <;> rfl
@[simp] theorem pending_cmd (s : State) : (pending s).2.env.cmd = s.env.cmd := by unfold pending; split <;> rfl

theorem pending_listed {s : State} {b : Bool} {rest : List Bool} (h : s.env.pendingIn = b :: rest) :
    pending s = (b, { s with env := { s.env with pendingIn := rest } }) := by simp [pending, h]

@[simp] theorem now_regs (s : State) : (now s).2.regs = s.regs := by unfold now; split <;> rfl
@[simp] theorem now_params (s : State) : (now s).2.params = s.params := by unfold now; split <;> rfl
@[simp] theorem now_out (s : State) : (now s).2.out = s.out := by unfold now; split <;> rfl
@[simp] theorem now_reactIn (s : State) : (now s).2.env.reactIn = s.env.reactIn := by unfold now; split <;> rfl
@[simp] theorem now_cmd (s : State) : (now s).2.env.cmd = s.env.cmd := by unfold now; split <;> rfl

theorem now_listed {s : State} {t : Time} {rest : List Time} (h : s.env.nowIn = t :: rest) :
    now s = (t, { s with env := { s.env with nowIn := rest } }) := by simp [now, h]

/-! ## Sends -/

/-- What a send command of an engine in `role` adds to the history: frames with `ext` and `rtr` 0, on identifier 0 only from a
master, and statuses (R39, R60). -/
def sendEntry (role : Role) : Obs → Bool
  | .tx f _ => !f.ext && !f.rtr && (role == .master || f.id != 0)
  | .ev _ _ _ _ => false
  | .status _ => true

/-- What a send command can do: the history grows by `sendEntry` entries and the diagnostics may grow; registers, parameters,
the other inputs and `xcfg_trace` stay. -/
structure SendEffect (s t : State) : Prop where
  regs : t.regs = s.regs
  params : t.params = s.params
  inputs : sameInputs t.env s.env
  reactIn : t.env.reactIn = s.env.reactIn
  xcfg : t.out.xcfg = s.out.xcfg
  trace : Extends (sendEntry s.regs.role) s t
  diag : s.out.diag <+: t.out.diag

theorem sameInputs.refl (e : Env) : sameInputs e e := ⟨rfl, rfl, rfl, rfl⟩

theorem sameInputs.trans {a b c : Env} : sameInputs a b → sameInputs b c → sameInputs a c := by
  rintro ⟨h1, h2, h3, h4⟩ ⟨g1, g2, g3, g4⟩
  exact ⟨h1.trans g1, h2.trans g2, h3.trans g3, h4.trans g4⟩

theorem SendEffect.refl (s : State) : SendEffect s s :=
  ⟨rfl, rfl, .refl _, rfl, rfl, .refl _ _, List.prefix_refl _⟩

theorem SendEffect.trans {s t u : State} (h : SendEffect s t) (g : SendEffect t u) : SendEffect s u where
  regs := g.regs.trans h.regs
  params := g.params.trans h.params
  inputs := g.inputs.trans h.inputs
  reactIn := g.reactIn.trans h.reactIn
  xcfg := g.xcfg.trans h.xcfg
  trace := h.trace.trans (by simpa [h.regs] using g.trace)
  diag := h.diag.trans g.diag

theorem returnStatus_effect (st : Status) (s : State) : SendEffect s (returnStatus st s) :=
  ⟨rfl, rfl, .refl _, rfl, rfl, .one s rfl, List.prefix_refl _⟩

/-- Handing a frame to the transport, with or without a diagnostics line after it. -/
theorem tx_diagIf_effect {f : Frame} {s : State} (hf : sendEntry s.regs.role (.tx f (txAnswer s.env)) = true) (b : Bool)
    (l : DiagLine) : SendEffect s ((tx f s).2.diagIf b l) :=
  ⟨rfl, rfl, ⟨by simp, by simp, by simp, by simp⟩, by simp, rfl, ⟨[.tx f (txAnswer s.env)], by simp, by simpa using hf⟩, by simp⟩

theorem sendFrame_effect {f : Frame} {s : State} (hf : sendEntry s.regs.role (.tx f (txAnswer s.env)) = true) :
    SendEffect s (sendFrame f s) :=
  (tx_diagIf_effect hf _ _).trans (returnStatus_effect _ _)

theorem idFrom_toNat {base : Nat} (h : base ≤ 0x780) (a : Addr) : (idFrom base a).toNat = base + a.toNat := by
  have := a.isLt
  simp only [idFrom, BitVec.toNat_ofNat]
  omega

theorem idFrom_ne_zero {base : Nat} (h0 : 0 < base) (h : base ≤ 0x780) (a : Addr) : idFrom base a ≠ 0 := by
  intro hz
  have := congrArg BitVec.toNat hz
  rw [idFrom_toNat h, show (0 : CanId).toNat = 0 from rfl] at this
  omega

theorem pdoFrame_id_toNat {id length : Nat} (p : Bytes8) (h : pdoRejected id length = false) :
    (pdoFrame id length p).id.toNat = id := by
  simp only [pdoRejected, Bool.or_eq_false_iff, decide_eq_false_iff_not] at h
  simp only [pdoFrame, BitVec.toNat_ofNat]
  omega

/-- A built frame handed to the transport, written out. -/
theorem sendFrame_eq_transmitted (f : Frame) (s : State) : sendFrame f s = transmitted f s := by
  unfold sendFrame transmitted returnStatus State.emit State.diagIf diagLines tx
  cases txAnswer s.env <;> cases hd : s.regs.debug <;> simp [sendStatus, State.emit, hd]

theorem sdoSendReq_effect (d : Descriptor) (s : State) : SendEffect s (sdoSendReq d s) := by
  unfold sdoSendReq; split
  · exact returnStatus_effect _ _
  · refine sendFrame_effect ?_
    have hne : (sdoEncode (idFrom 0x600 (maskNode d.node)) d).id ≠ 0 := idFrom_ne_zero (by decide) (by decide) _
    simp only [sendEntry, bne_iff_ne.2 hne, Bool.or_true, Bool.and_true]
    rfl

theorem sdoSendRsp_effect (d : Descriptor) (s : State) : SendEffect s (sdoSendRsp d s) := by
  unfold sdoSendRsp; split
  · exact returnStatus_effect _ _
  · refine sendFrame_effect ?_
    have hne : (sdoEncode (idFrom 0x580 s.regs.own) d).id ≠ 0 := idFrom_ne_zero (by decide) (by decide) _
    simp only [sendEntry, bne_iff_ne.2 hne, Bool.or_true, Bool.and_true]
    rfl

theorem pdoSend_effect (id length : Nat) (p : Bytes8) (s : State) : SendEffect s (pdoSend id length p s) := by
  unfold pdoSend; split
  · exact returnStatus_effect _ _
  · rename_i h
    refine sendFrame_effect ?_
    have hid := pdoFrame_id_toNat p (Bool.not_eq_true _ ▸ h)
    have hne : (pdoFrame id length p).id ≠ 0 := by
      intro hz
      rw [hz, show (0 : CanId).toNat = 0 from rfl] at hid
      simp only [pdoRejected, Bool.or_eq_true, decide_eq_true_eq] at h
      omega
    simp only [sendEntry, (bne_iff_ne).2 hne, Bool.or_true, Bool.and_true]
    rfl

theorem nmtSend_effect (cs : Byte) (target : Nat) (s : State) : SendEffect s (nmtSend cs target s) := by
  unfold nmtSend; split
  · rename_i h
    refine sendFrame_effect ?_
    simp [sendEntry, nmtFrame, h]
  · exact returnStatus_effect _ _

/-! ## Listeners -/

theorem issuedByListener_effect {i : Instr} {s t : State} (h : issuedByListener i s = .next t) : SendEffect s t := by
  cases i <;> simp only [issuedByListener, reduceCtorEq, Host.Outcome.next.injEq] at h <;> subst h
  · exact sdoSendReq_effect _ _
  · exact sdoSendRsp_effect _ _
  · exact pdoSend_effect _ _ _ _
  · exact nmtSend_effect _ _ _

theorem issuedByListener_completes {i : Instr} (hi : isSend i = true) (s : State) : ∃ t, issuedByListener i s = .next t := by
  cases i <;> simp_all [isSend, issuedByListener]

theorem runIssued_effect {is : List Instr} {s t : State} (h : runIssued is s = .next t) : SendEffect s t := by
  induction is generalizing s with
  | nil => cases h; exact .refl _
  | cons i rest ih =>
    obtain ⟨u, hu, ht⟩ := andThen_eq_next.1 h
    exact (issuedByListener_effect hu).trans (ih ht)

theorem runIssued_completes {is : List Instr} (his : is.all isSend = true) (s : State) : ∃ t, runIssued is s = .next t := by
  induction is generalizing s with
  | nil => exact ⟨s, rfl⟩
  | cons i rest ih =>
    simp only [List.all_cons, Bool.and_eq_true] at his
    obtain ⟨u, hu⟩ := issuedByListener_completes his.1 s
    obtain ⟨t, ht⟩ := ih his.2 u
    exact ⟨t, by simp [runIssued, hu, ht]⟩

/-- What an invoked listener that returned can have done: sends; and its reaction is taken from the inputs. -/
theorem listenerRuns_effect {s t : State} (h : listenerRuns s = .next t) :
    t.regs = s.regs ∧ t.params = s.params ∧ sameInputs t.env s.env ∧ t.out.xcfg = s.out.xcfg ∧
    Extends (sendEntry s.regs.role) s t ∧ s.out.diag <+: t.out.diag ∧ t.env.reactIn = s.env.reactIn.drop 1 := by
  unfold listenerRuns at h
  split at h
  · rename_i hr
    cases h
    exact ⟨rfl, rfl, .refl _, rfl, .refl _ _, List.prefix_refl _, by simp [hr]⟩
  · rename_i issued rest hr
    have e := runIssued_effect h
    exact ⟨e.regs, e.params, e.inputs, e.xcfg, e.trace, e.diag, by simp [e.reactIn, hr]⟩
  · cases h

theorem listenerRuns_completes {s : State} (hl : ListenersLawful s) : ∃ t, listenerRuns s = .next t := by
  unfold listenerRuns
  split
  · exact ⟨s, rfl⟩
  · rename_i issued rest hr
    simp only [ListenersLawful, hr, List.all_cons, Reaction.lawful, Bool.and_eq_true] at hl
    exact runIssued_completes hl.1 _
  · rename_i hr
    simp [ListenersLawful, hr, Reaction.lawful] at hl

theorem lawful_drop {l : List Reaction} (n : Nat) (h : l.all Reaction.lawful = true) :
    (l.drop n).all Reaction.lawful = true :=
  List.all_eq_true.2 fun r hr => List.all_eq_true.1 h r (List.mem_of_mem_drop hr)

/-! ## `Notify` -/

/-- What one notification adds to the history: the sends of its listeners, and events of the category with the payload, in
slots below `n`. -/
def notifyEntry (role : Role) (cat : Category) (p : Payload) (n : Nat) : Obs → Bool
  | .ev c i _ q => decide (c = cat) && decide (q = p) && decide (i < n)
  | .tx f r => sendEntry role (.tx f r)
  | .status st => sendEntry role (.status st)

theorem sendEntry_imp_notifyEntry {role : Role} {cat : Category} {p : Payload} {n : Nat} {o : Obs}
    (h : sendEntry role o = true) : notifyEntry role cat p n o = true := by
  cases o <;> simp_all [notifyEntry, sendEntry]

theorem events_of_sendEntries {role : Role} {s t : State} (h : Extends (sendEntry role) s t) :
    t.out.events = s.out.events := by
  obtain ⟨new, hn, hp⟩ := h
  rw [events_of_trace_append hn]
  suffices Out.events ⟨new, [], []⟩ = [] by simp [this]
  simp only [Out.events, List.filterMap_eq_nil_iff]
  intro o ho
  have := List.all_eq_true.1 hp o ho
  cases o <;> simp_all [sendEntry]

/-- Everything the invocations from a slot on can do, if all their listeners returned. -/
theorem invokeFrom_effect {cat : Category} {p : Payload} {hs : List Handle} {slot : Nat} {s t : State}
    (h : invokeFrom cat p slot hs s = .next t) :
    t.regs = s.regs ∧ t.params = s.params ∧ sameInputs t.env s.env ∧ t.out.xcfg = s.out.xcfg ∧
    Extends (notifyEntry s.regs.role cat p (slot + hs.length)) s t ∧ s.out.diag <+: t.out.diag ∧
    t.out.events = s.out.events ++ eventsFrom cat p slot hs ∧ t.env.reactIn = s.env.reactIn.drop hs.length := by
  induction hs generalizing slot s with
  | nil => cases h; exact ⟨rfl, rfl, .refl _, rfl, .refl _ _, List.prefix_refl _, by simp [eventsFrom], by simp⟩
  | cons x rest ih =>
    obtain ⟨u, hu, ht⟩ := andThen_eq_next.1 h
    obtain ⟨r1, r2, r3, r4, r5, r6, r7⟩ := listenerRuns_effect hu
    obtain ⟨q1, q2, q3, q4, q5, q6, q7, q8⟩ := ih ht
    refine ⟨q1.trans r1, q2.trans r2, q3.trans r3, q4.trans r4, ?_, r6.trans q6, ?_, ?_⟩
    · have e0 : Extends (notifyEntry s.regs.role cat p (slot + (x :: rest).length)) s (s.emit (.ev cat slot x p)) :=
        .one s (by simp [notifyEntry])
      refine e0.trans ((r5.mono fun o => sendEntry_imp_notifyEntry).trans ?_)
      rw [show slot + (x :: rest).length = slot + 1 + rest.length by simp; omega]
      simpa [r1] using q5
    · rw [q7, events_of_sendEntries r5]
      simp [eventsFrom]
    · rw [q8, r7]
      simp

theorem invokeFrom_completes {cat : Category} {p : Payload} {hs : List Handle} {slot : Nat} {s : State}
    (hl : ListenersLawful s) : ∃ t, invokeFrom cat p slot hs s = .next t := by
  induction hs generalizing slot s with
  | nil => exact ⟨s, rfl⟩
  | cons x rest ih =>
    obtain ⟨u, hu⟩ := listenerRuns_completes (s := s.emit (.ev cat slot x p)) hl
    obtain ⟨-, -, -, -, -, -, r7⟩ := listenerRuns_effect hu
    obtain ⟨t, ht⟩ := ih (slot := slot + 1) (s := u) (by rw [ListenersLawful, r7]; exact lawful_drop 1 hl)
    exact ⟨t, by simp [invokeFrom, hu, ht]⟩

/-- Listeners that issue nothing add their events to the history and change nothing else but the reactions taken. -/
theorem invokeFrom_quiet {cat : Category} {p : Payload} {hs : List Handle} {slot : Nat} {s : State} (hq : ListenersQuiet s) :
    invokeFrom cat p slot hs s = .next
      { s with
        env := { s.env with reactIn := s.env.reactIn.drop hs.length }
        out := { s.out with trace := s.out.trace ++ eventObs cat p slot hs } } := by
  induction hs generalizing slot s with
  | nil => simp [invokeFrom, eventObs]
  | cons x rest ih =>
    have hu : listenerRuns (s.emit (.ev cat slot x p)) =
        .next { s.emit (.ev cat slot x p) with env := { s.env with reactIn := s.env.reactIn.drop 1 } } := by
      obtain ⟨regs, params, ⟨cmd, pendingIn, rxIn, txIn, nowIn, reactIn, draws⟩, out⟩ := s
      cases reactIn with
      | nil => rfl
      | cons r rs => rw [hq r (by simp)]; rfl
    simp only [invokeFrom, hu, andThen]
    rw [ih fun r h => hq r (List.mem_of_mem_drop h)]
    simp [State.emit, eventObs]

theorem notify_quiet {cat : Category} {p : Payload} {s : State} (hq : ListenersQuiet s) :
    notify cat p s = .next
      { s with
        env := { s.env with reactIn := s.env.reactIn.drop (s.regs.lst.slots cat).length }
        out := { s.out with trace := s.out.trace ++ eventObs cat p 0 (s.regs.lst.slots cat) } } :=
  invokeFrom_quiet hq

/-- `Notify` that returned has notified once. -/
theorem notify_effect {cat : Category} {p : Payload} {s t : State} (h : notify cat p s = .next t) :
    NotifiedOnce cat p s t := by
  obtain ⟨h1, h2, h3, h4, h5, h6, h7, -⟩ := invokeFrom_effect h
  exact ⟨h1, h2, h3, h4, h5.trace_prefix, h6, h7, fun hq => by simpa [notify_quiet hq] using h.symm⟩

theorem notify_trace {cat : Category} {p : Payload} {s t : State} (h : notify cat p s = .next t) :
    Extends (notifyEntry s.regs.role cat p (s.regs.lst.slots cat).length) s t := by
  have := (invokeFrom_effect h).2.2.2.2.1
  simpa using this

theorem notify_reactIn {cat : Category} {p : Payload} {s t : State} (h : notify cat p s = .next t) :
    t.env.reactIn = s.env.reactIn.drop (s.regs.lst.slots cat).length :=
  (invokeFrom_effect h).2.2.2.2.2.2.2

/-- `Notify` returns if every listener does and issues send commands only (R234, R235). -/
theorem notify_completes {cat : Category} {p : Payload} {s : State} (hl : ListenersLawful s) :
    ∃ t, notify cat p s = .next t := invokeFrom_completes hl

theorem notify_lawful {cat : Category} {p : Payload} {s t : State} (hl : ListenersLawful s)
    (h : notify cat p s = .next t) : ListenersLawful t := by
  rw [ListenersLawful, notify_reactIn h]
  exact lawful_drop _ hl

end Sys2Proof.Machine
end

