-- ==== Sys2Proof/Laws/Exec.lean ====
section
/-! SUPPORT. What the Dispatcher and each operation can do: one inversion lemma and one completion lemma for `dispatch`,
`receive`, `drain` and the timer check, which later proofs cite. -/

namespace Sys2Proof.Machine

/-! ## Routing -/

/-- What a dispatch adds to the history: sends of listeners, and events in filled slots with a payload of their category. -/
def routeEntry (role : Role) (lst : ListenerTable) : Obs → Bool
  | .ev c i _ p => decide (i < (lst.slots c).length) && payloadOk c p
  | .tx f r => sendEntry role (.tx f r)
  | .status st => sendEntry role (.status st)

/-- What a received-frame operation can do: `nmt` is the only register it can change, the other inputs stay, and the histories
grow by `routeEntry` entries. -/
structure RouteEffect (s t : State) : Prop where
  regs : t.regs = { s.regs with nmt := t.regs.nmt }
  params : t.params = s.params
  inputs : sameInputs t.env s.env
  reactIn : ∃ n, t.env.reactIn = s.env.reactIn.drop n
  xcfg : t.out.xcfg = s.out.xcfg
  trace : Extends (routeEntry s.regs.role s.regs.lst) s t
  diag : s.out.diag <+: t.out.diag

theorem RouteEffect.own {s t : State} (h : RouteEffect s t) : t.regs.own = s.regs.own := by rw [h.regs]
theorem RouteEffect.role {s t : State} (h : RouteEffect s t) : t.regs.role = s.regs.role := by rw [h.regs]
theorem RouteEffect.filt {s t : State} (h : RouteEffect s t) : t.regs.filt = s.regs.filt := by rw [h.regs]
theorem RouteEffect.lst {s t : State} (h : RouteEffect s t) : t.regs.lst = s.regs.lst := by rw [h.regs]
theorem RouteEffect.ready {s t : State} (h : RouteEffect s t) : t.regs.ready = s.regs.ready := by rw [h.regs]

theorem RouteEffect.ctx {s t : State} (h : RouteEffect s t) : t.ctx = s.ctx := by
  simp [State.ctx, h.own, h.role, h.filt]

theorem RouteEffect.refl (s : State) : RouteEffect s s :=
  ⟨rfl, rfl, .refl _, ⟨0, by simp⟩, rfl, .refl _ _, List.prefix_refl _⟩

theorem RouteEffect.trans {s t u : State} (h : RouteEffect s t) (g : RouteEffect t u) : RouteEffect s u where
  regs := by rw [g.regs, h.regs]
  params := g.params.trans h.params
  inputs := g.inputs.trans h.inputs
  reactIn := by
    obtain ⟨m, hm⟩ := h.reactIn
    obtain ⟨n, hn⟩ := g.reactIn
    exact ⟨m + n, by rw [hn, hm, List.drop_drop]⟩
  xcfg := g.xcfg.trans h.xcfg
  trace := h.trace.trans (by simpa [h.role, h.lst] using g.trace)
  diag := h.diag.trans g.diag

theorem RouteEffect.lawful {s t : State} (h : RouteEffect s t) (hl : ListenersLawful s) : ListenersLawful t := by
  obtain ⟨n, hn⟩ := h.reactIn
  rw [ListenersLawful, hn]
  exact lawful_drop n hl

theorem notifyEntry_imp_routeEntry {role : Role} {lst : ListenerTable} {cat : Category} {p : Payload}
    (hp : payloadOk cat p = true) {o : Obs} (h : notifyEntry role cat p (lst.slots cat).length o = true) :
    routeEntry role lst o = true := by
  cases o with
  | ev c i x q =>
    simp only [notifyEntry, Bool.and_eq_true, decide_eq_true_eq] at h
    obtain ⟨⟨rfl, rfl⟩, hi⟩ := h
    simp [routeEntry, hi, hp]
  | tx f r => exact h
  | status st => exact h

theorem notify_route {cat : Category} {p : Payload} {s t : State} (hp : payloadOk cat p = true)
    (h : notify cat p s = .next t) : RouteEffect s t := by
  obtain ⟨h1, h2, h3, h4, -, h6, -⟩ := notify_effect h
  exact ⟨by rw [h1], h2, h3, ⟨_, notify_reactIn h⟩, h4,
    (notify_trace h).mono fun o => notifyEntry_imp_routeEntry hp, h6⟩

theorem enterState_route {n : NmtState} {s t : State} (h : enterState n s = .next t) :
    RouteEffect s t ∧ t.regs.nmt = n := by
  have e := notify_route (by rfl) h
  refine ⟨⟨?_, e.params, e.inputs, e.reactIn, e.xcfg, e.trace, e.diag⟩, by rw [(notify_effect h).1]; rfl⟩
  rw [e.regs]; rfl

theorem nmtApply_route {c : Byte} {s t : State} (h : nmtApply c s = .next t) :
    RouteEffect s t ∧ (∀ n, nmtTarget c = some n → t.regs.nmt = n) ∧ (nmtTarget c = none → t = s) := by
  unfold nmtApply at h
  split at h
  · rename_i n hn
    obtain ⟨e, ht⟩ := enterState_route h
    exact ⟨e, by simp [hn, ht], by simp [hn]⟩
  · rename_i hn
    cases h
    exact ⟨.refl _, by simp [hn], fun _ => rfl⟩

theorem enterState_completes {n : NmtState} {s : State} (hl : ListenersLawful s) : ∃ t, enterState n s = .next t :=
  notify_completes hl

theorem nmtApply_completes {c : Byte} {s : State} (hl : ListenersLawful s) : ∃ t, nmtApply c s = .next t := by
  unfold nmtApply
  split
  · exact enterState_completes hl
  · exact ⟨s, rfl⟩

theorem sdoLength_le (b : Byte) : sdoLength b ≤ 4 := by
  unfold sdoLength; split <;> omega

theorem ownNode_lt (s : State) : (ownNode s).toNat < 128 := by
  have := s.regs.own.isLt
  simp [ownNode]; omega

theorem nodeForMaster_lt {setting : ReplyNode} {own : Addr} {f : Frame} (h : f.id.toNat < 0x600) :
    (nodeForMaster setting own f).toNat < 128 := by
  have := own.isLt
  cases setting <;> simp only [nodeForMaster, BitVec.toNat_ofNat, BitVec.toNat_setWidth] <;> omega

theorem sdoRx_route {cat : Category} (hc : cat = .sdoReqRx ∨ cat = .sdoRpyRx) {f : Frame} {node : Byte}
    (hn : node.toNat < 128) {s t : State} (h : sdoRx cat f node s = .next t) : RouteEffect s t := by
  refine notify_route ?_ h
  rcases hc with rfl | rfl <;> simp [payloadOk, sdoDecode, sdoLength_le, hn]

theorem sdoRx_completes {cat : Category} {f : Frame} {node : Byte} {s : State} (hl : ListenersLawful s) :
    ∃ t, sdoRx cat f node s = .next t := notify_completes hl

/-! ## The seven predicates -/

theorem handled_eq_next {r : Result State} {x : Routed} : handled r = .next x ↔ ∃ t, r = .next t ∧ x = ⟨true, t⟩ := by
  cases r <;> simp [handled, eq_comm]

@[simp] theorem handled_next (s : State) : handled (.next s) = .next ⟨true, s⟩ := rfl

theorem handled_completes {r : Result State} (h : ∃ t, r = .next t) : ∃ x, handled r = .next x := by
  obtain ⟨t, rfl⟩ := h
  exact ⟨_, rfl⟩

theorem predicate1_effect {f : Frame} {r x : Routed} (h : predicate1 f r = .next x) :
    RouteEffect r.st x.st ∧ (x.st.regs.nmt ≠ r.st.regs.nmt → f.id = 0 ∧
      (f.data.b1 = r.st.regs.own.setWidth 8 ∨ f.data.b1 = 0) ∧ nmtTarget f.data.b0 = some x.st.regs.nmt) := by
  unfold predicate1 at h
  split at h
  · rename_i hid
    obtain ⟨t, ht, rfl⟩ := handled_eq_next.1 h
    split at ht
    · rename_i ha
      obtain ⟨e, h1, h2⟩ := nmtApply_route ht
      refine ⟨e, fun hne => ⟨hid, ha, ?_⟩⟩
      cases hn : nmtTarget f.data.b0 with
      | none => exact absurd (by rw [h2 hn]) hne
      | some n => rw [h1 n hn]
    · cases ht
      exact ⟨.refl _, fun hne => absurd rfl hne⟩
  · cases h
    exact ⟨.refl _, fun hne => absurd rfl hne⟩

theorem predicate2_effect {f : Frame} {r x : Routed} (h : predicate2 f r = .next x) :
    RouteEffect r.st x.st ∧ x.st.regs.nmt = r.st.regs.nmt := by
  unfold predicate2 at h
  split at h
  · obtain ⟨t, ht, rfl⟩ := handled_eq_next.1 h
    exact ⟨notify_route rfl ht, by rw [(notify_effect ht).1]⟩
  · cases h; exact ⟨.refl _, rfl⟩

theorem predicate3_effect {f : Frame} {r x : Routed} (h : predicate3 f r = .next x) :
    RouteEffect r.st x.st ∧ x.st.regs.nmt = r.st.regs.nmt := by
  unfold predicate3 at h
  split at h
  · obtain ⟨t, ht, rfl⟩ := handled_eq_next.1 h
    split at ht
    · exact ⟨notify_route rfl ht, by rw [(notify_effect ht).1]⟩
    · cases ht; exact ⟨.refl _, rfl⟩
  · cases h; exact ⟨.refl _, rfl⟩

theorem sdoRx_regs {cat : Category} {f : Frame} {node : Byte} {s t : State} (h : sdoRx cat f node s = .next t) :
    t.regs = s.regs := (notify_effect h).1

theorem predicate4_effect {f : Frame} {r x : Routed} (h : predicate4 f r = .next x) :
    RouteEffect r.st x.st ∧ x.st.regs.nmt = r.st.regs.nmt := by
  unfold predicate4 at h
  split at h
  · obtain ⟨t, ht, rfl⟩ := handled_eq_next.1 h
    exact ⟨sdoRx_route (.inl rfl) (ownNode_lt _) ht, by rw [sdoRx_regs ht]⟩
  · cases h; exact ⟨.refl _, rfl⟩

theorem predicate5_effect {f : Frame} {r x : Routed} (h : predicate5 f r = .next x) :
    RouteEffect r.st x.st ∧ x.st.regs.nmt = r.st.regs.nmt := by
  unfold predicate5 at h
  split at h
  · obtain ⟨t, ht, rfl⟩ := handled_eq_next.1 h
    exact ⟨sdoRx_route (.inr rfl) (ownNode_lt _) ht, by rw [sdoRx_regs ht]⟩
  · cases h; exact ⟨.refl _, rfl⟩

theorem filterLoop_effect {f : Frame} {l : List Addr} {r x : Routed} (h : filterLoop f l r = .next x) :
    RouteEffect r.st x.st ∧ x.st.regs.nmt = r.st.regs.nmt := by
  induction l generalizing r with
  | nil => cases h; exact ⟨.refl _, rfl⟩
  | cons a rest ih =>
    unfold filterLoop at h
    split at h
    · obtain ⟨y, hy, hx⟩ := andThen_eq_next.1 h
      obtain ⟨t, ht, rfl⟩ := handled_eq_next.1 hy
      have e := sdoRx_route (.inr rfl) (ownNode_lt _) ht
      obtain ⟨e', hn⟩ := ih hx
      exact ⟨e.trans e', by rw [hn]; simp [sdoRx_regs ht]⟩
    · exact ih h

/-- No filter entry hits: the loop does nothing. -/
theorem filterLoop_eq_self {f : Frame} {l : List Addr} {r : Routed} (h : ¬∃ e ∈ l, 0x580 + e.toNat = f.id.toNat) :
    filterLoop f l r = .next r := by
  induction l with
  | nil => rfl
  | cons a rest ih =>
    unfold filterLoop
    rw [if_neg fun hh => h ⟨a, by simp, hh.symm⟩]
    exact ih fun ⟨e, he, hx⟩ => h ⟨e, by simp [he], hx⟩

/-- With distinct entries, one of which hits, the loop handles the frame once. -/
theorem filterLoop_eq_handled {f : Frame} {l : List Addr} {r : Routed} (hn : l.Nodup)
    (h : ∃ e ∈ l, 0x580 + e.toNat = f.id.toNat) :
    filterLoop f l r = handled (sdoRx .sdoRpyRx f (ownNode r.st) r.st) := by
  induction l with
  | nil => simp at h
  | cons a rest ih =>
    unfold filterLoop
    obtain ⟨e, he, hx⟩ := h
    rw [List.nodup_cons] at hn
    by_cases hh : f.id.toNat = 0x580 + a.toNat
    · have hrest : filterLoop f rest = fun r => .next r := funext fun r => filterLoop_eq_self fun ⟨e, he, hx⟩ =>
        hn.1 ((show e = a from BitVec.eq_of_toNat_eq (by omega)) ▸ he)
      rw [if_pos hh, hrest, andThen_pure]
    · rw [if_neg hh]
      refine ih hn.2 ⟨e, (List.mem_cons.1 he).resolve_left ?_, hx⟩
      rintro rfl
      exact hh hx.symm

theorem predicate6_effect {f : Frame} {r x : Routed} (h : predicate6 f r = .next x) :
    RouteEffect r.st x.st ∧ x.st.regs.nmt = r.st.regs.nmt := by
  unfold predicate6 at h
  split at h
  · exact filterLoop_effect h
  · cases h; exact ⟨.refl _, rfl⟩

theorem predicate7_effect {f : Frame} {r x : Routed} (h : predicate7 f r = .next x) :
    RouteEffect r.st x.st ∧ x.st.regs.nmt = r.st.regs.nmt := by
  unfold predicate7 at h
  split at h
  · rename_i hc
    obtain ⟨t, ht, rfl⟩ := handled_eq_next.1 h
    exact ⟨sdoRx_route (.inr rfl) (nodeForMaster_lt hc.2.1) ht, by rw [sdoRx_regs ht]⟩
  · cases h; exact ⟨.refl _, rfl⟩

theorem finishDispatch_effect {r : Routed} {t : State} (h : finishDispatch r = .next t) :
    RouteEffect r.st t ∧ t.regs.nmt = r.st.regs.nmt := by
  simp only [finishDispatch, Host.Outcome.next.injEq] at h
  subst h
  split
  · exact ⟨.refl _, rfl⟩
  · exact ⟨⟨rfl, rfl, .refl _, ⟨0, rfl⟩, rfl, .of_trace_eq rfl, by simp [reportUnparsed]⟩, rfl⟩

/-- Everything a dispatch can do; it changes `nmt` only on an addressed frame with one of the four command bytes. -/
theorem dispatch_effect {f : Frame} {s t : State} (h : dispatch f s = .next t) :
    RouteEffect s t ∧ (t.regs.nmt ≠ s.regs.nmt → f.id = 0 ∧
      (f.data.b1 = s.regs.own.setWidth 8 ∨ f.data.b1 = 0) ∧ nmtTarget f.data.b0 = some t.regs.nmt) := by
  obtain ⟨r1, h1, h⟩ := andThen_eq_next.1 h
  obtain ⟨r2, h2, h⟩ := andThen_eq_next.1 h
  obtain ⟨r3, h3, h⟩ := andThen_eq_next.1 h
  obtain ⟨r4, h4, h⟩ := andThen_eq_next.1 h
  obtain ⟨r5, h5, h⟩ := andThen_eq_next.1 h
  obtain ⟨r6, h6, h⟩ := andThen_eq_next.1 h
  obtain ⟨r7, h7, h⟩ := andThen_eq_next.1 h
  obtain ⟨e1, n1⟩ := predicate1_effect h1
  obtain ⟨e2, n2⟩ := predicate2_effect h2
  obtain ⟨e3, n3⟩ := predicate3_effect h3
  obtain ⟨e4, n4⟩ := predicate4_effect h4
  obtain ⟨e5, n5⟩ := predicate5_effect h5
  obtain ⟨e6, n6⟩ := predicate6_effect h6
  obtain ⟨e7, n7⟩ := predicate7_effect h7
  obtain ⟨e8, n8⟩ := finishDispatch_effect h
  refine ⟨e1.trans (e2.trans (e3.trans (e4.trans (e5.trans (e6.trans (e7.trans e8)))))), ?_⟩
  rw [n8, n7, n6, n5, n4, n3, n2]
  exact n1

theorem predicate1_completes {f : Frame} {r : Routed} (hl : ListenersLawful r.st) : ∃ x, predicate1 f r = .next x := by
  unfold predicate1
  split
  · refine handled_completes ?_
    split
    · exact nmtApply_completes hl
    · exact ⟨_, rfl⟩
  · exact ⟨_, rfl⟩

theorem predicate2_completes {f : Frame} {r : Routed} (hl : ListenersLawful r.st) : ∃ x, predicate2 f r = .next x := by
  unfold predicate2
  split
  · exact handled_completes (notify_completes hl)
  · exact ⟨_, rfl⟩

theorem predicate3_completes {f : Frame} {r : Routed} (hl : ListenersLawful r.st) : ∃ x, predicate3 f r = .next x := by
  unfold predicate3
  split
  · refine handled_completes ?_
    split
    · exact notify_completes hl
    · exact ⟨_, rfl⟩
  · exact ⟨_, rfl⟩

theorem predicate4_completes {f : Frame} {r : Routed} (hl : ListenersLawful r.st) : ∃ x, predicate4 f r = .next x := by
  unfold predicate4
  split
  · exact handled_completes (sdoRx_completes hl)
  · exact ⟨_, rfl⟩

theorem predicate5_completes {f : Frame} {r : Routed} (hl : ListenersLawful r.st) : ∃ x, predicate5 f r = .next x := by
  unfold predicate5
  split
  · exact handled_completes (sdoRx_completes hl)
  · exact ⟨_, rfl⟩

theorem filterLoop_completes {f : Frame} {l : List Addr} {r : Routed} (hl : ListenersLawful r.st) :
    ∃ x, filterLoop f l r = .next x := by
  induction l generalizing r with
  | nil => exact ⟨r, rfl⟩
  | cons a rest ih =>
    unfold filterLoop
    split
    · obtain ⟨t, ht⟩ := sdoRx_completes (cat := .sdoRpyRx) (f := f) (node := ownNode r.st) hl
      have e := sdoRx_route (.inr rfl) (ownNode_lt _) ht
      simpa [ht] using ih (r := ⟨true, t⟩) (e.lawful hl)
    · exact ih hl

theorem predicate6_completes {f : Frame} {r : Routed} (hl : ListenersLawful r.st) : ∃ x, predicate6 f r = .next x := by
  unfold predicate6
  split
  · exact filterLoop_completes hl
  · exact ⟨_, rfl⟩

theorem predicate7_completes {f : Frame} {r : Routed} (hl : ListenersLawful r.st) : ∃ x, predicate7 f r = .next x := by
  unfold predicate7
  split
  · exact handled_completes (sdoRx_completes hl)
  · exact ⟨_, rfl⟩

/-- A dispatch returns if every listener does and issues send commands only. -/
theorem dispatch_completes {f : Frame} {s : State} (hl : ListenersLawful s) : ∃ t, dispatch f s = .next t := by
  obtain ⟨r1, h1⟩ := predicate1_completes (f := f) (r := ⟨false, s⟩) hl
  have l1 := (predicate1_effect h1).1.lawful hl
  obtain ⟨r2, h2⟩ := predicate2_completes (f := f) l1
  have l2 := (predicate2_effect h2).1.lawful l1
  obtain ⟨r3, h3⟩ := predicate3_completes (f := f) l2
  have l3 := (predicate3_effect h3).1.lawful l2
  obtain ⟨r4, h4⟩ := predicate4_completes (f := f) l3
  have l4 := (predicate4_effect h4).1.lawful l3
  obtain ⟨r5, h5⟩ := predicate5_completes (f := f) l4
  have l5 := (predicate5_effect h5).1.lawful l4
  obtain ⟨r6, h6⟩ := predicate6_completes (f := f) l5
  have l6 := (predicate6_effect h6).1.lawful l5
  obtain ⟨r7, h7⟩ := predicate7_completes (f := f) l6
  exact ⟨_, by simp only [dispatch, h1, h2, h3, h4, h5, h6, h7, andThen_next]; rfl⟩

/-! ## The timer check -/

/-- What a heartbeat emission can do. -/
theorem hbEmit_effect (s : State) : SendEffect s (hbEmit s) := by
  refine tx_diagIf_effect ?_ _ _
  have hne : (hbFrame s.regs.own (hbCode s.params.hbResetByte s.regs.nmt)).id ≠ 0 :=
    idFrom_ne_zero (by decide) (by decide) _
  simp only [sendEntry, bne_iff_ne.2 hne, Bool.or_true, Bool.and_true]
  rfl

/-- What a timer check can do: as a send, and `hb_last` may take the clock's value. -/
theorem hbTick_effect (t : Time) (s : State) :
    (hbTick t s).regs = { s.regs with hbLast := (hbTick t s).regs.hbLast } ∧ (hbTick t s).params = s.params ∧
    (hbTick t s).env.reactIn = s.env.reactIn ∧ (hbTick t s).env.cmd = s.env.cmd ∧
    (hbTick t s).out.xcfg = s.out.xcfg ∧ Extends (sendEntry s.regs.role) s (hbTick t s) ∧
    s.out.diag <+: (hbTick t s).out.diag := by
  unfold hbTick
  split
  · have e := hbEmit_effect (s.setHbLast t)
    exact ⟨by rw [e.regs]; rfl, e.params, e.reactIn, e.inputs.1, e.xcfg, e.trace, e.diag⟩
  · exact ⟨rfl, rfl, rfl, rfl, rfl, .refl _ _, List.prefix_refl _⟩

/-! ## Every operation but `INIT` -/

/-- Everything an operation other than `INIT` can do: the configuration registers and the parameters stay; each other register
stays unless the operation is its writer; reactions are taken in order; the histories grow, `tx`, `ev` and statuses by
`routeEntry` entries. -/
structure ExecEffect (i : Instr) (s t : State) : Prop where
  own : t.regs.own = s.regs.own
  role : t.regs.role = s.regs.role
  hbInterval : t.regs.hbInterval = s.regs.hbInterval
  debug : t.regs.debug = s.regs.debug
  ready : t.regs.ready = s.regs.ready
  params : t.params = s.params
  bootDone : i ≠ .nmtBootdone → t.regs.bootDone = s.regs.bootDone
  hbLast : i ≠ .poll → t.regs.hbLast = s.regs.hbLast
  filt : (∀ a, i ≠ .filterAdd a) → t.regs.filt = s.regs.filt
  lst : (∀ c h, i ≠ .listenerReg c h) → t.regs.lst = s.regs.lst
  reactIn : ∃ n, t.env.reactIn = s.env.reactIn.drop n
  trace : Extends (routeEntry s.regs.role s.regs.lst) s t
  diag : s.out.diag <+: t.out.diag
  xcfg : s.out.xcfg <+: t.out.xcfg

theorem sendEntry_imp_routeEntry {role : Role} {lst : ListenerTable} {o : Obs} (h : sendEntry role o = true) :
    routeEntry role lst o = true := by
  cases o <;> simp_all [routeEntry, sendEntry]

theorem RouteEffect.exec {i : Instr} {s t : State} (h : RouteEffect s t) : ExecEffect i s t where
  own := h.own
  role := h.role
  hbInterval := by rw [h.regs]
  debug := by rw [h.regs]
  ready := h.ready
  params := h.params
  bootDone _ := by rw [h.regs]
  hbLast _ := by rw [h.regs]
  filt _ := h.filt
  lst _ := h.lst
  reactIn := h.reactIn
  trace := h.trace
  diag := h.diag
  xcfg := by rw [h.xcfg]

theorem SendEffect.exec {i : Instr} {s t : State} (h : SendEffect s t) : ExecEffect i s t :=
  RouteEffect.exec ⟨by rw [h.regs], h.params, h.inputs, ⟨0, by rw [h.reactIn]; rfl⟩, h.xcfg,
    h.trace.mono fun _ => sendEntry_imp_routeEntry, h.diag⟩

theorem receive_effect {s t : State} (h : receive s = .next t) :
    t.regs = { s.regs with nmt := t.regs.nmt } ∧ t.params = s.params ∧ (∃ n, t.env.reactIn = s.env.reactIn.drop n) ∧
    t.out.xcfg = s.out.xcfg ∧ Extends (routeEntry s.regs.role s.regs.lst) s t ∧ s.out.diag <+: t.out.diag := by
  unfold receive at h
  split at h
  · have e := (dispatch_effect h).1
    refine ⟨by simpa using e.regs, by simpa using e.params, by simpa using e.reactIn, by simpa using e.xcfg, ?_, by simpa using e.diag⟩
    obtain ⟨new, hn, hp⟩ := e.trace
    exact ⟨new, by simpa using hn, by simpa using hp⟩
  · cases h
    exact ⟨by simp, by simp, ⟨0, by simp⟩, by simp, .of_trace_eq (by simp), by simp⟩

theorem drain_effect {s t : State} (h : drain s = .next t) :
    t.regs = { s.regs with nmt := t.regs.nmt } ∧ t.params = s.params ∧ (∃ n, t.env.reactIn = s.env.reactIn.drop n) ∧
    t.out.xcfg = s.out.xcfg ∧ Extends (routeEntry s.regs.role s.regs.lst) s t ∧ s.out.diag <+: t.out.diag := by
  unfold drain at h
  split at h
  · obtain ⟨h1, h2, h3, h4, ⟨new, hn, hp⟩, h6⟩ := receive_effect h
    exact ⟨by simpa using h1, by simpa using h2, by simpa using h3, by simpa using h4, ⟨new, by simpa using hn, by simpa using hp⟩,
      by simpa using h6⟩
  · cases h
    exact ⟨by simp, by simp, ⟨0, by simp⟩, by simp, .of_trace_eq (by simp), by simp⟩

theorem receive_completes {s : State} (hl : ListenersLawful s) : ∃ t, receive s = .next t := by
  unfold receive
  split
  · exact dispatch_completes (by simpa [ListenersLawful] using hl)
  · exact ⟨_, rfl⟩

theorem drain_completes {s : State} (hl : ListenersLawful s) : ∃ t, drain s = .next t := by
  unfold drain
  split
  · exact receive_completes (by simpa [ListenersLawful] using hl)
  · exact ⟨_, rfl⟩

/-- What the timer check of `POLL` can do. -/
theorem checkTimer_effect (s : State) :
    (checkTimer s).regs = { s.regs with hbLast := (checkTimer s).regs.hbLast } ∧ (checkTimer s).params = s.params ∧
    (checkTimer s).env.reactIn = s.env.reactIn ∧ (checkTimer s).out.xcfg = s.out.xcfg ∧
    Extends (sendEntry s.regs.role) s (checkTimer s) ∧ s.out.diag <+: (checkTimer s).out.diag := by
  unfold checkTimer
  obtain ⟨h1, h2, h3, -, h5, ⟨new, hn, hp⟩, h7⟩ := hbTick_effect (now s).1 (now s).2
  exact ⟨by simpa using h1, by simpa using h2, by simpa using h3, by simpa using h5, ⟨new, by simpa using hn, by simpa using hp⟩,
    by simpa using h7⟩

theorem enterState_exec {i : Instr} {n : NmtState} {s t : State} (h : enterState n s = .next t) : ExecEffect i s t :=
  (enterState_route h).1.exec

/-- The inversion lemma of `exec`. -/
theorem exec_effect {i : Instr} {s t : State} (hi : ∀ a r h d, i ≠ .init a r h d) (h : exec i s = .next t) :
    ExecEffect i s t := by
  cases i with
  | nmtStart f => exact enterState_exec (whenSelected_eq_next.1 h).2.2
  | nmtStop f => exact enterState_exec (whenSelected_eq_next.1 h).2.2
  | nmtPreop f => exact enterState_exec (whenSelected_eq_next.1 h).2.2
  | nmtReset f => exact enterState_exec (whenSelected_eq_next.1 h).2.2
  | nmtIgn f =>
    cases (whenSelected_eq_next.1 h).2.2
    exact (RouteEffect.refl _).exec
  | pdoRx f => exact (notify_route rfl (whenSelected_eq_next.1 h).2.2).exec
  | hbRx f => exact (notify_route rfl (whenSelected_eq_next.1 h).2.2).exec
  | sdoReqRx f => exact (sdoRx_route (.inl rfl) (ownNode_lt _) (whenSelected_eq_next.1 h).2.2).exec
  | sdoRpyRxOwn f => exact (sdoRx_route (.inr rfl) (ownNode_lt _) (whenSelected_eq_next.1 h).2.2).exec
  | sdoRpyRxFlt f => exact (sdoRx_route (.inr rfl) (ownNode_lt _) (whenSelected_eq_next.1 h).2.2).exec
  | sdoRpyRxMst f =>
    obtain ⟨-, hs, ht⟩ := whenSelected_eq_next.1 h
    exact (sdoRx_route (.inr rfl) (nodeForMaster_lt (selected_sdoRpyRxMst.1 hs).1.2) ht).exec
  | unparsed f =>
    cases (whenSelected_eq_next.1 h).2.2
    exact ⟨rfl, rfl, rfl, rfl, rfl, rfl, fun _ => rfl, fun _ => rfl, fun _ => rfl, fun _ => rfl, ⟨0, rfl⟩, .of_trace_eq rfl,
      by simp [reportUnparsed], List.prefix_refl _⟩
  | init a r hb d => exact absurd rfl (hi a r hb d)
  | listenerReg c hd =>
    cases (whenReady_eq_next.1 h).2
    unfold listenerReg
    split
    · exact ⟨rfl, rfl, rfl, rfl, rfl, rfl, fun _ => rfl, fun _ => rfl, fun _ => rfl, fun hh => absurd rfl (hh c hd), ⟨0, rfl⟩,
        .of_trace_eq rfl, List.prefix_refl _, List.prefix_refl _⟩
    · exact (RouteEffect.refl _).exec
  | filterAdd a =>
    cases (whenReady_eq_next.1 h).2
    unfold filterAdd
    dsimp only
    split
    · exact (RouteEffect.refl _).exec
    · exact ⟨rfl, rfl, rfl, rfl, rfl, rfl, fun _ => rfl, fun _ => rfl, fun hh => absurd rfl (hh a), fun _ => rfl, ⟨0, rfl⟩,
        .of_trace_eq rfl, List.prefix_refl _, by simp⟩
  | sdoSendReq d => cases (whenReady_eq_next.1 h).2; exact (sdoSendReq_effect d s).exec
  | sdoSendRsp d => cases (whenReady_eq_next.1 h).2; exact (sdoSendRsp_effect d s).exec
  | pdoSend id l p => cases (whenReady_eq_next.1 h).2; exact (pdoSend_effect id l p s).exec
  | nmtSend cs tg => cases (whenReady_eq_next.1 h).2; exact (nmtSend_effect cs tg s).exec
  | poll =>
    obtain ⟨u, hu, ht⟩ := andThen_eq_next.1 (whenReady_eq_next.1 h).2
    cases ht
    obtain ⟨h1, h2, h3, h4, h5, h6⟩ := drain_effect hu
    obtain ⟨g1, g2, g3, g4, g5, g6⟩ := checkTimer_effect u
    have hr : u.regs.role = s.regs.role := by rw [h1]
    refine ⟨by rw [g1, h1], by rw [g1, h1], by rw [g1, h1], by rw [g1, h1], by rw [g1, h1], g2.trans h2, fun _ => by rw [g1, h1],
      fun hh => absurd rfl hh, fun _ => by rw [g1, h1], fun _ => by rw [g1, h1], by rw [g3]; exact h3,
      h5.trans ((hr ▸ g5).mono fun _ => sendEntry_imp_routeEntry), h6.trans g6, by rw [g4, h4]⟩
  | rxirq =>
    obtain ⟨h1, h2, h3, h4, h5, h6⟩ := receive_effect (whenReady_eq_next.1 h).2
    exact ⟨by rw [h1], by rw [h1], by rw [h1], by rw [h1], by rw [h1], h2, fun _ => by rw [h1], fun _ => by rw [h1], fun _ => by rw [h1],
      fun _ => by rw [h1], h3, h5, h6, by rw [h4]⟩
  | nmtBootdone =>
    have h := (whenReady_eq_next.1 h).2
    split at h
    · unfold bootdone at h
      split at h
      · have e := (enterState_route h).1
        exact ⟨e.own, e.role, by rw [e.regs]; rfl, by rw [e.regs]; rfl, e.ready, e.params, fun hh => absurd rfl hh,
          fun _ => by rw [e.regs]; rfl, fun _ => e.filt, fun _ => e.lst, e.reactIn, e.trace, e.diag, by rw [e.xcfg]; rfl⟩
      · cases h
        exact ⟨rfl, rfl, rfl, rfl, rfl, rfl, fun hh => absurd rfl hh, fun _ => rfl, fun _ => rfl, fun _ => rfl, ⟨0, rfl⟩,
          .of_trace_eq rfl, List.prefix_refl _, List.prefix_refl _⟩
    · cases h

/-- `INIT` that answered a next state. -/
theorem init_effect {a : Nat} {r : Role} {hb : Time} {d : Bool} {s t : State} (h : exec (.init a r hb d) s = .next t) :
    1 ≤ a ∧ a ≤ 127 ∧ t.regs = initRegs s.params a r hb d ∧ t.params = s.params ∧ t.env = s.env ∧
    t.out.trace = s.out.trace ∧ t.out.diag = s.out.diag ∧ s.out.xcfg <+: t.out.xcfg := by
  simp only [exec, execInit] at h
  split at h
  · rename_i ha
    cases h
    exact ⟨ha.1, ha.2, rfl, rfl, rfl, rfl, rfl, by simp⟩
  · cases h

end Sys2Proof.Machine
end

