-- ==== Sys2Proof/Laws/PerInstr.lean ====
section
/-! SUPPORT. Statements made for every instruction, one lemma per constructor (LAWS.json). `EncodeShape`: the record of an
operation has the length of its port's records. -/

namespace Sys2Proof

/-- The number of bytes of a record on each port (log entry 1). -/
def recordBytes : Port → Nat
  | .cmd => 20
  | .rx => 11

/-- The operation's record has the length of the records of its port. -/
def Laws.EncodeShape.Statement (i : Instr) : Prop := (encode i).length = recordBytes i.port

open Laws.EncodeShape (Statement)

theorem Laws.EncodeShape.nmtStart (f : Frame) : Statement (.nmtStart f) := rfl
theorem Laws.EncodeShape.nmtStop (f : Frame) : Statement (.nmtStop f) := rfl
theorem Laws.EncodeShape.nmtPreop (f : Frame) : Statement (.nmtPreop f) := rfl
theorem Laws.EncodeShape.nmtReset (f : Frame) : Statement (.nmtReset f) := rfl
theorem Laws.EncodeShape.nmtIgn (f : Frame) : Statement (.nmtIgn f) := rfl
theorem Laws.EncodeShape.pdoRx (f : Frame) : Statement (.pdoRx f) := rfl
theorem Laws.EncodeShape.hbRx (f : Frame) : Statement (.hbRx f) := rfl
theorem Laws.EncodeShape.sdoReqRx (f : Frame) : Statement (.sdoReqRx f) := rfl
theorem Laws.EncodeShape.sdoRpyRxOwn (f : Frame) : Statement (.sdoRpyRxOwn f) := rfl
theorem Laws.EncodeShape.sdoRpyRxFlt (f : Frame) : Statement (.sdoRpyRxFlt f) := rfl
theorem Laws.EncodeShape.sdoRpyRxMst (f : Frame) : Statement (.sdoRpyRxMst f) := rfl
theorem Laws.EncodeShape.unparsed (f : Frame) : Statement (.unparsed f) := rfl
theorem Laws.EncodeShape.init (ownAddr : Nat) (role : Role) (hbInterval : Time) (debug : Bool) :
    Statement (.init ownAddr role hbInterval debug) := rfl
theorem Laws.EncodeShape.listenerReg (cat : Category) (h : Handle) : Statement (.listenerReg cat h) := rfl
theorem Laws.EncodeShape.filterAdd (addr : Nat) : Statement (.filterAdd addr) := rfl
theorem Laws.EncodeShape.sdoSendReq (d : Descriptor) : Statement (.sdoSendReq d) := rfl
theorem Laws.EncodeShape.sdoSendRsp (d : Descriptor) : Statement (.sdoSendRsp d) := rfl
theorem Laws.EncodeShape.pdoSend (id length : Nat) (p : Bytes8) : Statement (.pdoSend id length p) := rfl
theorem Laws.EncodeShape.nmtSend (cs : Byte) (target : Nat) : Statement (.nmtSend cs target) := rfl
theorem Laws.EncodeShape.poll : Statement .poll := rfl
theorem Laws.EncodeShape.rxirq : Statement .rxirq := rfl
theorem Laws.EncodeShape.nmtBootdone : Statement .nmtBootdone := rfl

end Sys2Proof
end

