-- ==== Sys2Proof/Tests/Slice0.lean ====
section
/-! SUPPORT. The model's own tests: ill-formed terms that WellFormed refuses, records written out by hand that decode to their
operations, one-step checks whose expected results come from spec/95_test_vectors.md and spec/96_test_programs.md, and for every
statement with hypotheses a concrete state and operands that meet them. -/

namespace Sys2Proof.Tests
open Sys2Proof Sys2Proof.Machine

/-! ## Small states and frames -/

/-- A frame with `ext` and `rtr` 0. -/
def frame (id : CanId) (dlc : Fin 9) (d : Bytes8) : Frame := { id := id, ext := false, rtr := false, dlc := dlc, data := d }

/-- A two-byte frame of identifier 0. -/
def nmtCommand (cs target : Byte) : Frame := frame 0 2 ⟨cs, target, 0, 0, 0, 0, 0, 0⟩

/-- An engine after `INIT`, with nothing registered; the transport answers `ok` twice. -/
def engine (own : Addr) (role : Role) : State :=
  { regs :=
      { own := own, role := role, nmt := initialNmt role, bootDone := false, hbInterval := 1000, hbLast := 0, debug := false,
        filt := [], lst := .empty, ready := true }
    params := { hbLastReset := 0, hbResetByte := 0xEE, replyNode := .source }
    env := { Env.idle with txIn := [.ok, .ok] }
    out := { trace := [], diag := [], xcfg := [] } }

def slave5 : State := engine 5 .slave
def slave10 : State := engine 0x10 .slave
def master1 : State := engine 1 .master

def withFilter (l : List Addr) (s : State) : State := { s with regs := { s.regs with filt := l } }
def withListener (c : Category) (h : Handle) (s : State) : State := { s with regs := { s.regs with lst := s.regs.lst.append c h } }
def withDebug (s : State) : State := { s with regs := { s.regs with debug := true } }
def withReactions (l : List Reaction) (s : State) : State := { s with env := { s.env with reactIn := l } }
def withAnswer (r : TxResult) (s : State) : State := { s with env := { s.env with txIn := [r] } }
def withRx (l : List (Option Frame)) (s : State) : State := { s with env := { s.env with rxIn := l } }

/-- The result is a next state with this property. -/
def leaves (r : Result State) (p : State → Bool) : Bool :=
  match r with
  | .next s => p s
  | .fault _ => false
  | .refused _ => false

/-- The result is this refusal. -/
def refuses (r : Result State) (e : Refusal) : Bool :=
  match r with
  | .next _ => false
  | .fault _ => false
  | .refused x => x == e

/-! ## WellFormed refuses -/

theorem test_wf_nmt_wrong_identifier :
    (Instr.nmtStart (frame 1 2 ⟨1, 0, 0, 0, 0, 0, 0, 0⟩)).wf = false ∧ (Instr.nmtStop (frame 1 2 ⟨2, 0, 0, 0, 0, 0, 0, 0⟩)).wf = false ∧
    (Instr.nmtPreop (frame 1 2 ⟨0x80, 0, 0, 0, 0, 0, 0, 0⟩)).wf = false ∧
    (Instr.nmtReset (frame 1 2 ⟨0x81, 0, 0, 0, 0, 0, 0, 0⟩)).wf = false ∧ (Instr.nmtIgn (frame 0x180 2 .zero)).wf = false := by
  decide

theorem test_wf_nmt_wrong_command :
    (Instr.nmtStart (nmtCommand 2 0)).wf = false ∧ (Instr.nmtStop (nmtCommand 1 0)).wf = false ∧
    (Instr.nmtPreop (nmtCommand 0x81 0)).wf = false ∧ (Instr.nmtReset (nmtCommand 0x80 0)).wf = false := by decide

theorem test_wf_pdo_outside_range :
    (Instr.pdoRx (frame 0x17F 0 .zero)).wf = false ∧ (Instr.pdoRx (frame 0x580 0 .zero)).wf = false := by decide

theorem test_wf_heartbeat_at_lower_bound : (Instr.hbRx (frame 0x700 1 .zero)).wf = false := by decide

theorem test_wf_sdo_request_outside_range :
    (Instr.sdoReqRx (frame 0x5FF 8 .zero)).wf = false ∧ (Instr.sdoReqRx (frame 0x680 8 .zero)).wf = false := by decide

theorem test_wf_sdo_reply_outside_range :
    (Instr.sdoRpyRxOwn (frame 0x57F 8 .zero)).wf = false ∧ (Instr.sdoRpyRxOwn (frame 0x600 8 .zero)).wf = false ∧
    (Instr.sdoRpyRxFlt (frame 0x57F 8 .zero)).wf = false ∧ (Instr.sdoRpyRxFlt (frame 0x600 8 .zero)).wf = false ∧
    (Instr.sdoRpyRxMst (frame 0x57F 8 .zero)).wf = false ∧ (Instr.sdoRpyRxMst (frame 0x600 8 .zero)).wf = false := by decide

theorem test_wf_unparsed_that_is_matched :
    (Instr.unparsed (frame 0 2 .zero)).wf = false ∧ (Instr.unparsed (frame 0x180 0 .zero)).wf = false ∧
    (Instr.unparsed (frame 0x57F 0 .zero)).wf = false ∧ (Instr.unparsed (frame 0x701 0 .zero)).wf = false := by decide

theorem test_wf_integer_operand_too_wide :
    (Instr.init 4294967296 .slave 0 false).wf = false ∧ (Instr.listenerReg .hbRx 4294967296).wf = false ∧
    (Instr.filterAdd 4294967296).wf = false ∧ (Instr.sdoSendReq ⟨5, 0x40, 0, 0, 4294967296, .zero⟩).wf = false ∧
    (Instr.sdoSendRsp ⟨5, 0x40, 0, 0, 4294967296, .zero⟩).wf = false ∧
    (Instr.pdoSend 4294967296 0 .zero).wf = false ∧ (Instr.pdoSend 0x181 4294967296 .zero).wf = false ∧
    (Instr.nmtSend 1 4294967296).wf = false := by decide

/-! ## Decoding, from records written out by hand

A frame's record is `data[0]`, identifier low byte, identifier high bits (with `ext` and `rtr` above), `dlc`, `data[1..7]`; the
frames are those of spec/95_test_vectors.md, V-DISP-1 and sections 40 to 44's examples. -/

theorem test_decode_nmt :
    decode ⟨0x10, .slave, []⟩ .rx [0x01, 0x00, 0x00, 2, 0x10, 0, 0, 0, 0, 0, 0] = .instr (.nmtStart (nmtCommand 0x01 0x10)) ∧
    decode ⟨0x10, .slave, []⟩ .rx [0x02, 0x00, 0x00, 2, 0x00, 0, 0, 0, 0, 0, 0] = .instr (.nmtStop (nmtCommand 0x02 0x00)) ∧
    decode ⟨0x10, .master, []⟩ .rx [0x80, 0x00, 0x00, 2, 0x00, 0, 0, 0, 0, 0, 0] = .instr (.nmtPreop (nmtCommand 0x80 0x00)) ∧
    decode ⟨0x10, .slave, []⟩ .rx [0x81, 0x00, 0x00, 2, 0x10, 0, 0, 0, 0, 0, 0] = .instr (.nmtReset (nmtCommand 0x81 0x10)) := by
  decide

theorem test_decode_nmt_ignored :
    decode ⟨0x10, .slave, []⟩ .rx [0x82, 0x00, 0x00, 2, 0x10, 0, 0, 0, 0, 0, 0] = .instr (.nmtIgn (nmtCommand 0x82 0x10)) ∧
    decode ⟨0x10, .slave, []⟩ .rx [0x02, 0x00, 0x00, 2, 0x90, 0, 0, 0, 0, 0, 0] = .instr (.nmtIgn (nmtCommand 0x02 0x90)) := by
  decide

theorem test_decode_pdo :
    decode ⟨5, .slave, []⟩ .rx [0x01, 0x01, 0x02, 3, 0x02, 0x03, 0, 0, 0, 0, 0] =
      .instr (.pdoRx (frame 0x201 3 ⟨1, 2, 3, 0, 0, 0, 0, 0⟩)) ∧
    decode ⟨5, .master, []⟩ .rx [0x00, 0x7F, 0x1D, 0, 0, 0, 0, 0, 0, 0, 0] =
      .instr (.pdoRx { id := 0x57F, ext := true, rtr := true, dlc := 0, data := .zero }) := by decide

theorem test_decode_heartbeat :
    decode ⟨5, .slave, [0x0A]⟩ .rx [0x05, 0x0A, 0x07, 1, 0, 0, 0, 0, 0, 0, 0] =
      .instr (.hbRx (frame 0x70A 1 ⟨5, 0, 0, 0, 0, 0, 0, 0⟩)) ∧
    decode ⟨5, .slave, [0x0A]⟩ .rx [0x05, 0x8A, 0x07, 1, 0, 0, 0, 0, 0, 0, 0] = .rejected .matchedDropped := by decide

theorem test_decode_sdo :
    decode ⟨5, .master, []⟩ .rx [0x40, 0x05, 0x06, 8, 0x18, 0x10, 0x01, 0, 0, 0, 0] =
      .instr (.sdoReqRx (frame 0x605 8 ⟨0x40, 0x18, 0x10, 1, 0, 0, 0, 0⟩)) ∧
    decode ⟨5, .slave, [0x0A]⟩ .rx [0x60, 0x85, 0x05, 8, 0, 0x20, 1, 0, 0, 0, 0] =
      .instr (.sdoRpyRxOwn (frame 0x585 8 ⟨0x60, 0, 0x20, 1, 0, 0, 0, 0⟩)) ∧
    decode ⟨5, .slave, [0x0A]⟩ .rx [0x4B, 0x8A, 0x05, 8, 0, 0x20, 0, 0x34, 0x12, 0, 0] =
      .instr (.sdoRpyRxFlt (frame 0x58A 8 ⟨0x4B, 0, 0x20, 0, 0x34, 0x12, 0, 0⟩)) ∧
    decode ⟨5, .master, []⟩ .rx [0x43, 0x85, 0x05, 8, 0x18, 0x10, 1, 0x78, 0x56, 0x34, 0x12] =
      .instr (.sdoRpyRxMst (frame 0x585 8 ⟨0x43, 0x18, 0x10, 1, 0x78, 0x56, 0x34, 0x12⟩)) := by decide

theorem test_decode_unparsed :
    decode ⟨5, .slave, [0x0A]⟩ .rx [0, 0x80, 0, 0, 0, 0, 0, 0, 0, 0, 0] = .instr (.unparsed (frame 0x080 0 .zero)) ∧
    decode ⟨5, .slave, [0x0A]⟩ .rx [0, 0x8B, 0x05, 0, 0, 0, 0, 0, 0, 0, 0] = .instr (.unparsed (frame 0x58B 0 .zero)) ∧
    decode ⟨5, .master, []⟩ .rx [0, 0x00, 0x07, 0, 0, 0, 0, 0, 0, 0, 0] = .instr (.unparsed (frame 0x700 0 .zero)) := by decide

/-- The boundary column of V-DISP-1 for the master of own address 5, as rejections and rows. -/
theorem test_decode_boundaries_master :
    ([0x001, 0x17F, 0x600, 0x604, 0x606, 0x67F, 0x680, 0x6FF, 0x700].all fun n =>
      decodeFrame ⟨5, .master, []⟩ (frame (BitVec.ofNat 11 n) 1 .zero) ==
        .instr (.unparsed (frame (BitVec.ofNat 11 n) 1 .zero))) = true ∧
    ([0x580, 0x585, 0x5FF].all fun n =>
      decodeFrame ⟨5, .master, []⟩ (frame (BitVec.ofNat 11 n) 1 .zero) ==
        .instr (.sdoRpyRxMst (frame (BitVec.ofNat 11 n) 1 .zero))) = true ∧
    ([0x701, 0x705, 0x7FF].all fun n =>
      decodeFrame ⟨5, .master, []⟩ (frame (BitVec.ofNat 11 n) 1 .zero) ==
        .instr (.hbRx (frame (BitVec.ofNat 11 n) 1 .zero))) = true := by decide

/-- The selectors of spec/30_encoding.md R92 with operands at their places (log entry 1). -/
theorem test_decode_registrations :
    decodeHost [0, 1, 1, 0, 0x10, 0, 0, 0, 0xE8, 0x03, 0, 0, 0, 0, 0, 0, 0, 0, 0, 0] = .instr (.init 0x10 .slave 1000 true) ∧
    decodeHost [1, 3, 0, 0, 7, 0, 0, 0, 0, 0, 0, 0, 0, 0, 0, 0, 0, 0, 0, 0] = .instr (.listenerReg .sdoRpyRx 7) ∧
    decodeHost [2, 0, 0, 0, 0x8A, 0, 0, 0, 0, 0, 0, 0, 0, 0, 0, 0, 0, 0, 0, 0] = .instr (.filterAdd 0x8A) := by decide

theorem test_decode_sends :
    decodeHost [3, 5, 0x40, 1, 0x18, 0x10, 0, 0, 0, 0, 0, 0, 0, 0, 0, 0, 0, 0, 0, 0] =
      .instr (.sdoSendReq ⟨5, 0x40, 0x1018, 1, 0, .zero⟩) ∧
    decodeHost [4, 0, 0x40, 1, 0x18, 0x10, 0, 0, 2, 0, 0, 0, 0x34, 0x12, 0, 0, 0, 0, 0, 0] =
      .instr (.sdoSendRsp ⟨0, 0x40, 0x1018, 1, 2, ⟨0x34, 0x12, 0, 0⟩⟩) ∧
    decodeHost [5, 0, 0, 0, 0x81, 0x01, 0, 0, 2, 0, 0, 0, 0x11, 0x22, 0, 0, 0, 0, 0, 0] =
      .instr (.pdoSend 0x181 2 ⟨0x11, 0x22, 0, 0, 0, 0, 0, 0⟩) ∧
    decodeHost [6, 0x81, 0, 0, 0x10, 0, 0, 0, 0, 0, 0, 0, 0, 0, 0, 0, 0, 0, 0, 0] = .instr (.nmtSend 0x81 0x10) := by decide

theorem test_decode_entry_points :
    decodeHost [7, 0, 0, 0, 0, 0, 0, 0, 0, 0, 0, 0, 0, 0, 0, 0, 0, 0, 0, 0] = .instr .poll ∧
    decodeHost [8, 0, 0, 0, 0, 0, 0, 0, 0, 0, 0, 0, 0, 0, 0, 0, 0, 0, 0, 0] = .instr .rxirq ∧
    decodeHost [9, 0, 0, 0, 0, 0, 0, 0, 0, 0, 0, 0, 0, 0, 0, 0, 0, 0, 0, 0] = .instr .nmtBootdone := by decide

/-- Every reason the decoder has to reject a record, but `ambiguous`, which no record has (R131). -/
theorem test_decode_rejections :
    decodeHost [7] = .rejected .recordLength ∧
    decodeHost [10, 0, 0, 0, 0, 0, 0, 0, 0, 0, 0, 0, 0, 0, 0, 0, 0, 0, 0, 0] = .rejected .noSuchOperation ∧
    decodeHost [1, 5, 0, 0, 0, 0, 0, 0, 0, 0, 0, 0, 0, 0, 0, 0, 0, 0, 0, 0] = .rejected .noSuchCategory ∧
    decode ⟨5, .slave, []⟩ .rx [0, 0, 0, 9, 0, 0, 0, 0, 0, 0, 0] = .rejected .dataLength ∧
    decode ⟨5, .slave, []⟩ .rx [0] = .rejected .recordLength ∧
    decode ⟨5, .slave, []⟩ .rx [5, 0x0B, 0x07, 1, 0, 0, 0, 0, 0, 0, 0] = .rejected .matchedDropped := by decide

/-! ## One step of each operation -/

/-- S8: `INIT` of a slave and of a master. -/
theorem test_init :
    leaves (exec (.init 0x10 .slave 1000 false) (withFilter [3] (withListener .pdoRx 7 master1))) (fun s =>
      s.regs.own == 0x10 && s.regs.role == .slave && s.regs.nmt == .bootup && !s.regs.bootDone && s.regs.hbInterval == 1000 &&
      s.regs.filt == [] && s.regs.lst.slots .pdoRx == []) = true ∧
    leaves (exec (.init 0x01 .master 1000 false) State.powerOn) (fun s => s.regs.nmt == .operational) = true := by decide

theorem test_init_refused :
    refuses (exec (.init 0 .slave 1000 false) slave5) .illegalOwnAddress = true ∧
    refuses (exec (.init 128 .slave 1000 false) slave5) .illegalOwnAddress = true := by decide

/-- S9, S5: addressed commands, one event each. -/
theorem test_nmtReset :
    leaves (exec .rxirq (withRx [some (nmtCommand 0x81 0x10)] (withListener .stateChange 7 slave10))) (fun s =>
      s.regs.nmt == .reset && s.out.events == [⟨.stateChange, 0, 7, .state .reset⟩]) = true := by decide

theorem test_nmtStart :
    leaves (exec (.nmtStart (nmtCommand 0x01 0x00)) (withListener .stateChange 7 slave10)) (fun s =>
      s.regs.nmt == .operational && s.out.events == [⟨.stateChange, 0, 7, .state .operational⟩]) = true := by decide

/-- V-NMT-2: a master obeys a broadcast; a self-transition notifies (V-NMT-1, decision D7). -/
theorem test_nmtStop :
    leaves (exec (.nmtStop (nmtCommand 0x02 0x00)) (withListener .stateChange 7 (master1.setNmt .stopped))) (fun s =>
      s.regs.nmt == .stopped && s.out.events == [⟨.stateChange, 0, 7, .state .stopped⟩]) = true := by decide

theorem test_nmtPreop :
    leaves (exec (.nmtPreop (nmtCommand 0x80 0x01)) master1) (fun s => s.regs.nmt == .preOperational) = true := by decide

/-- V-NMT-2: target 0x90 does not address node 0x10. -/
theorem test_nmtIgn :
    leaves (exec .rxirq (withRx [some (nmtCommand 0x02 0x90)] (withDebug (withListener .stateChange 7 slave10)))) (fun s =>
      s.regs.nmt == .bootup && s.out.trace == [] && s.out.diag == []) = true := by decide

/-- V-NMT-3 (a), (b). -/
theorem test_nmtBootdone :
    leaves (exec .nmtBootdone (withListener .stateChange 7 slave10)) (fun s =>
      s.regs.nmt == .preOperational && s.regs.bootDone && s.out.events == [⟨.stateChange, 0, 7, .state .preOperational⟩]) = true ∧
    leaves (exec .nmtBootdone (withListener .stateChange 7 (slave10.setNmt .operational))) (fun s =>
      s.regs.nmt == .operational && s.regs.bootDone && s.out.trace == []) = true := by decide

/-- V-NMT-4: the target is masked; a slave is rejected. -/
theorem test_nmtSend :
    leaves (exec (.nmtSend 0x02 0x8A) master1) (fun s =>
      s.out.trace == [.tx (nmtCommand 0x02 0x0A) .ok, .status .ok]) = true ∧
    leaves (exec (.nmtSend 0x01 0x00) slave10) (fun s => s.out.trace == [.status .rejectedRole]) = true := by decide

/-- S10. -/
theorem test_sdoSendReq :
    leaves (exec (.sdoSendReq ⟨5, 0x40, 0x1018, 1, 0, .zero⟩) master1) (fun s =>
      s.out.trace == [.tx (frame 0x605 8 ⟨0x40, 0x18, 0x10, 0x01, 0, 0, 0, 0⟩) .ok, .status .ok]) = true := by decide

/-- spec/42_sdo.md R176's example, and a bus error. -/
theorem test_sdoSendRsp :
    leaves (exec (.sdoSendRsp ⟨99, 0x40, 0x1018, 1, 2, ⟨0x34, 0x12, 0xFF, 0xFF⟩⟩) (withDebug (withAnswer .busError slave5))) (fun s =>
      s.out.trace == [.tx (frame 0x585 8 ⟨0x48, 0x18, 0x10, 0x01, 0x34, 0x12, 0, 0⟩) .busError, .status .busError] &&
      s.out.diag == [.transmitFailed]) = true := by decide

theorem test_sdo_length_five_is_rejected :
    leaves (exec (.sdoSendRsp ⟨5, 0x40, 0x1018, 1, 5, .zero⟩) slave5) (fun s => s.out.trace == [.status .rejectedParam]) = true := by
  decide

/-- V-SDO-ENC, V-SDO-DEC: a few rows. -/
theorem test_sdo_codec :
    sdoEncode 0x605 ⟨5, 0x20, 0x1234, 0x56, 3, ⟨0xA1, 0xB2, 0xC3, 0xD4⟩⟩ =
      frame 0x605 8 ⟨0x24, 0x34, 0x12, 0x56, 0xA1, 0xB2, 0xC3, 0⟩ ∧
    sdoDecode (frame 0x605 8 ⟨0x4B, 0x34, 0x12, 0x56, 0xA1, 0xB2, 0xC3, 0xD4⟩) 5 =
      ⟨5, 0x40, 0x1234, 0x56, 2, ⟨0xA1, 0xB2, 0, 0⟩⟩ ∧
    sdoDecode (frame 0x605 8 ⟨0x41, 0x34, 0x12, 0x56, 0xA1, 0xB2, 0xC3, 0xD4⟩) 5 =
      ⟨5, 0x40, 0x1234, 0x56, 4, ⟨0xA1, 0xB2, 0xC3, 0xD4⟩⟩ := by decide

/-- spec/42_sdo.md R180's example. -/
theorem test_sdoReqRx :
    leaves (exec .rxirq (withRx [some (frame 0x605 8 ⟨0x2B, 0, 0x20, 0, 0x34, 0x12, 0, 0⟩)] (withListener .sdoReqRx 7 slave5)))
      (fun s => s.out.trace == [.ev .sdoReqRx 0 7 (.descriptor ⟨5, 0x20, 0x2000, 0, 2, ⟨0x34, 0x12, 0, 0⟩⟩)]) = true := by decide

/-- spec/42_sdo.md R181's example. -/
theorem test_sdoRpyRxOwn :
    leaves (exec (.sdoRpyRxOwn (frame 0x585 8 ⟨0x60, 0, 0x20, 1, 0, 0, 0, 0⟩)) (withListener .sdoRpyRx 7 slave5))
      (fun s => s.out.trace == [.ev .sdoRpyRx 0 7 (.descriptor ⟨5, 0x60, 0x2000, 1, 0, .zero⟩)]) = true := by decide

/-- S11: the node is the own address. -/
theorem test_sdoRpyRxFlt :
    leaves (exec .rxirq (withRx [some (frame 0x58A 8 ⟨0x48, 0, 0x20, 3, 0x34, 0x12, 0, 0⟩)]
        (withFilter [0x0A] (withListener .sdoRpyRx 7 slave5))))
      (fun s => s.out.trace == [.ev .sdoRpyRx 0 7 (.descriptor ⟨5, 0x40, 0x2000, 3, 2, ⟨0x34, 0x12, 0, 0⟩⟩)]) = true := by decide

/-- spec/42_sdo.md R183's example: the node is the sender. -/
theorem test_sdoRpyRxMst :
    leaves (exec (.sdoRpyRxMst (frame 0x585 8 ⟨0x4F, 0x18, 0x10, 1, 0xAB, 0, 0, 0⟩)) (withListener .sdoRpyRx 7 master1))
      (fun s => s.out.trace == [.ev .sdoRpyRx 0 7 (.descriptor ⟨5, 0x40, 0x1018, 1, 1, ⟨0xAB, 0, 0, 0⟩⟩)]) = true := by decide

/-- spec/43_pdo.md R200's example and its boundaries. -/
theorem test_pdoSend :
    leaves (exec (.pdoSend 0x181 2 ⟨0x11, 0x22, 0x33, 0, 0, 0, 0, 0⟩) slave5) (fun s =>
      s.out.trace == [.tx (frame 0x181 2 ⟨0x11, 0x22, 0, 0, 0, 0, 0, 0⟩) .ok, .status .ok]) = true ∧
    ([(0x180, 2), (0x580, 2), (0x181, 9)].all fun c =>
      leaves (exec (.pdoSend c.1 c.2 .zero) slave5) (fun s => s.out.trace == [.status .rejectedParam])) = true := by decide

/-- spec/43_pdo.md R203's example: two listeners, in slot order, in state Stopped (V-DISP-3). -/
theorem test_pdoRx :
    leaves (exec (.pdoRx (frame 0x201 3 ⟨1, 2, 3, 0, 0, 0, 0, 0⟩))
        (withListener .pdoRx 8 (withListener .pdoRx 7 (slave5.setNmt .stopped))))
      (fun s => s.out.trace == [.ev .pdoRx 0 7 (.frame (frame 0x201 3 ⟨1, 2, 3, 0, 0, 0, 0, 0⟩)),
        .ev .pdoRx 1 8 (.frame (frame 0x201 3 ⟨1, 2, 3, 0, 0, 0, 0, 0⟩))]) = true := by decide

/-- spec/40_dispatcher.md R124's example. -/
theorem test_hbRx :
    leaves (exec .rxirq (withRx [some (frame 0x70A 1 ⟨5, 0, 0, 0, 0, 0, 0, 0⟩)] (withFilter [0x0A] (withListener .hbRx 7 slave5))))
      (fun s => s.out.trace == [.ev .hbRx 0 7 (.frame (frame 0x70A 1 ⟨5, 0, 0, 0, 0, 0, 0, 0⟩))]) = true ∧
    leaves (exec .rxirq (withRx [some (frame 0x70B 1 ⟨5, 0, 0, 0, 0, 0, 0, 0⟩)]
        (withDebug (withFilter [0x0A] (withListener .hbRx 7 slave5)))))
      (fun s => s.out.trace == [] && s.out.diag == []) = true := by decide

theorem test_unparsed :
    leaves (exec .rxirq (withRx [some (frame 0x080 0 .zero)] (withDebug slave5))) (fun s =>
      s.out.trace == [] && s.out.diag == [.unparsedFrame]) = true ∧
    leaves (exec (.unparsed (frame 0x700 0 .zero)) master1) (fun s => s.out.diag == []) = true := by decide

/-- spec/45_listener_registry.md R230's example: the seventh registration is dropped. -/
theorem test_listenerReg :
    leaves (exec (.listenerReg .pdoRx 6)
        { slave5 with regs := { slave5.regs with lst := { ListenerTable.empty with pdoRx := [0, 1, 2, 3, 4, 5] } } })
      (fun s => s.regs.lst.slots .pdoRx == [0, 1, 2, 3, 4, 5]) = true ∧
    leaves (exec (.listenerReg .hbRx 7) slave5) (fun s => s.regs.lst.slots .hbRx == [7] && s.regs.lst.slots .pdoRx == []) = true := by
  decide

/-- spec/46_host_ops.md R243's corner cases. -/
theorem test_filterAdd :
    leaves (exec (.filterAdd 0x8A) slave5) (fun s => s.regs.filt == [0x0A]) = true ∧
    ([5, 0x0A, 0, 0x80].all fun n =>
      leaves (exec (.filterAdd n) (withFilter [0x0A] slave5)) (fun s => s.regs.filt == [0x0A] && s.out.xcfg == [])) = true := by
  decide

theorem test_rxirq_with_nothing_received :
    leaves (exec .rxirq (withRx [none] slave5)) (fun s => s == withRx [] slave5) = true := by decide

/-- spec/46_host_ops.md R246's example. -/
theorem test_poll_emits_when_due :
    leaves (exec .poll { slave10.setNmt .operational with env := { Env.idle with pendingIn := [false], nowIn := [1000], txIn := [.ok] } })
      (fun s => s.regs.hbLast == 1000 && s.out.trace == [.tx (frame 0x710 1 ⟨5, 0, 0, 0, 0, 0, 0, 0⟩) .ok]) = true := by decide

/-- spec/44_heartbeat.md R212's example, and R214: the drained command shows in the heartbeat. -/
theorem test_poll_drains_first :
    leaves (exec .poll { slave10 with env := { Env.idle with pendingIn := [true], rxIn := [some (nmtCommand 0x02 0x00)], nowIn := [1000], txIn := [.ok] } })
      (fun s => s.regs.nmt == .stopped && s.out.sent == [(frame 0x710 1 ⟨4, 0, 0, 0, 0, 0, 0, 0⟩, .ok)]) = true ∧
    leaves (exec .poll { slave10 with env := { Env.idle with nowIn := [999] } })
      (fun s => s.regs.hbLast == 0 && s.out.trace == []) = true := by decide

/-- A send a listener issues stands between its own invocation and the next listener's (spec/45_listener_registry.md R235). -/
theorem test_nested_send :
    leaves (exec (.pdoRx (frame 0x201 0 .zero))
        (withReactions [.returns [.pdoSend 0x181 0 .zero]] (withListener .pdoRx 8 (withListener .pdoRx 7 slave5))))
      (fun s => s.out.trace == [.ev .pdoRx 0 7 (.frame (frame 0x201 0 .zero)), .tx (frame 0x181 0 .zero) .ok, .status .ok,
        .ev .pdoRx 1 8 (.frame (frame 0x201 0 .zero))]) = true := by decide

/-- A word of the opcode table: NMT.STOP, placed and run first after reset. -/
theorem test_table_word :
    decodeTableWord 24 0x00002 = some (.nmtStop (frame 0 0 ⟨2, 0, 0, 0, 0, 0, 0, 0⟩)) ∧
    leaves (step (State.reset.withFetchWord 24 0x00002)) (fun s => s.regs.nmt == .stopped) = true ∧
    decodeTableWord 8 0x9 = some .nmtBootdone ∧
    leaves (step (State.reset.withFetchWord 8 0x9)) (fun s => s.regs.nmt == .preOperational) = true := by decide

/-! ## Witnesses: for every statement with hypotheses, states and operands that meet them together

Named after the statement; where a statement has several clauses, one conjunct for each, at the boundary of its range. -/

/-- A slave of own address 5 with one listener in every category. -/
def listening : State :=
  { slave5 with regs := { slave5.regs with lst := ⟨[1], [2], [3], [4], [5]⟩ } }

/-- The same as a master. -/
def listeningMaster : State := { listening with regs := { listening.regs with role := .master } }

def fullFilter : List Addr := [1, 2, 3, 4, 6, 7, 8, 9, 10, 11, 12, 13]

theorem witness_InitGivesEveryRegisterItsResetValue :
    ((1 ≤ 1 ∧ 1 ≤ 127) ∧ (1 ≤ 127 ∧ 127 ≤ 127)) ∧ (State.powerOn.regs.ready = false ∧ ∀ a r h d, Instr.poll ≠ .init a r h d) := by
  refine ⟨by decide, by decide, ?_⟩
  intro a r h d
  simp

theorem witness_InitBringsTheTransportUpInOrder : (1 ≤ 1 ∧ 1 ≤ 127) ∧ (1 ≤ 127 ∧ 127 ≤ 127) := by decide

theorem witness_InitRefusesAnIllegalOwnAddress : (0 = 0 ∨ 127 < 0) ∧ (128 = 0 ∨ 127 < 128) := by decide

theorem witness_ListenerRegFillsTheFirstFreeSlotOrIsDropped :
    ∃ s u : State, s.regs.ready = true ∧ (s.regs.lst.slots .pdoRx).length = 5 ∧ Category.hbRx ≠ .pdoRx ∧
      u.regs.ready = true ∧ (u.regs.lst.slots .pdoRx).length = 6 :=
  ⟨{ slave5 with regs := { slave5.regs with lst := { ListenerTable.empty with pdoRx := [0, 1, 2, 3, 4] } } },
   { slave5 with regs := { slave5.regs with lst := { ListenerTable.empty with pdoRx := [0, 1, 2, 3, 4, 5] } } }, by decide⟩

theorem witness_FilterAddAppendsOrDropsSilently :
    slave5.regs.ready = true ∧ (0 : Addr).toNat = 128 % 128 ∧ ((5 : Addr).toNat = 133 % 128 ∧ (5 : Addr) = slave5.regs.own) ∧
    ((10 : Addr).toNat = 10 % 128 ∧ (10 : Addr) ∈ (withFilter [10] slave5).regs.filt) ∧
    ((14 : Addr).toNat = 14 % 128 ∧ 12 ≤ (withFilter fullFilter slave5).regs.filt.length) ∧
    ((13 : Addr).toNat = 13 % 128 ∧
      ¬((13 : Addr) = 0 ∨ (13 : Addr) = slave5.regs.own ∨ (13 : Addr) ∈ fullFilter.take 11 ∨ 12 ≤ (fullFilter.take 11).length)) := by
  decide

theorem witness_AddedFilterEntryIsSeenByTheNextFrame :
    ∃ t, slave5.regs.role = .slave ∧ (127 : Addr).toNat = 255 % 128 ∧ exec (.filterAdd 255) slave5 = .next t ∧ t ≠ slave5 ∧
      (frame 0x77F 1 .zero).id.toNat = 0x700 + (127 : Addr).toNat ∧ (frame 0x5FF 8 .zero).id.toNat = 0x580 + (127 : Addr).toNat := by
  refine ⟨_, by decide, by decide, rfl, ?_, by decide, by decide⟩
  intro h
  have hf := congrArg (fun s : State => s.regs.filt) h
  revert hf
  decide

theorem witness_NmtCommandsWriteTheirStateAndNotify :
    listening.regs.ready = true ∧ ListenersLawful listening ∧
    ([0x01, 0x02, 0x80, 0x81].all fun cs =>
      (nmtCommand cs 5).id == 0 && (nmtCommand cs 5).data.b0 == cs &&
      (nmtCommand cs 5).data.b1 == listening.regs.own.setWidth 8 && (nmtCommand cs 0).data.b1 == 0 &&
      (nmtCommand cs 0x85).data.b1 != listening.regs.own.setWidth 8 && (nmtCommand cs 0x85).data.b1 != 0) = true ∧
    ((nmtCommand 0x82 5).id = 0 ∧ (nmtCommand 0x82 5).data.b0 ∉ ([0x01, 0x02, 0x80, 0x81] : List Byte)) := by decide

theorem witness_NmtApplyFollowsTheCommandTable :
    ListenersLawful listening ∧ ((0x82 : Byte) ≠ 0x01 ∧ (0x82 : Byte) ≠ 0x02 ∧ (0x82 : Byte) ≠ 0x80 ∧ (0x82 : Byte) ≠ 0x81) := by
  decide

theorem witness_NmtIgnoredFrameChangesNothing :
    listening.regs.ready = true ∧
    ((nmtCommand 1 6).id = 0 ∧ (nmtCommand 1 6).data.b1 ≠ listening.regs.own.setWidth 8 ∧ (nmtCommand 1 6).data.b1 ≠ 0) ∧
    ((nmtCommand 3 5).id = 0 ∧ (nmtCommand 3 5).data.b0 ≠ 0x01 ∧ (nmtCommand 3 5).data.b0 ≠ 0x02 ∧
      (nmtCommand 3 5).data.b0 ≠ 0x80 ∧ (nmtCommand 3 5).data.b0 ≠ 0x81) := by decide

theorem witness_BootdoneFiresOnceFromBootup :
    listening.regs.ready = true ∧ listening.regs.role = .slave ∧ listening.regs.bootDone = false ∧
    listening.regs.nmt = .bootup ∧ ListenersLawful listening ∧ (listening.setNmt .reset).regs.nmt ≠ .bootup := by decide

theorem witness_BootdoneIsNotEnabledInAMasterOrTwice :
    (master1.regs.ready = true ∧ master1.regs.role = .master) ∧
    (slave5.setBootDone.regs.ready = true ∧ slave5.setBootDone.regs.bootDone = true) := by decide

theorem witness_NmtSendTransmitsFromAMasterOnly :
    (master1.regs.ready = true ∧ master1.regs.role = .master) ∧ (slave5.regs.ready = true ∧ slave5.regs.role = .slave) := by
  decide

theorem witness_SdoEncodeLaysOutTheFrame :
    (⟨5, 0x4F, 0xFFFF, 1, 0, .zero⟩ : Descriptor).len ≤ 4 ∧ (⟨5, 0x4F, 0xFFFF, 1, 4, .zero⟩ : Descriptor).len ≤ 4 := by decide

theorem witness_SdoDecodeReadsTheDescriptor :
    let len (b0 : Byte) : Nat := if b0 = 0x40 ∨ b0 = 0x60 then 0 else 4 - b0.toNat / 4 % 4
    len 0x40 = 0 ∧ len 0x60 = 0 ∧ len 0x41 = 4 ∧ len 0x4F = 1 := by decide

theorem witness_SdoLengthFieldFollowsItsTables :
    (0xF0 : Byte) &&& 0xF0 = 0xF0 ∧
    (((0x41 : Byte) ≠ 0x40 ∧ (0x41 : Byte) ≠ 0x60) ∧ (0x41 : Byte).toNat / 4 % 4 = 0) ∧
    (((0x47 : Byte) ≠ 0x40 ∧ (0x47 : Byte) ≠ 0x60) ∧ (0x47 : Byte).toNat / 4 % 4 = 1) ∧
    (((0x4B : Byte) ≠ 0x40 ∧ (0x4B : Byte) ≠ 0x60) ∧ (0x4B : Byte).toNat / 4 % 4 = 2) ∧
    (((0x4F : Byte) ≠ 0x40 ∧ (0x4F : Byte) ≠ 0x60) ∧ (0x4F : Byte).toNat / 4 % 4 = 3) := by decide

theorem witness_SdoRoundTripHoldsExactlyOnItsDomain :
    ([(⟨5, 0x40, 1, 2, 4, ⟨1, 2, 3, 4⟩⟩ : Descriptor), ⟨5, 0x20, 1, 2, 0, .zero⟩, ⟨5, 0x20, 1, 2, 4, ⟨1, 2, 3, 4⟩⟩,
        ⟨5, 0x60, 1, 2, 0, .zero⟩, ⟨5, 0x40, 1, 2, 1, ⟨1, 0, 0, 0⟩⟩, ⟨5, 0x40, 1, 2, 3, ⟨1, 2, 3, 0⟩⟩].all fun d =>
      d.cmd &&& 0xF0 == d.cmd && decide (d.len ≤ 4) && firstBytes4 d.len d.data == d.data) = true := by decide

theorem witness_SdoSendReqTransmitsOrRejects :
    slave5.regs.ready = true ∧ (⟨255, 0x40, 0, 0, 4, .zero⟩ : Descriptor).len ≤ 4 ∧ 4 < (⟨5, 0x40, 0, 0, 5, .zero⟩ : Descriptor).len := by
  decide

theorem witness_SdoSendRspTransmitsOrRejects :
    master1.regs.ready = true ∧ (⟨255, 0x40, 0, 0, 4, .zero⟩ : Descriptor).len ≤ 4 ∧ 4 < (⟨5, 0x40, 0, 0, 5, .zero⟩ : Descriptor).len := by
  decide

theorem witness_SdoReceiveNotifiesTheDecodedDescriptor :
    (listening.regs.ready = true ∧ ListenersLawful listening) ∧
    (frame 0x605 8 .zero).id.toNat = 0x600 + listening.regs.own.toNat ∧
    ((frame 0x585 8 .zero).id.toNat = 0x580 + listening.regs.own.toNat ∧ listening.regs.role = .slave) ∧
    ((127 : Addr) ∈ (withFilter [127] listening).regs.filt ∧ (frame 0x5FF 8 .zero).id.toNat = 0x580 + (127 : Addr).toNat ∧
      (127 : Addr) ≠ listening.regs.own) ∧
    (listeningMaster.regs.ready = true ∧ ListenersLawful listeningMaster ∧ listeningMaster.regs.role = .master ∧
      (0x580 ≤ (frame 0x580 8 .zero).id.toNat ∧ (frame 0x580 8 .zero).id.toNat < 0x600) ∧
      (0x580 ≤ (frame 0x5FF 8 .zero).id.toNat ∧ (frame 0x5FF 8 .zero).id.toNat < 0x600)) ∧
    listening.params.replyNode = .source ∧
    (let s := { listeningMaster with params := { listeningMaster.params with replyNode := .own } }
     s.regs.ready = true ∧ ListenersLawful s ∧ s.regs.role = .master ∧ s.params.replyNode = .own) := by decide

theorem witness_FilteredReplyHidesItsSender :
    selected (withFilter [1, 127] listening).ctx (.sdoRpyRxFlt (frame 0x581 8 .zero)) = true ∧
    selected (withFilter [1, 127] listening).ctx (.sdoRpyRxFlt (frame 0x5FF 8 .zero)) = true ∧
    (frame 0x581 8 .zero).data = (frame 0x5FF 8 .zero).data := by decide

theorem witness_PdoSendTransmitsExactlyInRange :
    slave5.regs.ready = true ∧ (0x181 ≤ 0x181 ∧ 0x181 ≤ 0x57F ∧ 0 ≤ 8) ∧ (0x181 ≤ 0x57F ∧ 0x57F ≤ 0x57F ∧ 8 ≤ 8) ∧
    0x180 < 0x181 ∧ 0x57F < 0x580 ∧ 8 < 9 := by decide

theorem witness_PdoAndHeartbeatFramesAreForwardedVerbatim :
    (listening.regs.ready = true ∧ ListenersLawful listening) ∧
    (0x17F < (frame 0x180 0 .zero).id.toNat ∧ (frame 0x57F 0 .zero).id.toNat < 0x580) ∧
    (0x700 < (frame 0x701 1 .zero).id.toNat ∧ (frame 0x701 1 .zero).id.toNat = 0x700 + (1 : Addr).toNat ∧
      (1 : Addr) ∈ (withFilter [1] listening).regs.filt) ∧
    (0x700 < (frame 0x7FF 1 .zero).id.toNat ∧ listeningMaster.regs.role = .master) := by
  decide

theorem witness_Identifier180IsReceiveOnly : (frame 0x180 1 .zero).id = 0x180 ∧ slave5.regs.ready = true := by decide

theorem witness_HeartbeatTickEmitsExactlyWhenDue :
    slave5.regs.hbInterval.toNat ≤ ((1000 : Time).toNat + 4294967296 - slave5.regs.hbLast.toNat) % 4294967296 ∧
    ((999 : Time).toNat + 4294967296 - slave5.regs.hbLast.toNat) % 4294967296 < slave5.regs.hbInterval.toNat := by decide

theorem witness_RxirqDispatchesTheReceivedFrame :
    listening.regs.ready = true ∧ ListenersLawful listening ∧
    (withRx [some (nmtCommand 1 0)] listening).env.rxIn = some (nmtCommand 1 0) :: [] ∧
    (withRx [none] listening).env.rxIn = none :: [] ∧ listening.env.rxIn = [] := by decide

theorem witness_PollDrainsThenChecksTheTimer :
    listening.regs.ready = true ∧ ListenersLawful listening ∧ (pending listening).1 = false ∧
    (let s := { withRx [none] listening with env := { (withRx [none] listening).env with pendingIn := [true] } }
     (pending s).1 = true ∧ (rx (pending s).2).1 = none) ∧
    ((pending (withRx [some (nmtCommand 1 0)] listening)).1 = true ∧
      (rx (pending (withRx [some (nmtCommand 1 0)] listening)).2).1 = some (nmtCommand 1 0)) := by decide

theorem witness_DrainedCommandShowsInTheSamePollsHeartbeat :
    ([0x00, 0x05].all fun target =>
      let s := { listening with
        env := { Env.idle with pendingIn := [true, false], rxIn := [some (nmtCommand 0x81 target)], nowIn := [1000] } }
      decide (s.regs.ready = true ∧ ListenersLawful s ∧ s.env.pendingIn = true :: [false] ∧
        s.env.rxIn = some (nmtCommand 0x81 target) :: [] ∧ s.env.nowIn = (1000 : Time) :: [] ∧ (nmtCommand 0x81 target).id = 0 ∧
        ((nmtCommand 0x81 target).data.b1 = s.regs.own.setWidth 8 ∨ (nmtCommand 0x81 target).data.b1 = 0) ∧
        nmtTarget (nmtCommand 0x81 target).data.b0 = some .reset ∧
        s.regs.hbInterval.toNat ≤ ((1000 : Time) - s.regs.hbLast).toNat)) = true := by decide

theorem witness_DispatchExecutesTheDecodedOperation :
    (withFilter fullFilter listening).regs.ready = true ∧ (withFilter fullFilter listening).regs.filt.Nodup ∧
    decodeFrame (withFilter fullFilter listening).ctx (frame 0x58A 8 .zero) = .instr (.sdoRpyRxFlt (frame 0x58A 8 .zero)) ∧
    decodeFrame (withFilter fullFilter listening).ctx (frame 0x70E 1 .zero) = .rejected .matchedDropped := by decide

theorem witness_FrameClassificationTable : 0x7FF = (frame 0x7FF 0 .zero).id.toNat := by decide

theorem witness_AtMostOnePredicateHolds :
    (withFilter fullFilter listening).regs.filt.Nodup ∧
    (∃ e ∈ (withFilter fullFilter listening).regs.filt, (frame 0x58D 8 .zero).id.toNat = 0x580 + e.toNat) := by decide

theorem witness_DecodeIgnoresFlagsAndDataLength :
    decodeFrame listening.ctx { id := 0x180, ext := true, rtr := true, dlc := 8, data := .zero } =
      .instr (.pdoRx { id := 0x180, ext := true, rtr := true, dlc := 8, data := .zero }) := by decide

theorem witness_DecodedRowMatchesItsTablePattern :
    decodeFrame listening.ctx (frame 0x57F 0 .zero) = .instr (.pdoRx (frame 0x57F 0 .zero)) ∧
    matchesRow 0x60540 (.sdoReqRx (frame 0x605 8 ⟨0x40, 0, 0, 0, 0, 0, 0, 0⟩)) = true ∧
    (frame 0x605 8 ⟨0x40, 0, 0, 0, 0, 0, 0, 0⟩).vector = 0x60540 := by decide

theorem witness_UnparsedFrameIsOnlyReported :
    listening.regs.ready = true ∧
    ([0x001, 0x17F, 0x600, 0x6FF, 0x700, 0x580, 0x5FF].all fun n =>
      decodeFrame listening.ctx (frame (BitVec.ofNat 11 n) 0 .zero) == .instr (.unparsed (frame (BitVec.ofNat 11 n) 0 .zero))) = true ∧
    ([0x180, 0x57F, 0x585, 0x605, 0x701].all fun n =>
      decodeFrame listening.ctx (frame (BitVec.ofNat 11 n) 0 .zero) != .instr (.unparsed (frame (BitVec.ofNat 11 n) 0 .zero))) = true := by
  decide

theorem witness_DispatchAcceptsEveryFrame :
    ListenersLawful (withReactions [.returns [.pdoSend 0x181 0 .zero]] listening) ∧ ListenersQuiet listening ∧
    ListenersLawful listening ∧ ListenersQuiet (withReactions [.returns []] listening) ∧
    (0x700 < (frame 0x701 1 .zero).id.toNat ∧ listening.regs.role = .slave ∧
      ∀ e ∈ (withFilter [0x7F] listening).regs.filt, (frame 0x701 1 .zero).id.toNat ≠ 0x700 + e.toNat) ∧
    ∀ e ∈ (withFilter [0x7F] listening).regs.filt, (frame 0x7FF 1 .zero).id.toNat ≠ 0x700 + e.toNat := by decide

theorem witness_MasterDispatchIgnoresTheListenFilter : listeningMaster.regs.role = .master := by decide

theorem witness_NotifyInvokesEverySlotInOrder :
    ListenersLawful (withReactions [.returns [.nmtSend 1 0], .returns []] listening) ∧ slave5.regs.lst.slots .pdoRx = [] ∧
    listening.env.reactIn = [] := by decide

theorem witness_NestedSendPrecedesTheNextListener :
    ∃ s u : State, s.regs.ready = true ∧ s.regs.lst.slots .pdoRx = [1, 2] ∧ s.env.reactIn = [.returns [.pdoSend 0x181 0 .zero]] ∧
      isSend (.pdoSend 0x181 0 .zero) = true ∧
      exec (.pdoSend 0x181 0 .zero)
        { s with
          env := { s.env with reactIn := [] }
          out := { s.out with trace := s.out.trace ++ [.ev .pdoRx 0 1 (.frame (frame 0x201 0 .zero))] } } = .next u :=
  ⟨withReactions [.returns [.pdoSend 0x181 0 .zero]] (withListener .pdoRx 2 (withListener .pdoRx 1 slave5)), _, by decide, by decide,
   by decide, by decide, rfl⟩

theorem witness_ReentrantListenerIsRefused :
    (withReactions [.returns [.poll, .poll]] listening).regs.lst.slots .stateChange = 1 :: [] ∧
    (withReactions [.returns [.poll, .poll]] listening).env.reactIn = .returns (.poll :: [.poll]) :: [] ∧
    isSend .poll = false := by decide

theorem witness_ListenerThatDoesNotReturnIsStuck :
    (withReactions [.neverReturns] listening).regs.lst.slots .stateChange = 1 :: [] ∧
    (withReactions [.neverReturns] listening).env.reactIn = .neverReturns :: [] := by decide

theorem witness_OnlyTheListedOperationsProduceEvents :
    (∃ t, exec (.nmtSend 1 0) listeningMaster = .next t ∧ isSend (.nmtSend 1 0) = true) ∧
    (∃ t, exec (.init 5 .slave 0 true) listening = .next t) ∧ (∃ t, exec (.listenerReg .pdoRx 9) listening = .next t) ∧
    (∃ t, exec (.filterAdd 9) listening = .next t) ∧ (∃ t, exec (.unparsed (frame 0x700 0 .zero)) listening = .next t) ∧
    (∃ t, exec (.nmtIgn (nmtCommand 9 0)) listening = .next t) :=
  ⟨⟨_, rfl, by decide⟩, ⟨_, rfl⟩, ⟨_, rfl⟩, ⟨_, rfl⟩, ⟨_, rfl⟩, ⟨_, rfl⟩⟩

theorem witness_ConfigurationIsReadOnlyAfterInit :
    ∃ t, exec (.nmtStop (nmtCommand 2 0)) listening = .next t ∧ ∀ a r h d, Instr.nmtStop (nmtCommand 2 0) ≠ .init a r h d :=
  ⟨_, rfl, by intro a r h d; simp⟩

theorem witness_EveryRegisterHasOnlyItsListedWriters :
    ∃ t, exec (.filterAdd 9) listening = .next t ∧ (∀ a r h d, Instr.filterAdd 9 ≠ .init a r h d) ∧
      (∀ f, Instr.filterAdd 9 ≠ .nmtStart f ∧ Instr.filterAdd 9 ≠ .nmtStop f ∧ Instr.filterAdd 9 ≠ .nmtPreop f ∧
        Instr.filterAdd 9 ≠ .nmtReset f) ∧ Instr.filterAdd 9 ≠ .nmtBootdone ∧ Instr.filterAdd 9 ≠ .rxirq ∧
      Instr.filterAdd 9 ≠ .poll ∧ (∀ c h, Instr.filterAdd 9 ≠ .listenerReg c h) ∧
      (∃ u, exec .nmtBootdone listening = .next u) ∧ ∀ a, Instr.nmtBootdone ≠ .filterAdd a :=
  ⟨_, rfl, by simp, by simp, by simp, by simp, by simp, by simp, ⟨_, rfl⟩, by simp⟩

theorem witness_NmtStateHasOnlyItsListedWriters :
    ((1 ≤ 1 ∧ 1 ≤ 127) ∧ 127 ≤ 127) ∧
    (∃ t, exec .nmtBootdone slave5 = .next t ∧ t.regs.nmt ≠ slave5.regs.nmt) ∧
    (∃ t, exec .rxirq (withRx [some (nmtCommand 0x81 5)] slave5) = .next t ∧ t.regs.nmt ≠ slave5.regs.nmt) :=
  ⟨by decide, ⟨_, rfl, by decide⟩, ⟨_, rfl, by decide⟩⟩

theorem witness_OnlyInitReturnsToBootup :
    ∃ t, exec (.init 5 .slave 0 false) master1 = .next t ∧ t.regs.nmt = .bootup ∧ master1.regs.nmt ≠ .bootup :=
  ⟨_, rfl, by decide, by decide⟩

theorem witness_SlaveNeverEmitsAnNmtCommand :
    slave5.regs.role = .slave ∧ ∃ t, exec (.sdoSendRsp ⟨0, 0x60, 0, 0, 0, .zero⟩) slave5 = .next t := ⟨by decide, _, rfl⟩

theorem witness_TransportFailureIsReportedOnceAndAbandoned :
    (withAnswer .busError slave5).regs.ready = true ∧ txAnswer (withAnswer .busError slave5).env = .busError ∧
    isSend (.pdoSend 0x181 0 .zero) = true := by decide

theorem witness_NmtStateGatesNothing :
    isSend (.sdoSendReq ⟨0, 0x60, 0, 0, 0, .zero⟩) = true ∧ (∃ f, Instr.hbRx (frame 0x701 1 .zero) = .hbRx f) ∧
    (∃ c h, Instr.listenerReg .pdoRx 1 = .listenerReg c h) ∧ ∃ a, Instr.filterAdd 1 = .filterAdd a :=
  ⟨by decide, ⟨_, rfl⟩, ⟨_, _, rfl⟩, ⟨_, rfl⟩⟩

theorem witness_DebugFlagIsDecorative :
    listening.regs.debug = false ∧ (∃ t, exec (.unparsed (frame 0x700 0 .zero)) listening = .next t) ∧
    ∀ a r h d, Instr.unparsed (frame 0x700 0 .zero) ≠ .init a r h d :=
  ⟨by decide, ⟨_, rfl⟩, by intro a r h d; simp⟩

theorem witness_HistoriesOnlyGrow : ∃ t, step (listening.issue (encode (.filterAdd 9))) = .next t := ⟨_, rfl⟩

/-- One permitted operation of each constructor, in a state with lawful listeners. -/
theorem witness_EveryPermittedOperationCompletes :
    ListenersLawful (withFilter [10] listening) ∧ ListenersLawful listeningMaster ∧
    ([Instr.nmtStart (nmtCommand 1 0), .nmtStop (nmtCommand 2 5), .nmtPreop (nmtCommand 0x80 0), .nmtReset (nmtCommand 0x81 0),
        .nmtIgn (nmtCommand 3 0), .pdoRx (frame 0x180 0 .zero), .hbRx (frame 0x70A 1 .zero), .sdoReqRx (frame 0x605 8 .zero),
        .sdoRpyRxOwn (frame 0x585 8 .zero), .sdoRpyRxFlt (frame 0x58A 8 .zero), .unparsed (frame 0x700 0 .zero),
        .listenerReg .pdoRx 9, .filterAdd 9, .sdoSendReq ⟨0, 0, 0, 0, 9, .zero⟩, .sdoSendRsp ⟨0, 0, 0, 0, 4, .zero⟩,
        .pdoSend 0 0 .zero, .nmtSend 1 0, .poll, .rxirq, .nmtBootdone].all (permitted (withFilter [10] listening))) = true ∧
    permitted listeningMaster (.sdoRpyRxMst (frame 0x5FF 8 .zero)) = true ∧
    permitted State.powerOn (.init 1 .slave 0 true) = true ∧ permitted State.powerOn (.init 127 .master 0 true) = true := by decide

theorem witness_EveryStepKeepsTheInvariant :
    ∃ s t : State, Inv s ∧ step s = .next t :=
  ⟨(withFilter fullFilter listening).issue (encode (.filterAdd 14)), _, by decide, rfl⟩

/-- One well-formed operation of each constructor, in an engine that selects it. -/
theorem witness_DecodeOfEncodeIsTheOperation :
    ([Instr.nmtStart (nmtCommand 1 0), .nmtStop (nmtCommand 2 5), .nmtPreop (nmtCommand 0x80 0), .nmtReset (nmtCommand 0x81 0),
        .nmtIgn (nmtCommand 3 0), .pdoRx (frame 0x57F 8 .zero), .hbRx (frame 0x70A 1 .zero), .sdoReqRx (frame 0x605 8 .zero),
        .sdoRpyRxOwn (frame 0x585 8 .zero), .sdoRpyRxFlt (frame 0x58A 8 .zero), .unparsed (frame 0x6FF 0 .zero),
        .init 4294967295 .slave 0xFFFFFFFF true, .listenerReg .hbRx 4294967295, .filterAdd 4294967295,
        .sdoSendReq ⟨255, 0xFF, 0xFFFF, 0xFF, 4294967295, ⟨1, 2, 3, 4⟩⟩, .sdoSendRsp ⟨0, 0, 0, 0, 4, .zero⟩,
        .pdoSend 4294967295 4294967295 ⟨1, 2, 3, 4, 5, 6, 7, 8⟩, .nmtSend 0xFF 4294967295, .poll, .rxirq, .nmtBootdone].all fun i =>
      i.wf && selected ⟨5, .slave, [10]⟩ i) = true ∧
    (Instr.sdoRpyRxMst (frame 0x580 8 .zero)).wf = true ∧ selected ⟨5, .master, []⟩ (.sdoRpyRxMst (frame 0x580 8 .zero)) = true := by
  decide

theorem witness_StepRunsTheIssuedOperation :
    (∃ s : State, s.env.cmd = encode .poll :: [] ∧ decodeHost (encode .poll) = .instr .poll) ∧
    (∃ s : State, s.env.cmd = [7] :: [] ∧ decodeHost [7] = .rejected .recordLength) ∧ slave5.env.cmd = [] :=
  ⟨⟨slave5.issue (encode .poll), by decide⟩, ⟨slave5.issue [7], by decide⟩, by decide⟩

theorem witness_StepRunsTheArrivedFramesOperation :
    (withFilter fullFilter listening).regs.ready = true ∧ (withFilter fullFilter listening).regs.filt.Nodup ∧
    decodeFrame (withFilter fullFilter listening).ctx (frame 0x70D 1 .zero) = .instr (.hbRx (frame 0x70D 1 .zero)) := by decide

theorem witness_TableWordRunsFirstAfterReset :
    decodeTableWord 24 0x18000 = some (.pdoRx (frame 0x180 0 .zero)) ∧ decodeTableWord 8 7 = some .poll := by decide

end Sys2Proof.Tests
end

/-! ## The settled statements on the state: `INIT`, the writers of `nmt`, the `debug` flag

Proofs of the family spec/10_state.md, with the lemmas they need about the guards, the receive path and the diagnostics. -/

namespace Sys2Proof.Machine

/-! ### Before the first `INIT` (R291) -/

theorem whenReady_unready {α : Type} {s : State} (h : s.regs.ready = false) (r : Result α) :
    whenReady s r = .refused .beforeInit := by
  simp [whenReady, h]

theorem whenSelected_unready {i : Instr} {s : State} (h : s.regs.ready = false) (r : Result State) :
    whenSelected i s r = .refused .beforeInit := whenReady_unready h _

/-- Every operation but `INIT` stands under the guard of R291. -/
theorem exec_unready {s : State} {i : Instr} (h : s.regs.ready = false) (hi : ∀ a r hb d, i ≠ .init a r hb d) :
    exec i s = .refused .beforeInit := by
  cases i with
  | init a r hb d => exact absurd rfl (hi a r hb d)
  | nmtStart f | nmtStop f | nmtPreop f | nmtReset f | nmtIgn f | pdoRx f | hbRx f | sdoReqRx f | sdoRpyRxOwn f
  | sdoRpyRxFlt f | sdoRpyRxMst f | unparsed f => exact whenSelected_unready h _
  | listenerReg c hd | filterAdd a | sdoSendReq d | sdoSendRsp d | pdoSend id l p | nmtSend cs tg | poll | rxirq
  | nmtBootdone => exact whenReady_unready h _

/-! ### `INIT` (R40, R240) -/

theorem maskAddr_toNat {a : Nat} (h : a ≤ 127) : (maskAddr a).toNat = a := by
  simp only [maskAddr, BitVec.toNat_ofNat]
  omega

theorem init_completes {a : Nat} (h1 : 1 ≤ a) (h2 : a ≤ 127) (r : Role) (hb : Time) (d : Bool) (s : State) :
    ∃ t, exec (.init a r hb d) s = .next t := ⟨_, if_pos ⟨h1, h2⟩⟩

/-- `INIT` puts `nmt` to the reset value of its role (R28, R40). -/
theorem init_nmt {a : Nat} (h1 : 1 ≤ a) (h2 : a ≤ 127) (r : Role) (hb : Time) (d : Bool) (s : State) :
    ∃ t, exec (.init a r hb d) s = .next t ∧ t.regs.nmt = initialNmt r := by
  obtain ⟨t, ht⟩ := init_completes h1 h2 r hb d s
  obtain ⟨-, -, hregs, -⟩ := init_effect ht
  exact ⟨t, ht, by rw [hregs]; rfl⟩

/-- Settles O2: the effect of `INIT` on every register, and the guard every other operation stands under. -/
theorem initGivesEveryRegisterItsResetValue : Obligations.InitGivesEveryRegisterItsResetValue := by
  refine ⟨fun s a role hb dbg h1 h2 => ?_, ⟨rfl, rfl⟩, fun s i => exec_unready⟩
  obtain ⟨t, ht⟩ := init_completes h1 h2 role hb dbg s
  obtain ⟨-, -, hregs, hparams, henv, htrace, hdiag, -⟩ := init_effect ht
  refine ⟨t, ht, ?_⟩
  rw [hregs]
  exact ⟨maskAddr_toNat h2, rfl, fun hr => hr ▸ rfl, fun hr => hr ▸ rfl, rfl, rfl, rfl, rfl, rfl, slots_empty, rfl,
    hparams, henv, htrace, hdiag⟩

/-! ### The writers of `nmt` (R28) -/

/-- `f` is a command of R152 to a node with own address `own`: an identifier-0 frame, addressed to it or to all, whose
byte 0 names the state `n`. -/
def CommandsState (own : Addr) (f : Frame) (n : NmtState) : Prop :=
  f.id = 0 ∧ (f.data.b1 = own.setWidth 8 ∨ f.data.b1 = 0) ∧ nmtTarget f.data.b0 = some n

/-- The four recognised command bytes, each with its state (R89, R151). -/
theorem nmtTarget_eq_some {c : Byte} {n : NmtState} (h : nmtTarget c = some n) :
    (c = 0x01 ∧ n = .operational) ∨ (c = 0x02 ∧ n = .stopped) ∨ (c = 0x80 ∧ n = .preOperational) ∨
      (c = 0x81 ∧ n = .reset) := by
  unfold nmtTarget at h
  split_ifs at h <;> simp_all

/-- An NMT row that is selected and entered its state: the frame commands that state. -/
theorem commandsState_of_enterState {f : Frame} {c : Byte} {n : NmtState} {s t : State} (hn : nmtTarget c = some n)
    (hs : f.id.toNat = 0 ∧ f.data.b0 = c ∧ s.ctx.addressed f = true) (h : enterState n s = .next t) :
    CommandsState s.regs.own f t.regs.nmt := by
  obtain ⟨hid, hb, ha⟩ := hs
  exact ⟨(id_eq_zero_iff f).2 hid, (addressed_iff _ f).1 ha, by rw [hb, hn, (enterState_route h).2]⟩

theorem notify_nmt {cat : Category} {p : Payload} {s t : State} (h : notify cat p s = .next t) :
    t.regs.nmt = s.regs.nmt := by rw [(notify_effect h).1]

@[simp] theorem listenerReg_nmt (c : Category) (h : Handle) (s : State) : (listenerReg c h s).regs.nmt = s.regs.nmt := by
  unfold listenerReg; split <;> rfl

@[simp] theorem filterAdd_nmt (a : Nat) (s : State) : (filterAdd a s).regs.nmt = s.regs.nmt := by
  unfold filterAdd; dsimp only; split <;> rfl

@[simp] theorem checkTimer_nmt (s : State) : (checkTimer s).regs.nmt = s.regs.nmt := by rw [(checkTimer_effect s).1]

/-- The one-shot leaves `nmt` alone or makes it `PreOperational` (R158). -/
theorem bootdone_nmt {s t : State} (h : bootdone s = .next t) :
    t.regs.nmt = s.regs.nmt ∨ t.regs.nmt = .preOperational := by
  unfold bootdone at h
  split at h
  · exact .inr (enterState_route h).2
  · cases h; exact .inl rfl

/-- `Rx()` returns the frame next on the port. -/
theorem rxIn_head_of_rx {s : State} {f : Frame} (h : (rx s).1 = some f) : s.env.rxIn.head? = some (some f) := by
  cases hr : s.env.rxIn with
  | nil => simp [rx_exhausted hr] at h
  | cons x rest => simpa [rx_listed hr] using h

/-- A receive changes `nmt` only by the frame next on `Rx`, and only if that frame commands the new state. -/
theorem receive_nmt {s t : State} (h : receive s = .next t) (hne : t.regs.nmt ≠ s.regs.nmt) :
    ∃ f, CommandsState s.regs.own f t.regs.nmt ∧ s.env.rxIn.head? = some (some f) := by
  unfold receive at h
  split at h
  · rename_i f hf
    exact ⟨f, by simpa [CommandsState] using (dispatch_effect h).2 (by simpa using hne), rxIn_head_of_rx hf⟩
  · cases h
    exact absurd (by simp) hne

theorem drain_nmt {s t : State} (h : drain s = .next t) (hne : t.regs.nmt ≠ s.regs.nmt) :
    ∃ f, CommandsState s.regs.own f t.regs.nmt ∧ s.env.rxIn.head? = some (some f) := by
  unfold drain at h
  split at h
  · simpa using receive_nmt h (by simpa using hne)
  · cases h
    exact absurd (by simp) hne

/-- The inversion lemma for `nmt`: an operation that changed it is `INIT`, the one-shot, or acted on a frame that commands the
new state. -/
theorem exec_nmt_writer {i : Instr} {s t : State} (h : exec i s = .next t) (hne : t.regs.nmt ≠ s.regs.nmt) :
    (∃ a r hb d, i = .init a r hb d) ∨ (i = .nmtBootdone ∧ t.regs.nmt = .preOperational) ∨
    ∃ f, CommandsState s.regs.own f t.regs.nmt ∧
      (i = .nmtStart f ∨ i = .nmtStop f ∨ i = .nmtPreop f ∨ i = .nmtReset f ∨
        ((i = .rxirq ∨ i = .poll) ∧ s.env.rxIn.head? = some (some f))) := by
  cases i with
  | init a r hb d => exact .inl ⟨a, r, hb, d, rfl⟩
  | nmtBootdone =>
    have hb := (whenReady_eq_next.1 h).2
    split at hb
    · exact .inr (.inl ⟨rfl, (bootdone_nmt hb).resolve_left hne⟩)
    · cases hb
  | nmtStart f =>
    obtain ⟨-, hs, ht⟩ := whenSelected_eq_next.1 h
    exact .inr (.inr ⟨f, commandsState_of_enterState rfl (selected_nmtStart.1 hs) ht, by simp⟩)
  | nmtStop f =>
    obtain ⟨-, hs, ht⟩ := whenSelected_eq_next.1 h
    exact .inr (.inr ⟨f, commandsState_of_enterState rfl (selected_nmtStop.1 hs) ht, by simp⟩)
  | nmtPreop f =>
    obtain ⟨-, hs, ht⟩ := whenSelected_eq_next.1 h
    exact .inr (.inr ⟨f, commandsState_of_enterState rfl (selected_nmtPreop.1 hs) ht, by simp⟩)
  | nmtReset f =>
    obtain ⟨-, hs, ht⟩ := whenSelected_eq_next.1 h
    exact .inr (.inr ⟨f, commandsState_of_enterState rfl (selected_nmtReset.1 hs) ht, by simp⟩)
  | rxirq =>
    obtain ⟨f, hf, hrx⟩ := receive_nmt (whenReady_eq_next.1 h).2 hne
    exact .inr (.inr ⟨f, hf, by simp [hrx]⟩)
  | poll =>
    obtain ⟨u, hu, ht⟩ := andThen_eq_next.1 (whenReady_eq_next.1 h).2
    cases ht
    rw [checkTimer_nmt] at hne ⊢
    obtain ⟨f, hf, hrx⟩ := drain_nmt hu hne
    exact .inr (.inr ⟨f, hf, by simp [hrx]⟩)
  | nmtIgn f | unparsed f => cases (whenSelected_eq_next.1 h).2.2; exact absurd rfl hne
  | pdoRx f | hbRx f | sdoReqRx f | sdoRpyRxOwn f | sdoRpyRxFlt f | sdoRpyRxMst f =>
    exact absurd (notify_nmt (whenSelected_eq_next.1 h).2.2) hne
  | listenerReg c hd => cases (whenReady_eq_next.1 h).2; exact absurd (listenerReg_nmt c hd s) hne
  | filterAdd a => cases (whenReady_eq_next.1 h).2; exact absurd (filterAdd_nmt a s) hne
  | sdoSendReq d => cases (whenReady_eq_next.1 h).2; exact absurd (by rw [(sdoSendReq_effect d s).regs]) hne
  | sdoSendRsp d => cases (whenReady_eq_next.1 h).2; exact absurd (by rw [(sdoSendRsp_effect d s).regs]) hne
  | pdoSend id l p => cases (whenReady_eq_next.1 h).2; exact absurd (by rw [(pdoSend_effect id l p s).regs]) hne
  | nmtSend cs tg => cases (whenReady_eq_next.1 h).2; exact absurd (by rw [(nmtSend_effect cs tg s).regs]) hne

/-- Settles O46: the reset values from `init_nmt`, the writers from `exec_nmt_writer`. -/
theorem nmtStateHasOnlyItsListedWriters : Obligations.NmtStateHasOnlyItsListedWriters := by
  refine ⟨fun s a hb dbg h1 h2 => ⟨init_nmt h1 h2 .slave hb dbg s, init_nmt h1 h2 .master hb dbg s⟩,
    fun s t i h hne => ?_⟩
  obtain hinit | hboot | ⟨f, ⟨hid, haddr, htgt⟩, hi⟩ := exec_nmt_writer h hne
  · exact .inl hinit
  · exact .inr (.inl hboot)
  · exact .inr (.inr ⟨f, hid, haddr, nmtTarget_eq_some htgt, hi⟩)

/-! ### Operations that commute with a change of the state

An operation commutes with a pair of maps when changing its input first, or its next value afterwards, gives the same
outcome. A part of the state that an operation neither reads nor writes is one whose change it commutes with. -/

/-- `k` on a changed input answers what `k` answers on the input, with its next value changed. -/
def Commutes {α β : Type} (φ : α → α) (ψ : β → β) (k : α → Result β) : Prop :=
  ∀ a, k (φ a) = andThen (k a) fun b => .next (ψ b)

namespace Commutes

variable {α β γ : Type} {φ : α → α} {ψ : β → β} {χ : γ → γ}

theorem next {g : α → β} (h : ∀ a, g (φ a) = ψ (g a)) : Commutes φ ψ fun a => .next (g a) :=
  fun a => congrArg Host.Outcome.next (h a)

theorem refused (e : Refusal) : Commutes φ ψ fun _ => .refused e := fun _ => rfl

theorem seq {k : α → Result β} {l : β → Result γ} (hk : Commutes φ ψ k) (hl : Commutes ψ χ l) :
    Commutes φ χ fun a => andThen (k a) l := by
  intro a
  show andThen (k (φ a)) l = andThen (andThen (k a) l) _
  rw [hk a]
  cases hka : k a with
  | next b => exact hl b
  | fault e => rfl
  | refused e => rfl

/-- The first part may be an ordinary function, such as a port primitive that answers a state. -/
theorem comp {g : α → β} {l : β → Result γ} (hg : ∀ a, g (φ a) = ψ (g a)) (hl : Commutes ψ χ l) :
    Commutes φ χ fun a => l (g a) := by
  intro a
  show l (g (φ a)) = _
  rw [hg a]
  exact hl (g a)

theorem ite {c : α → Prop} [∀ a, Decidable (c a)] {k l : α → Result β} (hc : ∀ a, c (φ a) ↔ c a)
    (hk : Commutes φ ψ k) (hl : Commutes φ ψ l) : Commutes φ ψ fun a => if c a then k a else l a := by
  intro a
  simp only [hc a]
  split
  · exact hk a
  · exact hl a

end Commutes

/-! ### What an operation does is the same with diagnostics off (R31, R277) -/

/-- `s` with the `debug` flag clear and `d` in place of the diagnostics history. -/
def silenced (d : List DiagLine) (s : State) : State :=
  { s with regs := { s.regs with debug := false }, out := { s.out with diag := d } }

theorem undebugged_eq_silenced (s : State) : undebugged s = silenced [] s := rfl

theorem silenced_self {s : State} (h : s.regs.debug = false) : silenced s.out.diag s = s := by
  obtain ⟨regs, params, env, out⟩ := s
  obtain ⟨own, role, nmt, bootDone, hbInterval, hbLast, debug, filt, lst, ready⟩ := regs
  cases h
  rfl

theorem diagIf_silenced (b : Bool) (l : DiagLine) (d : List DiagLine) (s : State) :
    (silenced d s).diagIf b l = silenced d (s.diagIf b l) := by
  simp [silenced, State.diagIf, diagLines]

/-! #### Port primitives and guards -/

theorem rx_silenced (d : List DiagLine) (s : State) : rx (silenced d s) = ((rx s).1, silenced d (rx s).2) := by
  cases h : s.env.rxIn with
  | nil => rw [rx_exhausted h, rx_exhausted (s := silenced d s) h]
  | cons x rest => rw [rx_listed h, rx_listed (s := silenced d s) h]; rfl

theorem pending_silenced (d : List DiagLine) (s : State) :
    pending (silenced d s) = ((pending s).1, silenced d (pending s).2) := by
  cases h : s.env.pendingIn with
  | nil => simp only [pending, silenced, h]
  | cons b rest => rw [pending_listed h, pending_listed (s := silenced d s) h]; rfl

theorem now_silenced (d : List DiagLine) (s : State) : now (silenced d s) = ((now s).1, silenced d (now s).2) := by
  cases h : s.env.nowIn with
  | nil => simp only [now, silenced, h]
  | cons t rest => rw [now_listed h, now_listed (s := silenced d s) h]; rfl

section
variable {d : List DiagLine}

theorem whenReady_commutes_silenced {op : State → Result State} (h : Commutes (silenced d) (silenced d) op) :
    Commutes (silenced d) (silenced d) fun s => whenReady s (op s) :=
  .ite (fun _ => .rfl) h (.refused _)

theorem whenSelected_commutes_silenced (i : Instr) {op : State → Result State} (h : Commutes (silenced d) (silenced d) op) :
    Commutes (silenced d) (silenced d) fun s => whenSelected i s (op s) :=
  whenReady_commutes_silenced (.ite (fun _ => .rfl) h (.refused _))

/-! #### Sends and the timer -/

theorem sendFrame_silenced (f : Frame) (s : State) : sendFrame f (silenced d s) = silenced d (sendFrame f s) := by
  show returnStatus _ ((silenced d (tx f s).2).diagIf _ _) = _
  rw [diagIf_silenced]
  rfl

theorem sdoSendReq_silenced (x : Descriptor) (s : State) : sdoSendReq x (silenced d s) = silenced d (sdoSendReq x s) := by
  unfold sdoSendReq
  split
  · rfl
  · exact sendFrame_silenced _ s

theorem sdoSendRsp_silenced (x : Descriptor) (s : State) : sdoSendRsp x (silenced d s) = silenced d (sdoSendRsp x s) := by
  unfold sdoSendRsp
  split
  · rfl
  · exact sendFrame_silenced _ s

theorem pdoSend_silenced (id length : Nat) (p : Bytes8) (s : State) :
    pdoSend id length p (silenced d s) = silenced d (pdoSend id length p s) := by
  unfold pdoSend
  split
  · rfl
  · exact sendFrame_silenced _ s

theorem nmtSend_master {s : State} (h : s.regs.role = .master) (cs : Byte) (target : Nat) :
    nmtSend cs target s = sendFrame (nmtFrame cs target) s := by
  simp only [nmtSend, h]

theorem nmtSend_slave {s : State} (h : s.regs.role = .slave) (cs : Byte) (target : Nat) :
    nmtSend cs target s = returnStatus .rejectedRole s := by
  simp only [nmtSend, h]

theorem nmtSend_silenced (cs : Byte) (target : Nat) (s : State) :
    nmtSend cs target (silenced d s) = silenced d (nmtSend cs target s) := by
  cases h : s.regs.role with
  | master => rw [nmtSend_master h, nmtSend_master (s := silenced d s) h, sendFrame_silenced]
  | slave => rw [nmtSend_slave h, nmtSend_slave (s := silenced d s) h]; rfl

theorem hbEmit_silenced (s : State) : hbEmit (silenced d s) = silenced d (hbEmit s) :=
  diagIf_silenced _ _ d (tx (hbFrame s.regs.own _) s).2

theorem hbTick_silenced (t : Time) (s : State) : hbTick t (silenced d s) = silenced d (hbTick t s) := by
  show (if hbDue t s.regs.hbLast s.regs.hbInterval then hbEmit (silenced d (s.setHbLast t)) else silenced d s) = _
  rw [hbEmit_silenced, hbTick, apply_ite (silenced d)]

theorem checkTimer_silenced (s : State) : checkTimer (silenced d s) = silenced d (checkTimer s) := by
  unfold checkTimer
  rw [now_silenced, hbTick_silenced]

/-! #### Listeners -/

theorem issuedByListener_commutes_silenced (i : Instr) : Commutes (silenced d) (silenced d) (issuedByListener i) := by
  cases i with
  | sdoSendReq x => exact .next (sdoSendReq_silenced x)
  | sdoSendRsp x => exact .next (sdoSendRsp_silenced x)
  | pdoSend id l p => exact .next (pdoSend_silenced id l p)
  | nmtSend cs tg => exact .next (nmtSend_silenced cs tg)
  | nmtStart _ | nmtStop _ | nmtPreop _ | nmtReset _ | nmtIgn _ | pdoRx _ | hbRx _ | sdoReqRx _ | sdoRpyRxOwn _
  | sdoRpyRxFlt _ | sdoRpyRxMst _ | unparsed _ | init _ _ _ _ | listenerReg _ _ | filterAdd _ | poll | rxirq
  | nmtBootdone => exact .refused _

theorem runIssued_commutes_silenced (is : List Instr) : Commutes (silenced d) (silenced d) (runIssued is) := by
  induction is with
  | nil => exact .next fun _ => rfl
  | cons i rest ih => exact .seq (issuedByListener_commutes_silenced i) ih

theorem listenerRuns_commutes_silenced : Commutes (silenced d) (silenced d) listenerRuns := by
  intro s
  cases h : s.env.reactIn with
  | nil => simp only [listenerRuns, silenced, h, andThen_next]
  | cons r rest =>
    cases r with
    | neverReturns => simp only [listenerRuns, silenced, h, andThen_fault]
    | returns issued =>
      simpa only [listenerRuns, silenced, h] using
        runIssued_commutes_silenced issued { s with env := { s.env with reactIn := rest } }

theorem invokeFrom_commutes_silenced (cat : Category) (p : Payload) (slot : Nat) (hs : List Handle) :
    Commutes (silenced d) (silenced d) (invokeFrom cat p slot hs) := by
  induction hs generalizing slot with
  | nil => exact .next fun _ => rfl
  | cons h rest ih => exact .seq (.comp (g := State.emit _) (fun _ => rfl) listenerRuns_commutes_silenced) (ih (slot + 1))

theorem notify_commutes_silenced (cat : Category) (p : Payload) : Commutes (silenced d) (silenced d) (notify cat p) :=
  fun s => invokeFrom_commutes_silenced cat p 0 (s.regs.lst.slots cat) s

theorem sdoRx_commutes_silenced (cat : Category) (f : Frame) (node : State → Byte) (hn : ∀ s, node (silenced d s) = node s) :
    Commutes (silenced d) (silenced d) fun s => sdoRx cat f (node s) s := by
  intro s
  show sdoRx cat f (node (silenced d s)) _ = _
  rw [hn s]
  exact notify_commutes_silenced cat _ s

theorem enterState_commutes_silenced (n : NmtState) : Commutes (silenced d) (silenced d) (enterState n) :=
  .comp (g := State.setNmt n) (fun _ => rfl) (notify_commutes_silenced _ _)

theorem nmtApply_commutes_silenced (c : Byte) : Commutes (silenced d) (silenced d) (nmtApply c) := by
  unfold nmtApply
  cases nmtTarget c with
  | some n => exact enterState_commutes_silenced n
  | none => exact .next fun _ => rfl

theorem bootdone_commutes_silenced : Commutes (silenced d) (silenced d) bootdone :=
  .ite (fun _ => .rfl) (.comp (g := State.setBootDone) (fun _ => rfl) (enterState_commutes_silenced _)) (.next fun _ => rfl)

/-! #### The Dispatcher -/

/-- A routed state, silenced. -/
def Routed.silenced (d : List DiagLine) (r : Routed) : Routed := ⟨r.matched, Machine.silenced d r.st⟩

theorem handled_commutes_silenced {op : State → Result State} (h : Commutes (silenced d) (silenced d) op) :
    Commutes (Routed.silenced d) (Routed.silenced d) fun r => handled (op r.st) :=
  .comp (ψ := silenced d) (g := Routed.st) (fun _ => rfl) (.seq h (.next (g := Routed.mk true) fun _ => rfl))

theorem pass_commutes_silenced : Commutes (Routed.silenced d) (Routed.silenced d) Host.Outcome.next := fun _ => rfl

theorem predicate1_commutes_silenced (f : Frame) : Commutes (Routed.silenced d) (Routed.silenced d) (predicate1 f) :=
  .ite (fun _ => .rfl)
    (handled_commutes_silenced
      (op := fun s => if f.data.b1 = s.regs.own.setWidth 8 ∨ f.data.b1 = 0 then nmtApply f.data.b0 s else .next s)
      (.ite (fun _ => .rfl) (nmtApply_commutes_silenced _) (.next fun _ => rfl)))
    pass_commutes_silenced

theorem predicate2_commutes_silenced (f : Frame) : Commutes (Routed.silenced d) (Routed.silenced d) (predicate2 f) :=
  .ite (fun _ => .rfl) (handled_commutes_silenced (notify_commutes_silenced _ _)) pass_commutes_silenced

theorem predicate3_commutes_silenced (f : Frame) : Commutes (Routed.silenced d) (Routed.silenced d) (predicate3 f) :=
  .ite (fun _ => .rfl)
    (handled_commutes_silenced
      (op := fun s =>
        if s.regs.role = .master ∨ inFilter s.regs.filt (f.id.toNat - 0x700) then notify .hbRx (.frame f) s else .next s)
      (.ite (fun _ => .rfl) (notify_commutes_silenced _ _) (.next fun _ => rfl)))
    pass_commutes_silenced

theorem predicate4_commutes_silenced (f : Frame) : Commutes (Routed.silenced d) (Routed.silenced d) (predicate4 f) :=
  .ite (fun _ => .rfl) (handled_commutes_silenced (sdoRx_commutes_silenced _ f ownNode fun _ => rfl)) pass_commutes_silenced

theorem predicate5_commutes_silenced (f : Frame) : Commutes (Routed.silenced d) (Routed.silenced d) (predicate5 f) :=
  .ite (fun _ => .rfl) (handled_commutes_silenced (sdoRx_commutes_silenced _ f ownNode fun _ => rfl)) pass_commutes_silenced

theorem filterLoop_commutes_silenced (f : Frame) (l : List Addr) :
    Commutes (Routed.silenced d) (Routed.silenced d) (filterLoop f l) := by
  induction l with
  | nil => exact pass_commutes_silenced
  | cons a rest ih =>
    exact .ite (fun _ => .rfl) (.seq (handled_commutes_silenced (sdoRx_commutes_silenced _ f ownNode fun _ => rfl)) ih) ih

theorem predicate6_commutes_silenced (f : Frame) : Commutes (Routed.silenced d) (Routed.silenced d) (predicate6 f) :=
  .ite (fun _ => .rfl) (fun r => filterLoop_commutes_silenced f r.st.regs.filt r) pass_commutes_silenced

theorem predicate7_commutes_silenced (f : Frame) : Commutes (Routed.silenced d) (Routed.silenced d) (predicate7 f) :=
  .ite (fun _ => .rfl)
    (handled_commutes_silenced
      (sdoRx_commutes_silenced _ f (fun s => nodeForMaster s.params.replyNode s.regs.own f) fun _ => rfl))
    pass_commutes_silenced

theorem reportUnparsed_silenced (s : State) : reportUnparsed (silenced d s) = silenced d (reportUnparsed s) :=
  diagIf_silenced _ _ d s

theorem finishDispatch_commutes_silenced : Commutes (Routed.silenced d) (silenced d) finishDispatch := by
  rintro ⟨matched, s⟩
  cases matched with
  | true => rfl
  | false => exact congrArg _ (reportUnparsed_silenced s)

theorem dispatch_commutes_silenced (f : Frame) : Commutes (silenced d) (silenced d) (dispatch f) :=
  .comp (g := Routed.mk false) (fun _ => rfl) <|
    .seq (predicate1_commutes_silenced f) <| .seq (predicate2_commutes_silenced f) <| .seq (predicate3_commutes_silenced f) <|
    .seq (predicate4_commutes_silenced f) <| .seq (predicate5_commutes_silenced f) <| .seq (predicate6_commutes_silenced f) <|
    .seq (predicate7_commutes_silenced f) finishDispatch_commutes_silenced

/-! #### Host operations -/

theorem receive_commutes_silenced : Commutes (silenced d) (silenced d) receive := by
  intro s
  unfold receive
  rw [rx_silenced]
  cases (rx s).1 with
  | some f => exact dispatch_commutes_silenced f _
  | none => rfl

theorem drain_commutes_silenced : Commutes (silenced d) (silenced d) drain := by
  intro s
  unfold drain
  rw [pending_silenced]
  cases (pending s).1 with
  | true => exact receive_commutes_silenced _
  | false => rfl

theorem listenerReg_silenced (c : Category) (h : Handle) (s : State) :
    listenerReg c h (silenced d s) = silenced d (listenerReg c h s) := by
  unfold listenerReg
  rw [apply_ite (silenced d)]
  rfl

theorem filterAdd_silenced (a : Nat) (s : State) : filterAdd a (silenced d s) = silenced d (filterAdd a s) := by
  unfold filterAdd
  dsimp only
  rw [apply_ite (silenced d)]
  rfl

/-- Diagnostics are invisible to every operation but `INIT`, the writer of `debug`. -/
theorem exec_commutes_silenced {i : Instr} (hi : ∀ a r hb dbg, i ≠ .init a r hb dbg) :
    Commutes (silenced d) (silenced d) (exec i) := by
  cases i with
  | init a r hb dbg => exact absurd rfl (hi a r hb dbg)
  | nmtStart f => exact whenSelected_commutes_silenced _ (enterState_commutes_silenced _)
  | nmtStop f => exact whenSelected_commutes_silenced _ (enterState_commutes_silenced _)
  | nmtPreop f => exact whenSelected_commutes_silenced _ (enterState_commutes_silenced _)
  | nmtReset f => exact whenSelected_commutes_silenced _ (enterState_commutes_silenced _)
  | nmtIgn f => exact whenSelected_commutes_silenced _ (.next fun _ => rfl)
  | pdoRx f => exact whenSelected_commutes_silenced _ (notify_commutes_silenced _ _)
  | hbRx f => exact whenSelected_commutes_silenced _ (notify_commutes_silenced _ _)
  | sdoReqRx f => exact whenSelected_commutes_silenced _ (sdoRx_commutes_silenced _ f ownNode fun _ => rfl)
  | sdoRpyRxOwn f => exact whenSelected_commutes_silenced _ (sdoRx_commutes_silenced _ f ownNode fun _ => rfl)
  | sdoRpyRxFlt f => exact whenSelected_commutes_silenced _ (sdoRx_commutes_silenced _ f ownNode fun _ => rfl)
  | sdoRpyRxMst f =>
    exact whenSelected_commutes_silenced _
      (sdoRx_commutes_silenced _ f (fun s => nodeForMaster s.params.replyNode s.regs.own f) fun _ => rfl)
  | unparsed f => exact whenSelected_commutes_silenced _ (.next reportUnparsed_silenced)
  | listenerReg c h => exact whenReady_commutes_silenced (.next (listenerReg_silenced c h))
  | filterAdd a => exact whenReady_commutes_silenced (.next (filterAdd_silenced a))
  | sdoSendReq x => exact whenReady_commutes_silenced (.next (sdoSendReq_silenced x))
  | sdoSendRsp x => exact whenReady_commutes_silenced (.next (sdoSendRsp_silenced x))
  | pdoSend id l p => exact whenReady_commutes_silenced (.next (pdoSend_silenced id l p))
  | nmtSend cs tg => exact whenReady_commutes_silenced (.next (nmtSend_silenced cs tg))
  | poll => exact whenReady_commutes_silenced (.seq drain_commutes_silenced (.next checkTimer_silenced))
  | rxirq => exact whenReady_commutes_silenced receive_commutes_silenced
  | nmtBootdone => exact whenReady_commutes_silenced (.ite (fun _ => .rfl) bootdone_commutes_silenced (.refused _))

end

/-- With `debug` clear an operation produces no diagnostics line: it commutes with writing back the flag and the history as they
were, so it leaves that history. -/
theorem exec_diag_of_debug_clear {i : Instr} {s t : State} (hi : ∀ a r hb d, i ≠ .init a r hb d)
    (hd : s.regs.debug = false) (h : exec i s = .next t) : t.out.diag = s.out.diag := by
  have hc := exec_commutes_silenced (d := s.out.diag) hi s
  rw [silenced_self hd, h, andThen_next, Host.Outcome.next.injEq] at hc
  rw [hc]
  rfl

/-- Settles O51: both clauses from `exec_commutes_silenced`, for `INIT` the first from `init_effect`. -/
theorem debugFlagIsDecorative : Obligations.DebugFlagIsDecorative := by
  refine fun s i => ⟨fun hd t ht => ?_, fun hi => ?_⟩
  · by_cases hi : ∀ a r hb d, i ≠ .init a r hb d
    · exact exec_diag_of_debug_clear hi hd ht
    · push Not at hi
      obtain ⟨a, r, hb, d, rfl⟩ := hi
      obtain ⟨-, -, -, -, -, -, hdiag, -⟩ := init_effect ht
      exact hdiag
  · rw [undebugged_eq_silenced, exec_commutes_silenced hi s, andThen_assoc]
    rfl

end Sys2Proof.Machine

/-! ## The settled statement on the encoding: the SDO length field

The proof of the family spec/30_encoding.md. The length field is put into arithmetic once in each direction
(`sdoByte0_toNat`, `sdoLength_eq`), and what comes back after encoding is read off there. -/

namespace Sys2Proof.Machine

/-! ### Byte 0 (R88, R171) -/

theorem toNat_and_highNibble (b : Byte) : (b &&& 0xF0).toNat = 16 * (b.toNat / 16) := by
  have hshift : b &&& (0xF0 : Byte) = b >>> 4 <<< 4 := by ext i hi; interval_cases i <;> simp
  have := b.isLt
  rw [hshift, BitVec.toNat_shiftLeft, BitVec.toNat_ushiftRight, Nat.shiftLeft_eq, Nat.shiftRight_eq_div_pow]
  omega

@[simp] theorem sdoByte0_zero (cmd : Byte) : sdoByte0 cmd 0 = cmd &&& 0xF0 := rfl

theorem sdoByte0_of_pos (cmd : Byte) {len : Nat} (h : 0 < len) :
    sdoByte0 cmd len = cmd &&& 0xF0 ||| BitVec.ofNat 8 (4 * (4 - len)) := by
  have hfield : BitVec.ofNat 8 (3 - (len - 1)) <<< 2 = BitVec.ofNat 8 (4 * (4 - len)) := by
    apply BitVec.eq_of_toNat_eq
    rw [BitVec.toNat_shiftLeft, BitVec.toNat_ofNat, BitVec.toNat_ofNat, Nat.shiftLeft_eq]
    omega
  rw [sdoByte0, if_pos h, hfield]
  rfl

theorem sdoByte0_four (cmd : Byte) : sdoByte0 cmd 4 = cmd &&& 0xF0 := by
  rw [sdoByte0_of_pos cmd (by decide)]
  exact BitVec.or_zero

/-- The high nibble stands above the length field, with no carry between them. -/
theorem sdoByte0_toNat (cmd : Byte) {len : Nat} (hl : len ≤ 4) :
    (sdoByte0 cmd len).toNat = 16 * (cmd.toNat / 16) + (if len = 0 then 0 else 4 * (4 - len)) := by
  rcases Nat.eq_zero_or_pos len with rfl | hpos
  · exact toNat_and_highNibble cmd
  · have hsmall : 4 * (4 - len) < 2 ^ 4 := by omega
    rw [sdoByte0_of_pos cmd hpos, if_neg hpos.ne', BitVec.toNat_or, toNat_and_highNibble, BitVec.toNat_ofNat,
      Nat.mod_eq_of_lt (by omega)]
    exact (Nat.two_pow_add_eq_or_of_lt hsmall _).symm

/-! ### The decoded length (R88, R173) -/

theorem toNat_lengthField (b : Byte) : ((b &&& 0x0C) >>> 2).toNat = b.toNat / 4 % 4 := by
  rw [BitVec.ushiftRight_and_distrib, BitVec.toNat_and, BitVec.toNat_ushiftRight, Nat.shiftRight_eq_div_pow]
  exact Nat.and_two_pow_sub_one_eq_mod _ 2

theorem sdoLength_eq (b : Byte) : sdoLength b = if b = 0x40 ∨ b = 0x60 then 0 else 4 - b.toNat / 4 % 4 := by
  have := toNat_lengthField b
  unfold sdoLength
  split <;> omega

/-- A byte with a zero length field decodes as 0 or as 4. -/
theorem sdoLength_of_highNibble {cmd : Byte} (h : cmd &&& 0xF0 = cmd) :
    sdoLength cmd = if cmd = 0x40 ∨ cmd = 0x60 then 0 else 4 := by
  have hn := toNat_and_highNibble cmd
  rw [h] at hn
  rw [sdoLength_eq, show 4 - cmd.toNat / 4 % 4 = 4 by omega]

/-! ### Encode then decode -/

/-- The lengths 1 to 3 come back under every command: their field is not zero, so byte 0 is neither `0x40` nor `0x60`. -/
theorem sdoLength_sdoByte0 (cmd : Byte) {len : Nat} (h1 : 1 ≤ len) (h3 : len ≤ 3) :
    sdoLength (sdoByte0 cmd len) = len := by
  have hb := sdoByte0_toNat cmd (show len ≤ 4 by omega)
  rw [if_neg (by omega)] at hb
  have hne : ¬ (sdoByte0 cmd len = 0x40 ∨ sdoByte0 cmd len = 0x60) := by
    rintro (h | h) <;> simp [h] at hb <;> omega
  rw [sdoLength_eq, if_neg hne]
  omega

/-- The lengths 0 and 4 share one byte 0, the command itself; which of the two is lost depends on the command. -/
theorem sdoLength_sdoByte0_ne_iff {cmd : Byte} (h : cmd &&& 0xF0 = cmd) {len : Nat} (hl : len ≤ 4) :
    sdoLength (sdoByte0 cmd len) ≠ len ↔
      (len = 0 ∧ ¬ (cmd = 0x40 ∨ cmd = 0x60)) ∨ (len = 4 ∧ (cmd = 0x40 ∨ cmd = 0x60)) := by
  obtain rfl | rfl | ⟨h1, h3⟩ : len = 0 ∨ len = 4 ∨ (1 ≤ len ∧ len ≤ 3) := by omega
  · rw [sdoByte0_zero, h, sdoLength_of_highNibble h]
    split <;> simp_all
  · rw [sdoByte0_four, h, sdoLength_of_highNibble h]
    split <;> simp_all
  · simp only [sdoLength_sdoByte0 cmd h1 h3]
    omega

/-- Settles O16: the encoding table from `sdoByte0_of_pos`, the decoding table from `sdoLength_eq`, and the pairs that do not
come back from `sdoLength_sdoByte0_ne_iff` at the three configured commands. -/
theorem sdoLengthFieldFollowsItsTables : Obligations.SdoLengthFieldFollowsItsTables := by
  refine ⟨fun cmd h => ?_, fun b0 => ?_, fun cmd hc len hlen => ?_⟩
  · have hpos {len : Nat} (hl : 0 < len) : sdoByte0 cmd len = cmd ||| BitVec.ofNat 8 (4 * (4 - len)) := by
      rw [sdoByte0_of_pos cmd hl, h]
    exact ⟨h, hpos (by decide), hpos (by decide), hpos (by decide), (sdoByte0_four cmd).trans h⟩
  · have hdec {n : Nat} (h4 : b0 ≠ 0x40) (h6 : b0 ≠ 0x60) (hn : b0.toNat / 4 % 4 = n) : sdoLength b0 = 4 - n := by
      rw [sdoLength_eq, if_neg (not_or.mpr ⟨h4, h6⟩), hn]
    exact ⟨fun h => by rw [sdoLength_eq, if_pos h], hdec, hdec, hdec, hdec⟩
  · have hhigh : cmd &&& 0xF0 = cmd := by revert cmd; decide
    have hle : len ≤ 4 := by revert len; decide
    rw [sdoLength_sdoByte0_ne_iff hhigh hle]
    revert cmd len
    decide

end Sys2Proof.Machine

/-! ## The settled statement on the Dispatcher: the unparsed frames

The proof of the family spec/40_dispatcher.md. When each predicate of R121 hands the dispatcher's local state on is said once per
predicate; a dispatch that only reports is the seven of them in a row. -/

namespace Sys2Proof.Machine

/-! ### A predicate that does not hold hands its state on (R122 to R128) -/

section

variable {f : Frame} {r : Routed}

theorem predicate1_pass (h : f.id.toNat ≠ 0) : predicate1 f r = .next r :=
  if_neg fun h0 => h ((id_eq_zero_iff f).1 h0)

theorem predicate2_pass (h : f.id.toNat ≤ 0x17F ∨ 0x580 ≤ f.id.toNat) : predicate2 f r = .next r :=
  if_neg (by omega)

theorem predicate3_pass (h : f.id.toNat ≤ 0x700) : predicate3 f r = .next r :=
  if_neg (by omega)

theorem predicate4_pass (h : f.id.toNat ≠ 0x600 + r.st.regs.own.toNat) : predicate4 f r = .next r :=
  if_neg h

theorem predicate5_pass (h : r.st.regs.role = .slave → f.id.toNat ≠ 0x580 + r.st.regs.own.toNat) :
    predicate5 f r = .next r :=
  if_neg fun ⟨hid, hslave⟩ => h hslave hid

/-- The guard of predicate 6 may hold: then no entry of its loop hits. -/
theorem predicate6_pass
    (h : 0x580 ≤ f.id.toNat → f.id.toNat < 0x600 → r.st.regs.role = .slave →
      ¬∃ e ∈ r.st.regs.filt, 0x580 + e.toNat = f.id.toNat) : predicate6 f r = .next r := by
  unfold predicate6
  split
  · rename_i hc
    obtain ⟨hlow, hhigh, hslave, -⟩ := hc
    exact filterLoop_eq_self (h hlow hhigh hslave)
  · rfl

theorem predicate7_pass (h : 0x580 ≤ f.id.toNat → f.id.toNat < 0x600 → r.st.regs.role ≠ .master) :
    predicate7 f r = .next r :=
  if_neg fun ⟨hlow, hhigh, hmaster⟩ => h hlow hhigh hmaster

end

/-! ### The unparsed frames (R129) -/

variable {f : Frame} {s : State}

/-- The row `UNPARSED` selects exactly the identifiers R129 lists. -/
theorem decodeFrame_unparsed_iff {c : DecodeCtx} :
    decodeFrame c f = .instr (.unparsed f) ↔
      (1 ≤ f.id.toNat ∧ f.id.toNat ≤ 0x17F) ∨
      (0x600 ≤ f.id.toNat ∧ f.id.toNat ≤ 0x6FF ∧ f.id.toNat ≠ 0x600 + c.own.toNat) ∨ f.id.toNat = 0x700 ∨
      (c.role = .slave ∧ (0x580 ≤ f.id.toNat ∧ f.id.toNat < 0x600) ∧ f.id.toNat ≠ 0x580 + c.own.toNat ∧
        ¬∃ e ∈ c.filt, 0x580 + e.toNat = f.id.toNat) :=
  (decodeFrame_eq_instr_iff (by simp [frameRows])).trans selected_unparsed

/-- The report is one line if `debug` is set, and nothing else (R129, R277). -/
theorem reportUnparsed_eq (s : State) :
    reportUnparsed s =
      { s with out := { s.out with diag := s.out.diag ++ (if s.regs.debug = true then [.unparsedFrame] else []) } } := by
  simp only [reportUnparsed, State.diagIf, diagLines, Bool.and_true]

theorem exec_unparsed (hr : s.regs.ready = true) (h : decodeFrame s.ctx f = .instr (.unparsed f)) :
    exec (.unparsed f) s = .next (reportUnparsed s) :=
  whenSelected_selected hr (selected_of_decodeFrame h).2 _

/-- None of the seven predicates holds for an unparsed frame, so `DISPATCH` comes to its report with `matched` clear. -/
theorem dispatch_unparsed (h : decodeFrame s.ctx f = .instr (.unparsed f)) : dispatch f s = .next (reportUnparsed s) := by
  have hid := decodeFrame_unparsed_iff.1 h
  have hown := s.regs.own.isLt
  simp only [State.ctx] at hid
  have hreply : 0x580 ≤ f.id.toNat → f.id.toNat < 0x600 →
      s.regs.role = .slave ∧ ¬∃ e ∈ s.regs.filt, 0x580 + e.toNat = f.id.toNat := by
    intro hlow hhigh
    obtain hid | hid | hid | ⟨hslave, -, -, hmiss⟩ := hid
    · omega
    · omega
    · omega
    · exact ⟨hslave, hmiss⟩
  have p1 : predicate1 f ⟨false, s⟩ = .next ⟨false, s⟩ := predicate1_pass (by omega)
  have p2 : predicate2 f ⟨false, s⟩ = .next ⟨false, s⟩ := predicate2_pass (by omega)
  have p3 : predicate3 f ⟨false, s⟩ = .next ⟨false, s⟩ := predicate3_pass (by omega)
  have p4 : predicate4 f ⟨false, s⟩ = .next ⟨false, s⟩ := predicate4_pass (by dsimp only; omega)
  have p5 : predicate5 f ⟨false, s⟩ = .next ⟨false, s⟩ := predicate5_pass fun _ => by dsimp only; omega
  have p6 : predicate6 f ⟨false, s⟩ = .next ⟨false, s⟩ := predicate6_pass fun hlow hhigh _ => (hreply hlow hhigh).2
  have p7 : predicate7 f ⟨false, s⟩ = .next ⟨false, s⟩ := predicate7_pass fun hlow hhigh => by simp [(hreply hlow hhigh).1]
  simp only [dispatch, p1, p2, p3, p4, p5, p6, p7, andThen_next]
  rfl

/-- Settles O36: the identifiers from `decodeFrame_unparsed_iff`, the report from `exec_unparsed` and `dispatch_unparsed`. -/
theorem unparsedFrameIsOnlyReported : Obligations.UnparsedFrameIsOnlyReported := by
  rintro s f _ hr rfl
  refine ⟨decodeFrame_unparsed_iff.trans ?_, fun h => ?_⟩
  · have hmiss : (¬∃ e ∈ s.regs.filt, 0x580 + e.toNat = f.id.toNat) ↔ ∀ e ∈ s.regs.filt, f.id.toNat ≠ 0x580 + e.toNat := by
      simp only [not_exists, not_and, ne_eq, eq_comm]
    have hend : f.id.toNat < 0x600 ↔ f.id.toNat ≤ 0x5FF := Nat.lt_succ_iff
    simp only [State.ctx, hmiss, hend, and_assoc]
  · rw [dispatch_unparsed h, exec_unparsed hr h, ← reportUnparsed_eq]
    exact ⟨rfl, rfl⟩

end Sys2Proof.Machine

/-! ## The settled statements on NMT: the received commands and the ignored frames

Proofs of the family spec/41_nmt.md. A command row is its decoding and one `enterState`; an ignored frame leaves the state as it
is in `exec` and in the Dispatcher, where of the seven predicates only the first holds for an identifier-0 frame. -/

namespace Sys2Proof.Machine

variable {f : Frame} {s : State}

/-! ### A received command (R153 to R156) -/

/-- Entering a state writes it and notifies it once. -/
theorem enterState_notifiedOnce {n : NmtState} (hl : ListenersLawful s) :
    ∃ t, enterState n s = .next t ∧ NotifiedOnce .stateChange (.state n) (s.setNmt n) t := by
  obtain ⟨t, ht⟩ := enterState_completes (n := n) hl
  exact ⟨t, ht, notify_effect ht⟩

/-- A selected row whose operation enters a state decodes to that operation, which writes the state and notifies it once. -/
theorem nmtCommand_notifiedOnce {i : Instr} {n : NmtState} (hi : i ∈ frameRows f)
    (hexec : exec i s = whenSelected i s (enterState n s)) (hs : selected s.ctx i = true) (hr : s.regs.ready = true)
    (hl : ListenersLawful s) :
    decodeFrame s.ctx f = .instr i ∧
      ∃ t, exec i s = .next t ∧ NotifiedOnce .stateChange (.state n) (s.setNmt n) t := by
  refine ⟨(decodeFrame_eq_instr_iff hi).2 hs, ?_⟩
  rw [hexec, whenSelected_selected hr hs]
  exact enterState_notifiedOnce hl

/-! ### An ignored frame (R157) -/

theorem nmtTarget_eq_none {c : Byte} (h : ¬recognisedNmt c = true) : nmtTarget c = none := by
  simp only [recognisedNmt_iff, not_or] at h
  obtain ⟨h1, h2, h3, h4⟩ := h
  rw [nmtTarget, if_neg h1, if_neg h2, if_neg h3, if_neg h4]

/-- An unrecognised command byte changes nothing (R152). -/
theorem nmtApply_unrecognised {c : Byte} (h : ¬recognisedNmt c = true) : nmtApply c s = .next s := by
  rw [nmtApply, nmtTarget_eq_none h]

/-- The row `NMT.IGN` selects the identifier-0 frames that are not an addressed command. -/
theorem decodeFrame_nmtIgn_iff {c : DecodeCtx} :
    decodeFrame c f = .instr (.nmtIgn f) ↔ f.id = 0 ∧ ¬(recognisedNmt f.data.b0 = true ∧ c.addressed f = true) := by
  rw [decodeFrame_eq_instr_iff (by simp [frameRows]), selected_nmtIgn, id_eq_zero_iff]

/-- Another node's address, or any other command byte. -/
theorem decodeFrame_nmtIgn (hid : f.id = 0)
    (h : (f.data.b1 ≠ s.regs.own.setWidth 8 ∧ f.data.b1 ≠ 0) ∨ f.data.b0 ∉ ([0x01, 0x02, 0x80, 0x81] : List Byte)) :
    decodeFrame s.ctx f = .instr (.nmtIgn f) := by
  refine decodeFrame_nmtIgn_iff.2 ⟨hid, fun ⟨hb, ha⟩ => ?_⟩
  obtain ⟨hown, hall⟩ | hother := h
  · exact ((addressed_iff s.ctx f).1 ha).elim hown hall
  · exact hother (by simpa using (recognisedNmt_iff f.data.b0).1 hb)

theorem exec_nmtIgn (hr : s.regs.ready = true) (h : decodeFrame s.ctx f = .instr (.nmtIgn f)) :
    exec (.nmtIgn f) s = .next s :=
  whenSelected_selected hr (selected_of_decodeFrame h).2 _

/-- No predicate after the first holds for an identifier-0 frame, whatever predicate 1 did. -/
theorem dispatch_id_zero (hid : f.id = 0) : dispatch f s = andThen (predicate1 f ⟨false, s⟩) finishDispatch := by
  have h0 : f.id.toNat = 0 := (id_eq_zero_iff f).1 hid
  have p2 (r : Routed) : predicate2 f r = .next r := predicate2_pass (by omega)
  have p3 (r : Routed) : predicate3 f r = .next r := predicate3_pass (by omega)
  have p4 (r : Routed) : predicate4 f r = .next r := predicate4_pass (by omega)
  have p5 (r : Routed) : predicate5 f r = .next r := predicate5_pass fun _ => by omega
  have p6 (r : Routed) : predicate6 f r = .next r := predicate6_pass fun hlow => absurd hlow (by omega)
  have p7 (r : Routed) : predicate7 f r = .next r := predicate7_pass fun hlow => absurd hlow (by omega)
  simp only [dispatch, p2, p3, p4, p5, p6, p7, andThen_next]

/-- Predicate 1 marks an ignored frame as matched and does nothing else (R122). -/
theorem predicate1_nmtIgn {r : Routed} (h : decodeFrame r.st.ctx f = .instr (.nmtIgn f)) :
    predicate1 f r = .next ⟨true, r.st⟩ := by
  obtain ⟨hid, hign⟩ := decodeFrame_nmtIgn_iff.1 h
  rw [predicate1, if_pos hid]
  split
  · rename_i ha
    rw [nmtApply_unrecognised fun hb => hign ⟨hb, (addressed_iff _ f).2 ha⟩, handled_next]
  · exact handled_next _

/-- An ignored frame comes to the end of `DISPATCH` with `matched` set, so it is not reported. -/
theorem dispatch_nmtIgn (h : decodeFrame s.ctx f = .instr (.nmtIgn f)) : dispatch f s = .next s := by
  rw [dispatch_id_zero (decodeFrame_nmtIgn_iff.1 h).1, predicate1_nmtIgn (r := ⟨false, s⟩) h]
  rfl

/-! ### The statements -/

/-- Settles O8: one row of `nmtCommand_notifiedOnce` for each command, and `decodeFrame_nmtIgn` for the rest. -/
theorem nmtCommandsWriteTheirStateAndNotify : Obligations.NmtCommandsWriteTheirStateAndNotify := by
  refine ⟨fun mk cs new hrow s f hr hid hb ha hl => ?_, fun s f hr hid hign => ?_⟩
  · have h0 := (id_eq_zero_iff f).1 hid
    have hadr : s.ctx.addressed f = true := (addressed_iff _ f).2 ha
    simp only [List.mem_cons, Prod.mk.injEq, List.not_mem_nil, or_false] at hrow
    obtain ⟨rfl, rfl, rfl⟩ | ⟨rfl, rfl, rfl⟩ | ⟨rfl, rfl, rfl⟩ | ⟨rfl, rfl, rfl⟩ := hrow
    · exact nmtCommand_notifiedOnce (by simp [frameRows]) rfl (selected_nmtStart.2 ⟨h0, hb, hadr⟩) hr hl
    · exact nmtCommand_notifiedOnce (by simp [frameRows]) rfl (selected_nmtStop.2 ⟨h0, hb, hadr⟩) hr hl
    · exact nmtCommand_notifiedOnce (by simp [frameRows]) rfl (selected_nmtPreop.2 ⟨h0, hb, hadr⟩) hr hl
    · exact nmtCommand_notifiedOnce (by simp [frameRows]) rfl (selected_nmtReset.2 ⟨h0, hb, hadr⟩) hr hl
  · have hdec : decodeFrame s.ctx f = .instr (.nmtIgn f) := decodeFrame_nmtIgn hid hign
    exact ⟨hdec, exec_nmtIgn hr hdec⟩

/-- Settles O10: the decoding as in O8, then `exec_nmtIgn` and `dispatch_nmtIgn`. -/
theorem nmtIgnoredFrameChangesNothing : Obligations.NmtIgnoredFrameChangesNothing := by
  intro s f hr hid hign
  have hdec : decodeFrame s.ctx f = .instr (.nmtIgn f) := decodeFrame_nmtIgn hid (by simpa using hign)
  exact ⟨hdec, exec_nmtIgn hr hdec, dispatch_nmtIgn hdec⟩

end Sys2Proof.Machine

/-! ## The settled statement on the SDO engine: the four receive operations

The proof of the family spec/42_sdo.md. A received-frame row whose operation is one `Notify` decodes to that operation and
notifies once (`notifyingRow_notifiedOnce`); each SDO row is its selecting condition and its descriptor's node. -/

namespace Sys2Proof.Machine

variable {f : Frame} {s : State}

/-! ### A row that notifies -/

/-- A selected row whose operation is one notification decodes to that operation, which notifies once. -/
theorem notifyingRow_notifiedOnce {i : Instr} {cat : Category} {p : Payload} (hi : i ∈ frameRows f)
    (hexec : exec i s = whenSelected i s (notify cat p s)) (hs : selected s.ctx i = true) (hr : s.regs.ready = true)
    (hl : ListenersLawful s) :
    decodeFrame s.ctx f = .instr i ∧ ∃ t, exec i s = .next t ∧ NotifiedOnce cat p s t := by
  refine ⟨(decodeFrame_eq_instr_iff hi).2 hs, ?_⟩
  obtain ⟨t, ht⟩ := notify_completes (cat := cat) (p := p) hl
  rw [hexec, whenSelected_selected hr hs]
  exact ⟨t, ht, notify_effect ht⟩

/-! ### The rows of the replies (R182 to R184) -/

/-- A slave's filter entry other than its own address selects the reply that comes from it. -/
theorem selected_sdoRpyRxFlt_of_mem {e : Addr} (he : e ∈ s.regs.filt) (hid : f.id.toNat = 0x580 + e.toNat)
    (hown : e ≠ s.regs.own) (hslave : s.regs.role = .slave) : selected s.ctx (.sdoRpyRxFlt f) = true := by
  have hlt := e.isLt
  have hne : e.toNat ≠ s.regs.own.toNat := fun h => hown (BitVec.eq_of_toNat_eq h)
  refine selected_sdoRpyRxFlt.2 ⟨by omega, hslave, ?_, e, he, hid.symm⟩
  simp only [State.ctx]
  omega

/-- The sender of a reply, under the setting `source`. -/
theorem nodeForMaster_source_toNat {own : Addr} (h : f.id.toNat < 0x600) :
    (nodeForMaster .source own f).toNat = f.id.toNat - 0x580 := by
  rw [nodeForMaster, BitVec.toNat_ofNat]
  omega

/-! ### The statement -/

/-- Settles O20: `notifyingRow_notifiedOnce` for each of the four rows; the node on the master path is `NodeForMaster`. -/
theorem sdoReceiveNotifiesTheDecodedDescriptor : Obligations.SdoReceiveNotifiesTheDecodedDescriptor := by
  rintro s f _ hr hl rfl
  refine ⟨fun hid => ?request, fun hid hslave => ?own, fun e he hid hne hslave => ?filtered,
    fun hlow hhigh hmaster => ?master⟩
  case request => exact notifyingRow_notifiedOnce (by simp [frameRows]) rfl (selected_sdoReqRx.2 hid) hr hl
  case own => exact notifyingRow_notifiedOnce (by simp [frameRows]) rfl (selected_sdoRpyRxOwn.2 ⟨hid, hslave⟩) hr hl
  case filtered =>
    exact notifyingRow_notifiedOnce (by simp [frameRows]) rfl (selected_sdoRpyRxFlt_of_mem he hid hne hslave) hr hl
  case master =>
    obtain ⟨hdec, t, ht, hnotified⟩ := notifyingRow_notifiedOnce (f := f) (i := .sdoRpyRxMst f) (by simp [frameRows]) rfl
      (selected_sdoRpyRxMst.2 ⟨⟨hlow, hhigh⟩, hmaster⟩) hr hl
    refine ⟨hdec, t, nodeForMaster s.params.replyNode s.regs.own f, ht, hnotified, fun hsource => ?_, fun hown => ?_⟩
    · rw [hsource, nodeForMaster_source_toNat hhigh]
    · rw [hown, nodeForMaster]

end Sys2Proof.Machine

/-! ## The settled statement on the forwarded frames: PDO and heartbeat reception

The proof of the families spec/43_pdo.md and spec/44_heartbeat.md. Both rows are one `Notify` of the received frame itself. -/

namespace Sys2Proof.Machine

variable {f : Frame} {s : State}

/-- A heartbeat selects its row in a master, and in a slave that has its sender in the filter (R216). -/
theorem selected_hbRx_of_monitored (hid : 0x700 < f.id.toNat)
    (h : s.regs.role = .master ∨ ∃ e ∈ s.regs.filt, f.id.toNat = 0x700 + e.toNat) :
    selected s.ctx (.hbRx f) = true :=
  selected_hbRx.2 ⟨hid, h.imp_right fun ⟨e, he, hsum⟩ => ⟨e, he, hsum.symm⟩⟩

/-- Settles O23: `notifyingRow_notifiedOnce` for each of the two rows, with the frame itself as the payload. -/
theorem pdoAndHeartbeatFramesAreForwardedVerbatim : Obligations.PdoAndHeartbeatFramesAreForwardedVerbatim := by
  intro s f hr hl
  refine ⟨fun hlow hhigh => ?pdo, fun hid hmonitored => ?heartbeat⟩
  case pdo => exact notifyingRow_notifiedOnce (by simp [frameRows]) rfl (selected_pdoRx.2 ⟨hlow, hhigh⟩) hr hl
  case heartbeat =>
    exact notifyingRow_notifiedOnce (by simp [frameRows]) rfl (selected_hbRx_of_monitored hid hmonitored) hr hl

end Sys2Proof.Machine

/-! ## The settled statement on a failed transmission

The proof of the family spec/60_exceptions.md. A send command is answered with a rejection or hands one frame to the transport
(`exec_send_cases`); what the transport's `busError` then leaves is read off `transmitted`, and for a heartbeat off `tx`. -/

namespace Sys2Proof.Machine

variable {s : State}

/-! ### What a send command answers (R177, R201, R160) -/

/-- `t` is `s` after a send command: rejected before transmission, or one frame handed to the transport and its status returned. -/
def SendAnswered (s t : State) : Prop :=
  t = answered .rejectedParam s ∨ t = answered .rejectedRole s ∨ ∃ f, t = transmitted f s

theorem sendFrame_answered (f : Frame) (s : State) : SendAnswered s (sendFrame f s) :=
  .inr (.inr ⟨f, sendFrame_eq_transmitted f s⟩)

/-- The shape of the sends that test a parameter. -/
theorem rejectedParam_or_sendFrame_answered (c : Prop) [Decidable c] (f : Frame) (s : State) :
    SendAnswered s (if c then returnStatus .rejectedParam s else sendFrame f s) := by
  split
  · exact .inl rfl
  · exact sendFrame_answered f s

theorem nmtSend_answered (cs : Byte) (target : Nat) (s : State) : SendAnswered s (nmtSend cs target s) := by
  cases h : s.regs.role with
  | master => rw [nmtSend_master h]; exact sendFrame_answered _ s
  | slave => rw [nmtSend_slave h]; exact .inr (.inl rfl)

/-- Every send command completes after `INIT`, with one of the answers of `SendAnswered`. -/
theorem exec_send_cases {i : Instr} (hr : s.regs.ready = true) (hi : isSend i = true) :
    ∃ t, exec i s = .next t ∧ SendAnswered s t := by
  cases i with
  | sdoSendReq d => exact ⟨_, whenReady_ready hr _, rejectedParam_or_sendFrame_answered _ _ s⟩
  | sdoSendRsp d => exact ⟨_, whenReady_ready hr _, rejectedParam_or_sendFrame_answered _ _ s⟩
  | pdoSend id length p => exact ⟨_, whenReady_ready hr _, rejectedParam_or_sendFrame_answered _ _ s⟩
  | nmtSend cs target => exact ⟨_, whenReady_ready hr _, nmtSend_answered cs target s⟩
  | _ => cases hi

theorem SendAnswered.regs_eq {t : State} : SendAnswered s t → t.regs = s.regs := by
  rintro (rfl | rfl | ⟨f, rfl⟩) <;> rfl

/-! ### A transmission answered `busError` (R60, R261, R277) -/

section
variable (f : Frame) (h : txAnswer s.env = .busError)
include h

theorem transmitted_trace_of_busError :
    (transmitted f s).out.trace = s.out.trace ++ [.tx f .busError, .status .busError] := by
  simp only [transmitted, h]

theorem transmitted_diag_of_busError :
    (transmitted f s).out.diag = s.out.diag ++ (if s.regs.debug = true then [.transmitFailed] else []) := by
  simp only [transmitted, h, true_and]

theorem hbEmit_diag_of_busError :
    (hbEmit s).out.diag = s.out.diag ++ (if s.regs.debug = true then [.heartbeatTransmitFailed] else []) := by
  simp [hbEmit, h, diagLines]

end

/-- The frame of an emission, with the transport's answer (R213). -/
theorem hbEmit_trace (s : State) :
    (hbEmit s).out.trace =
      s.out.trace ++ [.tx (hbFrame s.regs.own (hbCode s.params.hbResetByte s.regs.nmt)) (txAnswer s.env)] := rfl

/-! ### The statement -/

/-- Settles O49: `exec_send_cases` for the four sends, and the transmission with its answer `busError`; then the emission. -/
theorem transportFailureIsReportedOnceAndAbandoned : Obligations.TransportFailureIsReportedOnceAndAbandoned := by
  intro s hr hbus
  refine ⟨fun i hi => ?send, (hbEmit_effect s).regs, _, hbus ▸ hbEmit_trace s, hbEmit_diag_of_busError hbus⟩
  obtain ⟨t, ht, hanswer⟩ := exec_send_cases hr hi
  refine ⟨t, ht, hanswer.regs_eq, hanswer.imp_right (Or.imp_right ?_)⟩
  rintro ⟨f, rfl⟩
  exact ⟨f, transmitted_trace_of_busError f hbus, transmitted_diag_of_busError f hbus⟩

end Sys2Proof.Machine

/-! ## The settled statements on every step: what it runs, the histories, the invariant

A step is `exec` of the operation at the head of port `cmd`, or nothing (`step_eq_next`); so what every operation keeps, every
step keeps. What an operation can do is `exec_effect` and, for `INIT`, `init_effect`. -/

namespace Sys2Proof.Machine

variable {s t : State}

/-! ### A step (R12, R24) -/

theorem step_idle (h : s.env.cmd = []) : step s = .next s := by
  simp only [step, h]

theorem step_instr {record : List Byte} {rest : List (List Byte)} {i : Instr} (h : s.env.cmd = record :: rest)
    (hi : decodeHost record = .instr i) : step s = exec i (s.withCmd rest) := by
  simp only [step, h, hi]

theorem step_badRecord {record : List Byte} {rest : List (List Byte)} {why : Reject} (h : s.env.cmd = record :: rest)
    (hw : decodeHost record = .rejected why) : step s = .refused (.badRecord why) := by
  simp only [step, h, hw]

/-- The inversion lemma of `step`: a step that answered ran one operation, or nothing. -/
theorem step_eq_next (h : step s = .next t) : t = s ∨ ∃ i rest, exec i (s.withCmd rest) = .next t := by
  cases hc : s.env.cmd with
  | nil =>
    rw [step_idle hc] at h
    cases h
    exact .inl rfl
  | cons record rest =>
    cases hd : decodeHost record with
    | instr i => exact .inr ⟨i, rest, step_instr hc hd ▸ h⟩
    | rejected why =>
      rw [step_badRecord hc hd] at h
      cases h

/-- Settles O58: the three cases of a step. -/
theorem stepRunsTheIssuedOperation : Obligations.StepRunsTheIssuedOperation :=
  fun _ => ⟨fun _ _ _ hc hi => step_instr hc hi, fun _ _ _ hc hw => step_badRecord hc hw, step_idle⟩

/-- An operation is an `INIT`, or `exec_effect` applies to it. -/
theorem init_or_not (i : Instr) : (∃ a r hb d, i = .init a r hb d) ∨ ∀ a r hb d, i ≠ .init a r hb d := by
  cases i <;> simp

/-! ### The histories (C12, R40) -/

theorem exec_histories_grow {i : Instr} (h : exec i s = .next t) :
    s.out.trace <+: t.out.trace ∧ s.out.diag <+: t.out.diag ∧ s.out.xcfg <+: t.out.xcfg := by
  obtain ⟨a, r, hb, d, rfl⟩ | hi := init_or_not i
  · obtain ⟨-, -, -, -, -, htrace, hdiag, hxcfg⟩ := init_effect h
    exact ⟨by rw [htrace], by rw [hdiag], hxcfg⟩
  · have e := exec_effect hi h
    exact ⟨e.trace.trace_prefix, e.diag, e.xcfg⟩

/-- Settles O52: an idle step keeps the histories, and every operation lets them grow. -/
theorem historiesOnlyGrow : Obligations.HistoriesOnlyGrow := by
  intro s t h
  obtain rfl | ⟨i, rest, hx⟩ := step_eq_next h
  · exact ⟨List.prefix_refl _, List.prefix_refl _, List.prefix_refl _⟩
  · exact exec_histories_grow (s := s.withCmd rest) hx

/-! ### The Listen Filter and the Listener table (R33, R34, R39) -/

theorem listenersOk_iff {l : ListenerTable} : ListenersOk l ↔ ∀ c, (l.slots c).length ≤ Config.listenerSlots := by
  refine ⟨fun ⟨h1, h2, h3, h4, h5⟩ c => ?_, fun h => ⟨h .stateChange, h .pdoRx, h .sdoReqRx, h .sdoRpyRx, h .hbRx⟩⟩
  cases c
  · exact h1
  · exact h2
  · exact h3
  · exact h4
  · exact h5

/-- A registration goes to a category that has a free slot, so none comes to hold more than six. -/
theorem listenerReg_listenersOk (h : ListenersOk s.regs.lst) (cat : Category) (x : Handle) :
    ListenersOk (listenerReg cat x s).regs.lst := by
  unfold listenerReg
  split
  · rename_i hfree
    refine listenersOk_iff.2 fun c => ?_
    show ((s.regs.lst.append cat x).slots c).length ≤ _
    by_cases hc : c = cat
    · subst hc
      rw [append_slots_self, List.length_append]
      exact hfree
    · rw [append_slots_other _ _ hc]
      exact listenersOk_iff.1 h c
  · exact h

/-- What `FILTER.ADD` drops silently (R243, decision D24). -/
theorem filterDrops_iff {r : Regs} {a : Addr} :
    filterDrops r a = true ↔ a = 0 ∨ a = r.own ∨ a ∈ r.filt ∨ Config.filterCap ≤ r.filt.length := by
  simp only [filterDrops, Bool.or_eq_true, beq_iff_eq, inFilter_toNat, decide_eq_true_eq, ge_iff_le, or_assoc]

/-- What `FILTER.ADD` drops is all that R39 forbids the filter to hold. -/
theorem filterAdd_filterOk (h : FilterOk s.regs) (addr : Nat) : FilterOk (filterAdd addr s).regs := by
  unfold filterAdd
  dsimp only
  split
  · exact h
  · rename_i hkeep
    obtain ⟨hlen, hnodup, hzero, hown⟩ := h
    simp only [filterDrops_iff, not_or, not_le] at hkeep
    obtain ⟨h0, hne, hnew, hfree⟩ := hkeep
    simp only [FilterOk, emitXcfg_regs, List.length_append, List.length_singleton, List.mem_append, List.mem_singleton, not_or]
    exact ⟨hfree, List.concat_eq_append ▸ hnodup.concat hnew, ⟨hzero, Ne.symm h0⟩, ⟨hown, Ne.symm hne⟩⟩

/-! ### The entries of the histories (R39) -/

/-- With at most six filled slots, whatever an operation adds to the history is of the form R39 asks for. -/
theorem routeEntry_imp_entryOk {role : Role} {l : ListenerTable} (hl : ListenersOk l) {o : Obs}
    (h : routeEntry role l o = true) : entryOk o = true := by
  cases o with
  | tx f r =>
    simp only [routeEntry, sendEntry, Bool.and_eq_true] at h
    simp only [entryOk, Bool.and_eq_true]
    exact h.1
  | ev c slot x p =>
    simp only [routeEntry, entryOk, Bool.and_eq_true, decide_eq_true_eq] at h ⊢
    exact ⟨lt_of_lt_of_le h.1 (listenersOk_iff.1 hl c), h.2⟩
  | status st => rfl

theorem Extends.all_trace {P : Obs → Bool} (h : Extends P s t) (hs : s.out.trace.all P = true) :
    t.out.trace.all P = true := by
  obtain ⟨new, hnew, hP⟩ := h
  rw [hnew, List.all_append, hs, hP]
  rfl

/-! ### The invariant -/

theorem init_inv {a : Nat} {r : Role} {hb : Time} {d : Bool} (hinv : Inv s) (h : exec (.init a r hb d) s = .next t) :
    Inv t := by
  obtain ⟨-, -, -, hentries⟩ := hinv
  obtain ⟨h1, h2, hregs, -, -, htrace, -⟩ := init_effect h
  rw [Inv, hregs, htrace]
  refine ⟨fun _ => ?_, ?_, ?_, hentries⟩
  · rw [show (initRegs s.params a r hb d).own = maskAddr a from rfl, maskAddr_toNat h2]
    exact ⟨h1, h2⟩
  · exact ⟨Nat.zero_le _, List.nodup_nil, List.not_mem_nil, List.not_mem_nil⟩
  · exact listenersOk_iff.2 fun c => by simp [initRegs]

/-- Only `FILTER.ADD` writes the filter. -/
theorem exec_filterOk {i : Instr} (hi : ∀ a r hb d, i ≠ .init a r hb d) (hf : FilterOk s.regs) (h : exec i s = .next t) :
    FilterOk t.regs := by
  by_cases hadd : ∃ a, i = .filterAdd a
  · obtain ⟨a, rfl⟩ := hadd
    cases (whenReady_eq_next.1 h).2
    exact filterAdd_filterOk hf a
  · have e := exec_effect hi h
    rw [FilterOk, e.filt (not_exists.1 hadd), e.own]
    exact hf

/-- Only `LISTENER.REG` writes the table. -/
theorem exec_listenersOk {i : Instr} (hi : ∀ a r hb d, i ≠ .init a r hb d) (hl : ListenersOk s.regs.lst)
    (h : exec i s = .next t) : ListenersOk t.regs.lst := by
  by_cases hreg : ∃ c x, i = .listenerReg c x
  · obtain ⟨c, x, rfl⟩ := hreg
    cases (whenReady_eq_next.1 h).2
    exact listenerReg_listenersOk hl c x
  · rw [(exec_effect hi h).lst fun c x hcx => hreg ⟨c, x, hcx⟩]
    exact hl

/-- Every operation keeps the invariant. -/
theorem exec_inv {i : Instr} (hinv : Inv s) (h : exec i s = .next t) : Inv t := by
  obtain ⟨a, r, hb, d, rfl⟩ | hi := init_or_not i
  · exact init_inv hinv h
  · obtain ⟨hown, hfilt, hlst, hentries⟩ := hinv
    have e := exec_effect hi h
    refine ⟨?_, exec_filterOk hi hfilt h, exec_listenersOk hi hlst h, ?_⟩
    · rw [OwnOk, e.own, e.ready]
      exact hown
    · exact (e.trace.mono fun _ => routeEntry_imp_entryOk hlst).all_trace hentries

/-- Settles O55: a step is one operation on the state without its record, and `exec_inv` holds of every operation. -/
theorem everyStepKeepsTheInvariant : Obligations.EveryStepKeepsTheInvariant := by
  intro s t hinv h
  obtain rfl | ⟨i, rest, hx⟩ := step_eq_next h
  · exact hinv
  · exact exec_inv (s := s.withCmd rest) hinv hx

/-- Settles O54: every register and history of `State.reset` is written out. -/
theorem invariantHoldsAfterReset : Obligations.InvariantHoldsAfterReset := by
  refine ⟨fun _ => ?_, ?_, ?_, rfl⟩
  · decide
  · decide
  · decide

end Sys2Proof.Machine

/-! ## The settled statements on the encoding: records, rows and patterns

A record decodes by its selector or as its frame does (`decodeHost_hostRecord`, `decodeFrameRecord_writeFrame`); a frame decodes
to the one row that selects it (`decodeFrame_eq_instr_iff`); a pattern of the table is an interval of decode vectors
(`and_mask_eq_iff`). -/

namespace Sys2Proof

variable {c : DecodeCtx} {f : Frame}

/-! ### Records (R92, R95) -/

theorem decodeHost_hostRecord {op a b : Nat} (hop : op < 16) (ha : a < 4294967296) (hb : b < 4294967296) (f1 f2 f3 : Byte)
    (p : Bytes8) : decodeHost (hostRecord op f1 f2 f3 a b p) = decodeSelector op ⟨f1, f2, f3, a, b, p⟩ := by
  have hsel : (BitVec.ofNat 8 op).toNat % 16 = op := by
    rw [BitVec.toNat_ofNat]
    omega
  simp only [decodeHost, hostRecord, hsel, le32_byteOf ha, le32_byteOf hb]

/-- The descriptor in the record of an SDO send reads back (R100). -/
theorem decodeHost_descriptorRecord {op : Nat} {d : Descriptor} (hop : op < 16) (hlen : d.len < 4294967296) :
    ∃ x : HostFields, decodeHost (descriptorRecord op d) = decodeSelector op x ∧ x.descriptor = d := by
  have hindex : d.index.toNat < 4294967296 := by omega
  refine ⟨_, decodeHost_hostRecord hop hindex hlen _ _ _ _, ?_⟩
  simp only [HostFields.descriptor, BitVec.ofNat_toNat, BitVec.setWidth_eq]

theorem categoryOf_categoryIndex (cat : Category) :
    categoryOf (BitVec.ofNat 8 (categoryIndex cat)).toNat = some cat := by
  cases cat <;> rfl

/-- A row's record decodes to the row in every engine in which its frame selects it. -/
theorem decodeFrameRecord_eq_instr {i : Instr} (hi : i ∈ frameRows f) (hs : selected c i = true) :
    decodeFrameRecord c (writeFrame f) = .instr i := by
  rw [decodeFrameRecord_writeFrame]
  exact (decodeFrame_eq_instr_iff hi).2 hs

theorem fitsWord_iff {n : Nat} : fitsWord n = true ↔ n < 4294967296 := decide_eq_true_iff

/-- Settles O56: the twelve rows by `decodeFrameRecord_eq_instr`, the ten host commands by `decodeHost_hostRecord`. -/
theorem decodeOfEncodeIsTheOperation : Obligations.DecodeOfEncodeIsTheOperation := by
  intro c i hwf hs
  have h0 : (0 : Nat) < 4294967296 := by decide
  cases i with
  | nmtStart f | nmtStop f | nmtPreop f | nmtReset f | nmtIgn f | pdoRx f | hbRx f | sdoReqRx f | sdoRpyRxOwn f
  | sdoRpyRxFlt f | sdoRpyRxMst f | unparsed f => exact decodeFrameRecord_eq_instr (by simp [frameRows]) hs
  | init a role hb dbg =>
    refine (decodeHost_hostRecord (op := 0) (by decide) (fitsWord_iff.1 hwf) hb.isLt _ _ _ _).trans ?_
    cases role <;> cases dbg <;> simp [decodeSelector, roleByte, bitByte]
  | listenerReg cat h =>
    refine (decodeHost_hostRecord (op := 1) (by decide) (fitsWord_iff.1 hwf) h0 _ _ _ _).trans ?_
    simp only [decodeSelector, categoryOf_categoryIndex]
  | filterAdd addr => exact decodeHost_hostRecord (op := 2) (by decide) (fitsWord_iff.1 hwf) h0 _ _ _ _
  | sdoSendReq d =>
    obtain ⟨x, hx, hd⟩ := decodeHost_descriptorRecord (op := 3) (d := d) (by decide) (fitsWord_iff.1 hwf)
    exact hx.trans (by rw [decodeSelector, hd])
  | sdoSendRsp d =>
    obtain ⟨x, hx, hd⟩ := decodeHost_descriptorRecord (op := 4) (d := d) (by decide) (fitsWord_iff.1 hwf)
    exact hx.trans (by rw [decodeSelector, hd])
  | pdoSend id length p =>
    obtain ⟨hid, hlength⟩ := (Bool.and_eq_true _ _).mp hwf
    exact decodeHost_hostRecord (op := 5) (by decide) (fitsWord_iff.1 hid) (fitsWord_iff.1 hlength) _ _ _ _
  | nmtSend cs target => exact decodeHost_hostRecord (op := 6) (by decide) (fitsWord_iff.1 hwf) h0 _ _ _ _
  | poll | rxirq | nmtBootdone => rfl

/-- Settles O57: the two frame records are those of frames that their rows select; the two host records evaluate. -/
theorem sampleRecordsDecode : Obligations.SampleRecordsDecode := by
  refine ⟨fun c => ?nmtStart, ?sdoRequest, fun c => rfl, fun c => rfl⟩
  case nmtStart =>
    exact decodeFrameRecord_eq_instr (f := ⟨0, false, false, 2, ⟨0x01, 0x00, 0, 0, 0, 0, 0, 0⟩⟩) (by simp [frameRows])
      (selected_nmtStart.2 ⟨rfl, rfl, (addressed_iff _ _).2 (.inr rfl)⟩)
  case sdoRequest =>
    exact decodeFrameRecord_eq_instr (f := ⟨0x605, false, false, 8, ⟨0x2B, 0x00, 0x20, 0x00, 0x34, 0x12, 0x00, 0x00⟩⟩)
      (by simp [frameRows]) (selected_sdoReqRx.2 rfl)

/-! ### The classification (R131, R133) -/

/-- At most one row selects a frame. -/
theorem classify_length_le_one (c : DecodeCtx) (f : Frame) : (classify c f).length ≤ 1 := by
  have hnodup : (classify c f).Nodup := (frameRows_nodup f).filter _
  match h : classify c f with
  | [] => exact Nat.zero_le 1
  | [_] => exact le_refl 1
  | i :: j :: rest =>
    have hi : i ∈ classify c f := by simp [h]
    have hj : j ∈ classify c f := by simp [h]
    obtain ⟨hi, si⟩ := List.mem_filter.1 hi
    obtain ⟨hj, sj⟩ := List.mem_filter.1 hj
    rw [h, selected_unique hi hj si sj] at hnodup
    simp at hnodup

theorem decodeFrame_ne_ambiguous (c : DecodeCtx) (f : Frame) : decodeFrame c f ≠ .rejected .ambiguous := by
  have hlen := classify_length_le_one c f
  intro h
  unfold decodeFrame at h
  split at h
  · cases h
  · cases h
  · rename_i hc
    simp [hc] at hlen

theorem slave_of_not_master {r : Role} (h : ¬r = .master) : r = .slave := by
  cases r with
  | master => exact absurd rfl h
  | slave => rfl

/-- A heartbeat that a slave does not subscribe to selects no row (R95, decision D26). -/
theorem decodeFrame_unmonitored (hid : 0x700 < f.id.toNat) (hslave : c.role = .slave)
    (hmiss : ¬∃ e ∈ c.filt, 0x700 + e.toNat = f.id.toNat) : decodeFrame c f = .rejected .matchedDropped := by
  have hown := c.own.isLt
  refine decodeFrame_eq_dropped ?_
  rw [forall_frameRows]
  simp only [selected_nmtStart, selected_nmtStop, selected_nmtPreop, selected_nmtReset, selected_nmtIgn, selected_pdoRx,
    selected_hbRx, selected_sdoReqRx, selected_sdoRpyRxOwn, selected_sdoRpyRxFlt, selected_sdoRpyRxMst, selected_unparsed,
    hslave, hmiss]
  refine ⟨?_, ?_, ?_, ?_, ?_, ?_, by simp, ?_, ?_, ?_, ?_, ?_⟩ <;> omega

/-- Settles O32: each leaf of the table is the selecting condition of its row; the last one is the dropped heartbeat. -/
theorem frameClassificationTable : Obligations.FrameClassificationTable := by
  rintro c f _ rfl
  have hown := c.own.isLt
  have hrow {i : Instr} (hs : selected c i = true) (hi : i ∈ frameRows f := by simp [frameRows]) :
      decodeFrame c f = .instr i := (decodeFrame_eq_instr_iff hi).2 hs
  split_ifs with h0 haddr hstart hstop hpreop hreset hun hpdo hreply hmst hsrc hflt hreq hown' h700 hhb
  · exact hrow (selected_nmtStart.2 ⟨h0, hstart, (addressed_iff c f).2 haddr⟩)
  · exact hrow (selected_nmtStop.2 ⟨h0, hstop, (addressed_iff c f).2 haddr⟩)
  · exact hrow (selected_nmtPreop.2 ⟨h0, hpreop, (addressed_iff c f).2 haddr⟩)
  · exact hrow (selected_nmtReset.2 ⟨h0, hreset, (addressed_iff c f).2 haddr⟩)
  · exact hrow (selected_nmtIgn.2 ⟨h0, fun h => by
      simpa only [hstart, hstop, hpreop, hreset, or_self] using (recognisedNmt_iff _).1 h.1⟩)
  · exact hrow (selected_nmtIgn.2 ⟨h0, fun h => haddr ((addressed_iff c f).1 h.2)⟩)
  · exact hrow (selected_unparsed.2 (by omega))
  · exact hrow (selected_pdoRx.2 (by omega))
  · exact hrow (selected_sdoRpyRxMst.2 ⟨by omega, hmst⟩)
  · exact hrow (selected_sdoRpyRxOwn.2 ⟨hsrc, slave_of_not_master hmst⟩)
  · exact hrow (selected_sdoRpyRxFlt.2 ⟨by omega, slave_of_not_master hmst, hsrc, hflt⟩)
  · exact hrow (selected_unparsed.2 (.inr (.inr (.inr ⟨slave_of_not_master hmst, by omega, hsrc, hflt⟩))))
  · exact hrow (selected_sdoReqRx.2 hown')
  · exact hrow (selected_unparsed.2 (by omega))
  · exact hrow (selected_unparsed.2 (by omega))
  · exact hrow (selected_hbRx.2 ⟨by omega, hhb⟩)
  · rw [not_or] at hhb
    exact decodeFrame_unmonitored (by omega) (slave_of_not_master hhb.1) hhb.2

/-! ### What decoding does not read (R132) -/

/-- The twelve received-frame rows, as the constructors that make them of a frame. -/
theorem frameRows_eq_map (f : Frame) :
    frameRows f = [Instr.nmtStart, .nmtStop, .nmtPreop, .nmtReset, .nmtIgn, .pdoRx, .hbRx, .sdoReqRx, .sdoRpyRxOwn,
      .sdoRpyRxFlt, .sdoRpyRxMst, .unparsed].map fun mk => mk f := rfl

/-- Settles O34: a row's selecting condition is the same term for both frames. -/
theorem decodeIgnoresFlagsAndDataLength : Obligations.DecodeIgnoresFlagsAndDataLength := by
  intro c f ext rtr dlc mk hmk
  have hrow (g : Frame) : mk g ∈ frameRows g := frameRows_eq_map g ▸ List.mem_map_of_mem hmk
  have hsel : selected c (mk { f with ext := ext, rtr := rtr, dlc := dlc }) = selected c (mk f) := by
    simp only [List.mem_cons, List.not_mem_nil, or_false] at hmk
    obtain rfl | rfl | rfl | rfl | rfl | rfl | rfl | rfl | rfl | rfl | rfl | rfl := hmk <;> rfl
  rw [decodeFrame_eq_instr_iff (hrow _), decodeFrame_eq_instr_iff (hrow f), hsel]

/-! ### The patterns of the opcode table (R95) -/

theorem Frame.vector_lt (f : Frame) : f.vector < 2 ^ 19 := by
  have := f.id.isLt
  have := f.data.b0.isLt
  rw [Frame.vector]
  omega

/-- The masks of the table keep the bits of the vector from bit `k` on, so a pattern is an interval of vectors. -/
theorem and_mask_eq {v k : Nat} (hv : v < 2 ^ 19) (hk : k ≤ 19) : v &&& (2 ^ 19 - 2 ^ k) = 2 ^ k * (v / 2 ^ k) := by
  have hmask : 2 ^ 19 - 2 ^ k = (2 ^ (19 - k) - 1) <<< k := by
    rw [Nat.shiftLeft_eq, Nat.sub_mul, ← pow_add, Nat.sub_add_cancel hk, Nat.one_mul]
  have hkeep : 2 ^ k * (v / 2 ^ k) = v >>> k <<< k := by
    rw [Nat.shiftLeft_eq, Nat.shiftRight_eq_div_pow, Nat.mul_comm]
  rw [hmask, hkeep]
  refine Nat.eq_of_testBit_eq fun j => ?_
  rw [Nat.testBit_and, Nat.testBit_shiftLeft, Nat.testBit_shiftLeft, Nat.testBit_shiftRight, Nat.testBit_two_pow_sub_one]
  by_cases hkj : k ≤ j
  · by_cases hj : j < 19
    · simp [hkj, show j - k < 19 - k by omega]
    · have hzero : v.testBit j = false := Nat.testBit_lt_two_pow (hv.trans_le (Nat.pow_le_pow_right (by decide) (by omega)))
      simp [hkj, hzero]
  · simp [hkj]

theorem matchesRow_iff {v : Nat} {i : Instr} : matchesRow v i = true ↔ ∃ p ∈ tablePatterns i, v &&& p.2 = p.1 := by
  simp only [matchesRow, List.any_eq_true, beq_iff_eq]

theorem matchesRow_pdoRx (f : Frame) :
    matchesRow f.vector (.pdoRx f) = true ↔ 0x180 ≤ f.id.toNat ∧ f.id.toNat ≤ 0x57F := by
  have hv := f.vector_lt
  have hb := f.data.b0.isLt
  have m15 : f.vector &&& 0x78000 = 2 ^ 15 * (f.vector / 2 ^ 15) := and_mask_eq (k := 15) hv (by decide)
  have m16 : f.vector &&& 0x70000 = 2 ^ 16 * (f.vector / 2 ^ 16) := and_mask_eq (k := 16) hv (by decide)
  have m17 : f.vector &&& 0x60000 = 2 ^ 17 * (f.vector / 2 ^ 17) := and_mask_eq (k := 17) hv (by decide)
  simp only [matchesRow_iff, tablePatterns, List.mem_cons, List.not_mem_nil, or_false, exists_eq_or_imp, exists_eq_left,
    m15, m16, m17]
  rw [Frame.vector] at hv ⊢
  omega

/-- The pattern of `HB.RX` at bit `k` is the interval of vectors from `0x70000 + 2 ^ k` on, as long as it. -/
theorem tablePatterns_hbRx (f : Frame) :
    tablePatterns (.hbRx f) = [8, 9, 10, 11, 12, 13, 14, 15].map fun k => (0x70000 + 2 ^ k, 2 ^ 19 - 2 ^ k) := rfl

theorem matchesRow_hbRx (f : Frame) : matchesRow f.vector (.hbRx f) = true ↔ 0x701 ≤ f.id.toNat := by
  have hv := f.vector_lt
  have hb := f.data.b0.isLt
  have hbits : matchesRow f.vector (.hbRx f) = true ↔
      ∃ k ∈ [8, 9, 10, 11, 12, 13, 14, 15], 2 ^ k * (f.vector / 2 ^ k) = 0x70000 + 2 ^ k := by
    simp only [matchesRow_iff, tablePatterns_hbRx, List.mem_map, exists_exists_and_eq_and]
    refine exists_congr fun k => and_congr_right fun hk => ?_
    rw [and_mask_eq hv (by revert k; decide)]
  rw [hbits]
  simp only [List.mem_cons, List.not_mem_nil, or_false, exists_eq_or_imp, exists_eq_left]
  rw [Frame.vector] at hv ⊢
  omega

/-- A row whose only pattern keeps the bits from bit `k` on. -/
theorem matchesRow_of_div_eq {i : Instr} {m mask k : Nat} (hi : tablePatterns i = [(m, mask)]) (hk : k ≤ 19)
    (hmask : mask = 2 ^ 19 - 2 ^ k) (hm : 2 ^ k * (f.vector / 2 ^ k) = m) : matchesRow f.vector i = true :=
  matchesRow_iff.2 ⟨(m, mask), by simp [hi], by rw [hmask, and_mask_eq f.vector_lt hk, hm]⟩

/-- Every row that selects a frame has a pattern that matches it: the patterns are necessary conditions. -/
theorem matchesRow_of_selected : ∀ i ∈ frameRows f, selected c i = true → matchesRow f.vector i = true := by
  have hv : f.vector = f.id.toNat * 256 + f.data.b0.toNat := rfl
  have hb := f.data.b0.isLt
  have hown := c.own.isLt
  have command {i : Instr} {cs : Byte} (hi : tablePatterns i = [(cs.toNat, 0x7FFFF)])
      (h : f.id.toNat = 0 ∧ f.data.b0 = cs ∧ c.addressed f = true) : matchesRow f.vector i = true := by
    obtain ⟨hid, rfl, -⟩ := h
    exact matchesRow_of_div_eq (k := 0) hi (by decide) (by decide) (by omega)
  rw [forall_frameRows]
  refine ⟨fun h => ?_, fun h => ?_, fun h => ?_, fun h => ?_, fun h => ?_, fun h => ?_, fun h => ?_, fun h => ?_, fun h => ?_,
    fun h => ?_, fun h => ?_, fun _ => ?_⟩
  · exact command (cs := 0x01) rfl (selected_nmtStart.1 h)
  · exact command (cs := 0x02) rfl (selected_nmtStop.1 h)
  · exact command (cs := 0x80) rfl (selected_nmtPreop.1 h)
  · exact command (cs := 0x81) rfl (selected_nmtReset.1 h)
  · obtain ⟨hid, -⟩ := selected_nmtIgn.1 h
    exact matchesRow_of_div_eq (k := 8) rfl (by decide) (by decide) (by omega)
  · exact (matchesRow_pdoRx f).2 (by have := selected_pdoRx.1 h; omega)
  · exact (matchesRow_hbRx f).2 (selected_hbRx.1 h).1
  · have hid := selected_sdoReqRx.1 h
    exact matchesRow_of_div_eq (k := 15) rfl (by decide) (by decide) (by omega)
  · obtain ⟨hid, -⟩ := selected_sdoRpyRxOwn.1 h
    exact matchesRow_of_div_eq (k := 15) rfl (by decide) (by decide) (by omega)
  · obtain ⟨hid, -⟩ := selected_sdoRpyRxFlt.1 h
    exact matchesRow_of_div_eq (k := 15) rfl (by decide) (by decide) (by omega)
  · obtain ⟨hid, -⟩ := selected_sdoRpyRxMst.1 h
    exact matchesRow_of_div_eq (k := 15) rfl (by decide) (by decide) (by omega)
  · exact matchesRow_of_div_eq (k := 19) rfl (by decide) (by decide) (by have := f.vector_lt; omega)

/-- Settles O35: a decoded row selects its frame (`selected_of_decodeFrame`), so its pattern matches; the exact ranges are
`matchesRow_pdoRx` and `matchesRow_hbRx`. -/
theorem decodedRowMatchesItsTablePattern : Obligations.DecodedRowMatchesItsTablePattern := by
  refine ⟨fun c f i h => ?_, fun f => ⟨matchesRow_pdoRx f, matchesRow_hbRx f⟩⟩
  obtain ⟨hi, hs⟩ := selected_of_decodeFrame h
  exact matchesRow_of_selected i hi hs

end Sys2Proof

/-! ## The settled statements on the Dispatcher: one predicate for each frame, and the row's operation

For each engine and frame six of the seven predicates of R121 hand the dispatcher's local state on (`predicates_pass`), so a
dispatch is the seventh alone (`dispatch_eq_onlyPredicate`); that one does what the selected row's operation does. -/

namespace Sys2Proof.Machine

variable {f : Frame} {s : State}

/-! ### The predicates as a list (R121) -/

/-- The Dispatcher's seven predicates, in their order. -/
def predicates (f : Frame) : List (Routed → Result Routed) :=
  [predicate1 f, predicate2 f, predicate3 f, predicate4 f, predicate5 f, predicate6 f, predicate7 f]

@[simp] theorem predicates_length (f : Frame) : (predicates f).length = 7 := rfl

/-- Predicates evaluated one after the other, none stopping the later ones. -/
def runPredicates : List (Routed → Result Routed) → Routed → Result Routed
  | [], r => .next r
  | p :: rest, r => andThen (p r) (runPredicates rest)

theorem dispatch_eq_runPredicates (f : Frame) (s : State) :
    dispatch f s = andThen (runPredicates (predicates f) ⟨false, s⟩) finishDispatch := by
  simp only [dispatch, predicates, runPredicates, andThen_assoc, andThen_next]

theorem runPredicates_pass {ps : List (Routed → Result Routed)} {r : Routed} (h : ∀ p ∈ ps, p r = .next r) :
    runPredicates ps r = .next r := by
  induction ps with
  | nil => rfl
  | cons p rest ih =>
    obtain ⟨hp, hrest⟩ := List.forall_mem_cons.1 h
    rw [runPredicates, hp, andThen_next]
    exact ih hrest

/-- If the predicates before one pass at `r`, and those after it pass at what it answers, it alone counts. -/
theorem runPredicates_eq_getElem {ps : List (Routed → Result Routed)} {n : Nat} {r : Routed} (hn : n < ps.length)
    (hbefore : ∀ k (hk : k < ps.length), k < n → ps[k] r = .next r)
    (hafter : ∀ x, ps[n] r = .next x → ∀ k (hk : k < ps.length), n < k → ps[k] x = .next x) :
    runPredicates ps r = ps[n] r := by
  induction ps generalizing n with
  | nil => cases hn
  | cons p rest ih =>
    cases n with
    | zero =>
      show andThen (p r) (runPredicates rest) = p r
      cases hp : p r with
      | next x =>
        refine runPredicates_pass fun q hq => ?_
        obtain ⟨k, hk, rfl⟩ := List.mem_iff_getElem.1 hq
        exact hafter x hp (k + 1) (by simpa using hk) (by simp)
      | fault e => rfl
      | refused e => rfl
    | succ n =>
      have hp : p r = .next r := hbefore 0 (by simp) (by simp)
      rw [runPredicates, hp, andThen_next]
      exact ih (by simpa using hn) (fun k hk hlt => hbefore (k + 1) (by simpa using hk) (by omega))
        fun x hx k hk hlt => hafter x hx (k + 1) (by simpa using hk) (by omega)

/-! ### The one predicate that can hold (R131) -/

/-- The place in the list of the only predicate that can hold for a frame in an engine. -/
def predicateNumber (c : DecodeCtx) (f : Frame) : Nat :=
  if f.id.toNat < 0x180 then 0
  else if f.id.toNat < 0x580 then 1
  else if f.id.toNat < 0x600 then
    (if c.role = .master then 6 else if f.id.toNat = 0x580 + c.own.toNat then 4 else 5)
  else if f.id.toNat ≤ 0x700 then 3
  else 2

section
variable {c : DecodeCtx}

theorem predicateNumber_lt (c : DecodeCtx) (f : Frame) : predicateNumber c f < 7 := by
  unfold predicateNumber
  split_ifs <;> decide

theorem predicateNumber_nmt (h : f.id = 0) : predicateNumber c f = 0 := by
  rw [id_eq_zero_iff] at h
  rw [predicateNumber, if_pos (by omega)]

theorem predicateNumber_pdo (h : 0x17F < f.id.toNat ∧ f.id.toNat < 0x580) : predicateNumber c f = 1 := by
  rw [predicateNumber, if_neg (by omega), if_pos h.2]

theorem predicateNumber_heartbeat (h : 0x700 < f.id.toNat) : predicateNumber c f = 2 := by
  rw [predicateNumber, if_neg (by omega), if_neg (by omega), if_neg (by omega), if_neg (by omega)]

theorem predicateNumber_request (h : f.id.toNat = 0x600 + c.own.toNat) : predicateNumber c f = 3 := by
  have := c.own.isLt
  rw [predicateNumber, if_neg (by omega), if_neg (by omega), if_neg (by omega), if_pos (by omega)]

theorem predicateNumber_reply_slave (h : 0x580 ≤ f.id.toNat ∧ f.id.toNat < 0x600) (hslave : c.role = .slave) :
    predicateNumber c f = if f.id.toNat = 0x580 + c.own.toNat then 4 else 5 := by
  rw [predicateNumber, if_neg (by omega), if_neg (by omega), if_pos h.2, if_neg (by simp [hslave])]

theorem predicateNumber_reply_master (h : 0x580 ≤ f.id.toNat ∧ f.id.toNat < 0x600) (hmaster : c.role = .master) :
    predicateNumber c f = 6 := by
  rw [predicateNumber, if_neg (by omega), if_neg (by omega), if_pos h.2, if_pos hmaster]

theorem predicateNumber_reply_own (h : f.id.toNat = 0x580 + c.own.toNat) (hslave : c.role = .slave) :
    predicateNumber c f = 4 := by
  have := c.own.isLt
  rw [predicateNumber_reply_slave (by omega) hslave, if_pos h]

end

/-- Every other predicate hands the dispatcher's local state on: its guard would make it the one. -/
theorem predicates_pass {r : Routed} {k : Nat} (hk : k < (predicates f).length) (hne : predicateNumber r.st.ctx f ≠ k) :
    (predicates f)[k] r = .next r := by
  have hk7 : k < 7 := hk
  interval_cases k
  · exact if_neg fun h => hne (predicateNumber_nmt h)
  · exact if_neg fun h => hne (predicateNumber_pdo h)
  · exact if_neg fun h => hne (predicateNumber_heartbeat h)
  · exact if_neg fun h => hne (predicateNumber_request h)
  · exact if_neg fun ⟨h, hslave⟩ => hne (predicateNumber_reply_own h hslave)
  · refine if_neg fun ⟨hlow, hhigh, hslave, hown⟩ => hne ?_
    exact (predicateNumber_reply_slave ⟨hlow, hhigh⟩ hslave).trans (if_neg hown)
  · exact if_neg fun ⟨hlow, hhigh, hmaster⟩ => hne (predicateNumber_reply_master ⟨hlow, hhigh⟩ hmaster)

theorem predicates_route {r x : Routed} : ∀ p ∈ predicates f, p r = .next x → RouteEffect r.st x.st := by
  simp only [predicates, List.forall_mem_cons]
  exact ⟨fun h => (predicate1_effect h).1, fun h => (predicate2_effect h).1, fun h => (predicate3_effect h).1,
    fun h => (predicate4_effect h).1, fun h => (predicate5_effect h).1, fun h => (predicate6_effect h).1,
    fun h => (predicate7_effect h).1, by simp⟩

/-- A dispatch is the one predicate that can hold, and the report. -/
theorem dispatch_eq_onlyPredicate {n : Nat} (hn : predicateNumber s.ctx f = n) (hlt : n < (predicates f).length) :
    dispatch f s = andThen ((predicates f)[n] ⟨false, s⟩) finishDispatch := by
  rw [dispatch_eq_runPredicates, runPredicates_eq_getElem hlt]
  · exact fun k hk hkn => predicates_pass hk fun h => hkn.ne (h.symm.trans hn)
  · intro x hx k hk hnk
    have hctx : x.st.ctx = s.ctx := (predicates_route _ (List.getElem_mem _) hx).ctx
    exact predicates_pass hk fun h => hnk.ne (hn.symm.trans (hctx ▸ h))

/-- Settles O33: the decoder from `classify_length_le_one`; of two predicates at most one is the one of `predicateNumber`; and
the loop of predicate 6 handles a frame at most once. -/
theorem atMostOnePredicateHolds : Obligations.AtMostOnePredicateHolds := by
  refine ⟨fun c f => ⟨classify_length_le_one c f, decodeFrame_ne_ambiguous c f⟩, fun s f => ?_, fun s f hnodup => ?_⟩
  · refine List.pairwise_iff_getElem.2 fun i j hi hj hij => ?_
    by_cases hn : predicateNumber s.ctx f = i
    · exact .inr (predicates_pass (r := ⟨false, s⟩) hj (hn ▸ hij.ne))
    · exact .inl (predicates_pass (r := ⟨false, s⟩) hi hn)
  · by_cases hhit : ∃ e ∈ s.regs.filt, 0x580 + e.toNat = f.id.toNat
    · unfold predicate6
      split
      · exact .inr (filterLoop_eq_handled hnodup hhit)
      · exact .inl rfl
    · exact .inl (predicate6_pass fun _ _ _ => hhit)

/-! ### What a dispatch does, per row (R122 to R128) -/

/-- A predicate that holds decides the dispatch: the frame is matched, so it is not reported. -/
theorem andThen_handled_finishDispatch (r : Result State) : andThen (handled r) finishDispatch = r := by
  cases r <;> rfl

/-- The dispatch of a frame whose one predicate holds is that predicate's handler. -/
theorem dispatch_eq_handler {n : Nat} {r : Result State} (hn : predicateNumber s.ctx f = n)
    (hlt : n < (predicates f).length) (hp : (predicates f)[n] ⟨false, s⟩ = handled r) : dispatch f s = r := by
  rw [dispatch_eq_onlyPredicate hn hlt, hp, andThen_handled_finishDispatch]

theorem dispatch_nmt (h : f.id = 0) :
    dispatch f s = if f.data.b1 = s.regs.own.setWidth 8 ∨ f.data.b1 = 0 then nmtApply f.data.b0 s else .next s :=
  dispatch_eq_handler (predicateNumber_nmt h) (by simp) (if_pos h)

theorem dispatch_pdo (h : 0x17F < f.id.toNat ∧ f.id.toNat < 0x580) : dispatch f s = notify .pdoRx (.frame f) s :=
  dispatch_eq_handler (predicateNumber_pdo h) (by simp) (if_pos h)

theorem dispatch_monitored (h : 0x700 < f.id.toNat)
    (hm : s.regs.role = .master ∨ ∃ e ∈ s.regs.filt, 0x700 + e.toNat = f.id.toNat) :
    dispatch f s = notify .hbRx (.frame f) s := by
  rw [← inFilter_sub (Nat.le_of_lt h)] at hm
  exact dispatch_eq_handler (predicateNumber_heartbeat h) (by simp) ((if_pos h).trans (congrArg handled (if_pos hm)))

/-- A heartbeat that a slave does not subscribe to is matched and does nothing (decision D26). -/
theorem dispatch_unmonitored (h : 0x700 < f.id.toNat) (hslave : s.regs.role = .slave)
    (hmiss : ¬∃ e ∈ s.regs.filt, 0x700 + e.toNat = f.id.toNat) : dispatch f s = .next s := by
  rw [← inFilter_sub (Nat.le_of_lt h)] at hmiss
  refine dispatch_eq_handler (predicateNumber_heartbeat h) (by simp) ((if_pos h).trans (congrArg handled (if_neg ?_)))
  exact not_or.2 ⟨by simp [hslave], hmiss⟩

theorem dispatch_request (h : f.id.toNat = 0x600 + s.regs.own.toNat) :
    dispatch f s = sdoRx .sdoReqRx f (ownNode s) s :=
  dispatch_eq_handler (predicateNumber_request h) (by simp) (if_pos h)

theorem dispatch_reply_own (h : f.id.toNat = 0x580 + s.regs.own.toNat) (hslave : s.regs.role = .slave) :
    dispatch f s = sdoRx .sdoRpyRx f (ownNode s) s :=
  dispatch_eq_handler (predicateNumber_reply_own h hslave) (by simp) (if_pos ⟨h, hslave⟩)

theorem dispatch_reply_filtered (h : 0x580 ≤ f.id.toNat ∧ f.id.toNat < 0x600) (hslave : s.regs.role = .slave)
    (hown : f.id.toNat ≠ 0x580 + s.regs.own.toNat) (hnodup : s.regs.filt.Nodup)
    (hhit : ∃ e ∈ s.regs.filt, 0x580 + e.toNat = f.id.toNat) : dispatch f s = sdoRx .sdoRpyRx f (ownNode s) s :=
  dispatch_eq_handler ((predicateNumber_reply_slave h hslave).trans (if_neg hown)) (by simp)
    ((if_pos ⟨h.1, h.2, hslave, hown⟩).trans (filterLoop_eq_handled hnodup hhit))

theorem dispatch_reply_master (h : 0x580 ≤ f.id.toNat ∧ f.id.toNat < 0x600) (hmaster : s.regs.role = .master) :
    dispatch f s = sdoRx .sdoRpyRx f (nodeForMaster s.params.replyNode s.regs.own f) s :=
  dispatch_eq_handler (predicateNumber_reply_master h hmaster) (by simp) (if_pos ⟨h.1, h.2, hmaster⟩)

/-! ### The decoded operation (R121, R131) -/

/-- The Dispatcher does what the operation of a selected row does. -/
theorem dispatch_eq_exec_of_selected (hr : s.regs.ready = true) (hnodup : s.regs.filt.Nodup) :
    ∀ i ∈ frameRows f, selected s.ctx i = true → dispatch f s = exec i s := by
  have command {i : Instr} {cs : Byte} {n : NmtState} (hexec : exec i s = whenSelected i s (enterState n s))
      (hn : nmtTarget cs = some n) (hs : selected s.ctx i = true)
      (h : f.id.toNat = 0 ∧ f.data.b0 = cs ∧ s.ctx.addressed f = true) : dispatch f s = exec i s := by
    obtain ⟨hid, rfl, ha⟩ := h
    have haddr : f.data.b1 = s.regs.own.setWidth 8 ∨ f.data.b1 = 0 := (addressed_iff _ f).1 ha
    rw [dispatch_nmt ((id_eq_zero_iff f).2 hid), if_pos haddr, hexec, whenSelected_selected hr hs, nmtApply, hn]
  have row {i : Instr} {r : Result State} (hexec : exec i s = whenSelected i s r) (hs : selected s.ctx i = true)
      (h : dispatch f s = r) : dispatch f s = exec i s := by rw [hexec, whenSelected_selected hr hs, h]
  rw [forall_frameRows]
  refine ⟨fun hs => ?nmtStart, fun hs => ?nmtStop, fun hs => ?nmtPreop, fun hs => ?nmtReset, fun hs => ?nmtIgn,
    fun hs => ?pdoRx, fun hs => ?hbRx, fun hs => ?sdoReqRx, fun hs => ?sdoRpyRxOwn, fun hs => ?sdoRpyRxFlt,
    fun hs => ?sdoRpyRxMst, fun hs => ?unparsed⟩
  case nmtStart => exact command rfl rfl hs (selected_nmtStart.1 hs)
  case nmtStop => exact command rfl rfl hs (selected_nmtStop.1 hs)
  case nmtPreop => exact command rfl rfl hs (selected_nmtPreop.1 hs)
  case nmtReset => exact command rfl rfl hs (selected_nmtReset.1 hs)
  case nmtIgn => exact row rfl hs (dispatch_nmtIgn ((decodeFrame_eq_instr_iff (by simp [frameRows])).2 hs))
  case pdoRx => exact row rfl hs (dispatch_pdo (selected_pdoRx.1 hs))
  case hbRx =>
    obtain ⟨hid, hmonitored⟩ := selected_hbRx.1 hs
    exact row rfl hs (dispatch_monitored hid hmonitored)
  case sdoReqRx => exact row rfl hs (dispatch_request (selected_sdoReqRx.1 hs))
  case sdoRpyRxOwn =>
    obtain ⟨hid, hslave⟩ := selected_sdoRpyRxOwn.1 hs
    exact row rfl hs (dispatch_reply_own hid hslave)
  case sdoRpyRxFlt =>
    obtain ⟨hid, hslave, hown, hhit⟩ := selected_sdoRpyRxFlt.1 hs
    exact row rfl hs (dispatch_reply_filtered hid hslave hown hnodup hhit)
  case sdoRpyRxMst =>
    obtain ⟨hid, hmaster⟩ := selected_sdoRpyRxMst.1 hs
    exact row rfl hs (dispatch_reply_master hid hmaster)
  case unparsed => exact row rfl hs (dispatch_unparsed ((decodeFrame_eq_instr_iff (by simp [frameRows])).2 hs))

theorem dispatch_eq_exec {i : Instr} (hr : s.regs.ready = true) (hnodup : s.regs.filt.Nodup)
    (h : decodeFrame s.ctx f = .instr i) : dispatch f s = exec i s := by
  obtain ⟨hi, hs⟩ := selected_of_decodeFrame h
  exact dispatch_eq_exec_of_selected hr hnodup i hi hs

/-- The only frames that decode to no operation are the heartbeats that a slave does not subscribe to. -/
theorem unmonitored_of_rejected {c : DecodeCtx} {why : Reject} (h : decodeFrame c f = .rejected why) :
    0x700 < f.id.toNat ∧ c.role = .slave ∧ ¬∃ e ∈ c.filt, 0x700 + e.toNat = f.id.toNat := by
  rw [frameClassificationTable c f _ rfl] at h
  split_ifs at h with _ _ _ _ _ _ _ _ _ _ _ _ _ _ _ hhb
  rw [not_or] at hhb
  exact ⟨by omega, slave_of_not_master hhb.1, hhb.2⟩

/-- Settles O31: the selected row's operation, or the heartbeat that is matched and dropped. -/
theorem dispatchExecutesTheDecodedOperation : Obligations.DispatchExecutesTheDecodedOperation := by
  intro s f hr hnodup
  cases h : decodeFrame s.ctx f with
  | instr i => exact dispatch_eq_exec hr hnodup h
  | rejected why =>
    obtain ⟨hid, hslave, hmiss⟩ := unmonitored_of_rejected h
    exact dispatch_unmonitored hid hslave hmiss

/-! ### The step that dispatches (R245) -/

theorem exec_rxirq_listed {rest : List (Option Frame)} (hr : s.regs.ready = true) (h : s.env.rxIn = some f :: rest) :
    exec .rxirq s = dispatch f { s with env := { s.env with rxIn := rest } } := by
  show whenReady s (receive s) = _
  rw [whenReady_ready hr, receive, rx_listed h]

/-- With a frame arrived and the interrupt issued, the step dispatches the frame. -/
theorem step_arrive (hr : s.regs.ready = true) : step (s.arrive f) = dispatch f s :=
  (step_instr (s := s.arrive f) rfl rfl).trans (exec_rxirq_listed hr rfl)

/-- Settles O59: the step is the dispatch of the frame, which is the decoded operation. -/
theorem stepRunsTheArrivedFramesOperation : Obligations.StepRunsTheArrivedFramesOperation :=
  fun _ _ _ hr hnodup h => (step_arrive hr).trans (dispatch_eq_exec hr hnodup h)

theorem step_issue {record : List Byte} {i : Instr} (h : decodeHost record = .instr i) :
    step (s.issue record) = exec i s := step_instr (s := s.issue record) rfl h

theorem decode_of_decodeTableWord {nbits w : Nat} {i : Instr} (h : decodeTableWord nbits w = some i) :
    decode resetCtx (tablePort nbits) (tableBytes nbits w) = .instr i := by
  unfold decodeTableWord at h
  split at h
  · rename_i hd
    cases h
    exact hd
  · cases h

/-- A frame record decodes to an operation only if it reads as a frame that does. -/
theorem readFrame_of_decodeFrameRecord {c : DecodeCtx} {bytes : List Byte} {i : Instr}
    (h : decodeFrameRecord c bytes = .instr i) : ∃ f, readFrame bytes = some f ∧ decodeFrame c f = .instr i := by
  unfold decodeFrameRecord at h
  split at h
  · split at h
    · exact ⟨_, ‹_›, h⟩
    · cases h
  · cases h

/-- Settles O60: a host command's word is issued, a frame's word arrives, in the engine it was decoded in. -/
theorem tableWordRunsFirstAfterReset : Obligations.TableWordRunsFirstAfterReset := by
  intro nbits w i h
  have hd := decode_of_decodeTableWord h
  rw [State.withFetchWord]
  cases hport : tablePort nbits with
  | cmd =>
    rw [hport] at hd
    exact step_issue hd
  | rx =>
    rw [hport] at hd
    obtain ⟨f, hf, hdf⟩ := readFrame_of_decodeFrameRecord hd
    simp only [hf]
    exact stepRunsTheArrivedFramesOperation _ f i rfl List.nodup_nil hdf

end Sys2Proof.Machine

/-! ## The settled statements on what a dispatch may do: totality, silence, the filter of a master

What every notification keeps, every dispatch keeps (`dispatch_keeps`). A change of the registers that no send and no listener can
see commutes with every notification (`notify_commutes_mapRegs`); the NMT state and the Listen Filter are such registers. -/

namespace Sys2Proof.Machine

/-! ### What a dispatch keeps (R120) -/

section
variable {P : State → Prop} {f : Frame} {s t : State}

theorem ite_keeps {c : Prop} [Decidable c] {a b : Result State} (ha : ∀ v, a = .next v → P v)
    (hb : ∀ v, b = .next v → P v) : ∀ v, (if c then a else b) = .next v → P v := by
  split
  · exact ha
  · exact hb

theorem handled_keeps {a : Result State} {x : Routed} (ha : ∀ v, a = .next v → P v) (h : handled a = .next x) : P x.st := by
  obtain ⟨v, hv, rfl⟩ := handled_eq_next.1 h
  exact ha v hv

/-- The shape of a predicate: its handler under its guard. -/
theorem guarded_keeps {c : Prop} [Decidable c] {a : Result State} {r x : Routed} (hP : P r.st) (ha : ∀ v, a = .next v → P v)
    (h : (if c then handled a else .next r) = .next x) : P x.st := by
  split at h
  · exact handled_keeps ha h
  · cases h; exact hP

variable (hnotify : ∀ cat p u v, P u → notify cat p u = .next v → P v) (hnmt : ∀ n u, P u → P (u.setNmt n))

include hnotify in
theorem filterLoop_keeps {l : List Addr} {r x : Routed} (hP : P r.st) (h : filterLoop f l r = .next x) : P x.st := by
  induction l generalizing r with
  | nil => cases h; exact hP
  | cons a rest ih =>
    unfold filterLoop at h
    split at h
    · obtain ⟨y, hy, hx⟩ := andThen_eq_next.1 h
      exact ih (handled_keeps (fun v => hnotify _ _ _ v hP) hy) hx
    · exact ih hP h

include hnotify hnmt in
theorem nmtApply_keeps {c : Byte} (hP : P s) (h : nmtApply c s = .next t) : P t := by
  unfold nmtApply at h
  split at h
  · exact hnotify _ _ _ t (hnmt _ s hP) h
  · cases h; exact hP

include hnotify hnmt in
theorem predicates_keep {r x : Routed} (hP : P r.st) : ∀ p ∈ predicates f, p r = .next x → P x.st := by
  have idle (v : State) (h : Host.Outcome.next r.st = (.next v : Result State)) : P v := by cases h; exact hP
  have note (cat : Category) (p : Payload) (v : State) (h : notify cat p r.st = .next v) : P v := hnotify cat p _ v hP h
  simp only [predicates, List.forall_mem_cons]
  refine ⟨fun h => ?_, fun h => ?_, fun h => ?_, fun h => ?_, fun h => ?_, fun h => ?_, fun h => ?_, by simp⟩
  · exact guarded_keeps hP (ite_keeps (fun _ => nmtApply_keeps hnotify hnmt hP) idle) h
  · exact guarded_keeps hP (note _ _) h
  · exact guarded_keeps hP (ite_keeps (note _ _) idle) h
  · exact guarded_keeps hP (note _ _) h
  · exact guarded_keeps hP (note _ _) h
  · unfold predicate6 at h
    split at h
    · exact filterLoop_keeps hnotify hP h
    · cases h; exact hP
  · exact guarded_keeps hP (note _ _) h

include hnotify hnmt in
/-- What notifications, writes of `nmt` and reports keep, a dispatch keeps. -/
theorem dispatch_keeps (hreport : ∀ u, P u → P (reportUnparsed u)) (hP : P s) (h : dispatch f s = .next t) : P t := by
  rw [dispatch_eq_onlyPredicate rfl (predicateNumber_lt s.ctx f)] at h
  obtain ⟨x, hx, ht⟩ := andThen_eq_next.1 h
  have hPx : P x.st := predicates_keep hnotify hnmt (r := ⟨false, s⟩) hP _ (List.getElem_mem _) hx
  simp only [finishDispatch, Host.Outcome.next.injEq] at ht
  subst ht
  split
  · exact hPx
  · exact hreport _ hPx

end

/-! ### A dispatch transmits nothing of its own -/

/-- The listeners issue nothing, and no frame and no status has been added since `s`. -/
def SilentSince (s u : State) : Prop :=
  ListenersQuiet u ∧ u.out.sent = s.out.sent ∧ u.out.statuses = s.out.statuses

theorem sent_eventObs (cat : Category) (p : Payload) (slot : Nat) (hs : List Handle) :
    Out.sent ⟨eventObs cat p slot hs, [], []⟩ = [] := by
  induction hs generalizing slot with
  | nil => rfl
  | cons h rest ih => exact ih (slot + 1)

theorem statuses_eventObs (cat : Category) (p : Payload) (slot : Nat) (hs : List Handle) :
    Out.statuses ⟨eventObs cat p slot hs, [], []⟩ = [] := by
  induction hs generalizing slot with
  | nil => rfl
  | cons h rest ih => exact ih (slot + 1)

theorem notify_silent {s : State} (cat : Category) (p : Payload) (u v : State) :
    SilentSince s u → notify cat p u = .next v → SilentSince s v := by
  rintro ⟨hquiet, hsent, hstatuses⟩ h
  rw [notify_quiet hquiet, Host.Outcome.next.injEq] at h
  subst h
  refine ⟨fun r hr => hquiet r (List.mem_of_mem_drop hr), ?_, ?_⟩
  · rw [sent_of_trace_append (o := u.out) rfl, sent_eventObs, List.append_nil, hsent]
  · rw [statuses_of_trace_append (o := u.out) rfl, statuses_eventObs, List.append_nil, hstatuses]

theorem dispatch_silent {f : Frame} {s t : State} (hq : ListenersQuiet s) (h : dispatch f s = .next t) : SilentSince s t :=
  dispatch_keeps notify_silent (fun _ _ hu => hu) (fun _ hu => hu) ⟨hq, rfl, rfl⟩ h

/-- Settles O37: completion and the registers from `dispatch_completes` and `dispatch_effect`, the silence from
`dispatch_silent`, the unsubscribed heartbeat from `dispatch_unmonitored`. -/
theorem dispatchAcceptsEveryFrame : Obligations.DispatchAcceptsEveryFrame := by
  refine fun s f => ⟨fun hl => ?_, fun hid hslave hmiss => ?_⟩
  · obtain ⟨t, ht⟩ := dispatch_completes (f := f) hl
    obtain ⟨e, -⟩ := dispatch_effect ht
    exact ⟨t, ht, e.regs, e.params, fun hq => (dispatch_silent hq ht).2⟩
  · have hmiss' : ¬∃ e ∈ s.regs.filt, 0x700 + e.toNat = f.id.toNat := fun ⟨e, he, hsum⟩ => hmiss e he hsum.symm
    exact ⟨decodeFrame_unmonitored hid hslave hmiss', dispatch_unmonitored hid hslave hmiss'⟩

/-! ### Registers that no send and no listener sees -/

/-- A change of the registers that leaves those alone that a send, a notification or a report reads. -/
structure Unseen (g : Regs → Regs) : Prop where
  own : ∀ r, (g r).own = r.own
  role : ∀ r, (g r).role = r.role
  debug : ∀ r, (g r).debug = r.debug
  lst : ∀ r, (g r).lst = r.lst

theorem unseen_nmt (n : NmtState) : Unseen fun r => { r with nmt := n } :=
  ⟨fun _ => rfl, fun _ => rfl, fun _ => rfl, fun _ => rfl⟩

theorem unseen_filt (l : List Addr) : Unseen fun r => { r with filt := l } :=
  ⟨fun _ => rfl, fun _ => rfl, fun _ => rfl, fun _ => rfl⟩

/-- `s` with its registers changed by `g`. -/
def State.mapRegs (g : Regs → Regs) (s : State) : State := { s with regs := g s.regs }

section
variable {g : Regs → Regs} (hg : Unseen g)
include hg

theorem diagIf_mapRegs (b : Bool) (l : DiagLine) (s : State) : (s.mapRegs g).diagIf b l = (s.diagIf b l).mapRegs g := by
  simp [State.diagIf, State.mapRegs, hg.debug]

theorem reportUnparsed_mapRegs (s : State) : reportUnparsed (s.mapRegs g) = (reportUnparsed s).mapRegs g :=
  diagIf_mapRegs hg _ _ s

theorem sendFrame_mapRegs (f : Frame) (s : State) : sendFrame f (s.mapRegs g) = (sendFrame f s).mapRegs g := by
  show returnStatus _ (((tx f s).2.mapRegs g).diagIf _ _) = _
  rw [diagIf_mapRegs hg]
  rfl

theorem sdoSendReq_mapRegs (d : Descriptor) (s : State) : sdoSendReq d (s.mapRegs g) = (sdoSendReq d s).mapRegs g := by
  unfold sdoSendReq
  split
  · rfl
  · exact sendFrame_mapRegs hg _ s

theorem sdoSendRsp_mapRegs (d : Descriptor) (s : State) : sdoSendRsp d (s.mapRegs g) = (sdoSendRsp d s).mapRegs g := by
  unfold sdoSendRsp
  split
  · rfl
  · rw [show (s.mapRegs g).regs.own = s.regs.own from hg.own _]
    exact sendFrame_mapRegs hg _ s

theorem pdoSend_mapRegs (id length : Nat) (p : Bytes8) (s : State) :
    pdoSend id length p (s.mapRegs g) = (pdoSend id length p s).mapRegs g := by
  unfold pdoSend
  split
  · rfl
  · exact sendFrame_mapRegs hg _ s

theorem nmtSend_mapRegs (cs : Byte) (target : Nat) (s : State) :
    nmtSend cs target (s.mapRegs g) = (nmtSend cs target s).mapRegs g := by
  have hrole : (s.mapRegs g).regs.role = s.regs.role := hg.role _
  cases h : s.regs.role with
  | master => rw [nmtSend_master h, nmtSend_master (hrole.trans h), sendFrame_mapRegs hg]
  | slave => rw [nmtSend_slave h, nmtSend_slave (hrole.trans h)]; rfl

theorem issuedByListener_commutes_mapRegs (i : Instr) :
    Commutes (State.mapRegs g) (State.mapRegs g) (issuedByListener i) := by
  cases i with
  | sdoSendReq d => exact .next (sdoSendReq_mapRegs hg d)
  | sdoSendRsp d => exact .next (sdoSendRsp_mapRegs hg d)
  | pdoSend id l p => exact .next (pdoSend_mapRegs hg id l p)
  | nmtSend cs tg => exact .next (nmtSend_mapRegs hg cs tg)
  | _ => exact .refused _

theorem runIssued_commutes_mapRegs (is : List Instr) : Commutes (State.mapRegs g) (State.mapRegs g) (runIssued is) := by
  induction is with
  | nil => exact .next fun _ => rfl
  | cons i rest ih => exact .seq (issuedByListener_commutes_mapRegs hg i) ih

theorem listenerRuns_commutes_mapRegs : Commutes (State.mapRegs g) (State.mapRegs g) listenerRuns := by
  intro s
  cases h : s.env.reactIn with
  | nil => simp only [listenerRuns, State.mapRegs, h, andThen_next]
  | cons r rest =>
    cases r with
    | neverReturns => simp only [listenerRuns, State.mapRegs, h, andThen_fault]
    | returns issued =>
      simpa only [listenerRuns, State.mapRegs, h] using
        runIssued_commutes_mapRegs hg issued { s with env := { s.env with reactIn := rest } }

theorem invokeFrom_commutes_mapRegs (cat : Category) (p : Payload) (slot : Nat) (hs : List Handle) :
    Commutes (State.mapRegs g) (State.mapRegs g) (invokeFrom cat p slot hs) := by
  induction hs generalizing slot with
  | nil => exact .next fun _ => rfl
  | cons h rest ih =>
    exact .seq (.comp (g := State.emit _) (fun _ => rfl) (listenerRuns_commutes_mapRegs hg)) (ih (slot + 1))

theorem notify_commutes_mapRegs (cat : Category) (p : Payload) :
    Commutes (State.mapRegs g) (State.mapRegs g) (notify cat p) := by
  intro s
  rw [notify, show (s.mapRegs g).regs.lst = s.regs.lst from hg.lst _]
  exact invokeFrom_commutes_mapRegs hg cat p 0 _ s

theorem sdoRx_commutes_mapRegs (cat : Category) (f : Frame) (node : Params → Addr → Byte) :
    Commutes (State.mapRegs g) (State.mapRegs g) fun s => sdoRx cat f (node s.params s.regs.own) s := by
  intro s
  show sdoRx cat f (node s.params (g s.regs).own) (s.mapRegs g) = _
  rw [hg.own]
  exact notify_commutes_mapRegs hg cat _ s

end

/-! ### A master's Listen Filter (R217) -/

/-- What the Dispatcher does with a frame in a master: no predicate that holds there reads the Listen Filter. -/
def masterHandler (f : Frame) (s : State) : Result State :=
  if f.id = 0 then
    (if f.data.b1 = s.regs.own.setWidth 8 ∨ f.data.b1 = 0 then nmtApply f.data.b0 s else .next s)
  else if 0x17F < f.id.toNat ∧ f.id.toNat < 0x580 then notify .pdoRx (.frame f) s
  else if 0x700 < f.id.toNat then notify .hbRx (.frame f) s
  else if f.id.toNat = 0x600 + s.regs.own.toNat then sdoRx .sdoReqRx f (ownNode s) s
  else if 0x580 ≤ f.id.toNat ∧ f.id.toNat < 0x600 then
    sdoRx .sdoRpyRx f (nodeForMaster s.params.replyNode s.regs.own f) s
  else .next (reportUnparsed s)

theorem dispatch_master {f : Frame} {s : State} (hmaster : s.regs.role = .master) : dispatch f s = masterHandler f s := by
  unfold masterHandler
  split_ifs with hnmt ha hpdo hhb hreq hreply
  · rw [dispatch_nmt hnmt, if_pos ha]
  · rw [dispatch_nmt hnmt, if_neg ha]
  · exact dispatch_pdo hpdo
  · exact dispatch_monitored hhb (.inl hmaster)
  · exact dispatch_request hreq
  · exact dispatch_reply_master hreply hmaster
  · rw [id_eq_zero_iff] at hnmt
    refine dispatch_unparsed (decodeFrame_unparsed_iff.2 ?_)
    simp only [State.ctx]
    omega

theorem enterState_commutes_filt (l : List Addr) (n : NmtState) :
    Commutes (State.mapRegs fun r => { r with filt := l }) (State.mapRegs fun r => { r with filt := l }) (enterState n) :=
  .comp (g := State.setNmt n) (fun _ => rfl) (notify_commutes_mapRegs (unseen_filt l) _ _)

theorem nmtApply_commutes_filt (l : List Addr) (c : Byte) :
    Commutes (State.mapRegs fun r => { r with filt := l }) (State.mapRegs fun r => { r with filt := l }) (nmtApply c) := by
  unfold nmtApply
  cases nmtTarget c with
  | some n => exact enterState_commutes_filt l n
  | none => exact .next fun _ => rfl

theorem masterHandler_commutes_filt (f : Frame) (l : List Addr) :
    Commutes (State.mapRegs fun r => { r with filt := l }) (State.mapRegs fun r => { r with filt := l }) (masterHandler f) :=
  have hg := unseen_filt l
  .ite (fun _ => .rfl) (.ite (fun _ => .rfl) (nmtApply_commutes_filt l _) (.next fun _ => rfl)) <|
  .ite (fun _ => .rfl) (notify_commutes_mapRegs hg _ _) <|
  .ite (fun _ => .rfl) (notify_commutes_mapRegs hg _ _) <|
  .ite (fun _ => .rfl) (sdoRx_commutes_mapRegs hg _ f fun _ own => own.setWidth 8) <|
  .ite (fun _ => .rfl) (sdoRx_commutes_mapRegs hg _ f fun params own => nodeForMaster params.replyNode own f) <|
  .next (reportUnparsed_mapRegs hg)

/-- Settles O38: in a master `DISPATCH` is `masterHandler`, which commutes with a change of the filter. -/
theorem masterDispatchIgnoresTheListenFilter : Obligations.MasterDispatchIgnoresTheListenFilter := by
  intro s f l hmaster
  rw [dispatch_master hmaster, dispatch_master (s := { s with regs := { s.regs with filt := l } }) hmaster]
  exact masterHandler_commutes_filt f l s

/-! ### The NMT state gates nothing (R132 (c)) -/

section
variable {n : NmtState}

theorem whenReady_commutes_setNmt {op : State → Result State} (h : Commutes (State.setNmt n) (State.setNmt n) op) :
    Commutes (State.setNmt n) (State.setNmt n) fun s => whenReady s (op s) :=
  .ite (fun _ => .rfl) h (.refused _)

theorem whenSelected_commutes_setNmt (i : Instr) {op : State → Result State}
    (h : Commutes (State.setNmt n) (State.setNmt n) op) :
    Commutes (State.setNmt n) (State.setNmt n) fun s => whenSelected i s (op s) :=
  whenReady_commutes_setNmt (.ite (fun _ => .rfl) h (.refused _))

theorem listenerReg_setNmt (c : Category) (h : Handle) (s : State) :
    listenerReg c h (s.setNmt n) = (listenerReg c h s).setNmt n := by
  unfold listenerReg
  rw [apply_ite (State.setNmt n)]
  rfl

theorem filterAdd_setNmt (a : Nat) (s : State) : filterAdd a (s.setNmt n) = (filterAdd a s).setNmt n := by
  unfold filterAdd
  dsimp only
  rw [apply_ite (State.setNmt n)]
  rfl

theorem exec_send_commutes_setNmt {i : Instr} (hi : isSend i = true) :
    Commutes (State.setNmt n) (State.setNmt n) (exec i) := by
  have hg := unseen_nmt n
  cases i with
  | sdoSendReq d => exact whenReady_commutes_setNmt (.next (sdoSendReq_mapRegs hg d))
  | sdoSendRsp d => exact whenReady_commutes_setNmt (.next (sdoSendRsp_mapRegs hg d))
  | pdoSend id l p => exact whenReady_commutes_setNmt (.next (pdoSend_mapRegs hg id l p))
  | nmtSend cs tg => exact whenReady_commutes_setNmt (.next (nmtSend_mapRegs hg cs tg))
  | _ => cases hi

end

/-- Settles O50: `setNmt` is a change of the registers that no send and no listener sees, and no guard of these operations
reads `nmt`. -/
theorem nmtStateGatesNothing : Obligations.NmtStateGatesNothing := by
  intro s n i hi
  have hg := unseen_nmt n
  suffices Commutes (State.setNmt n) (State.setNmt n) (exec i) from this s
  obtain hsend | ⟨f, rfl | rfl | rfl | rfl | rfl | rfl | rfl | rfl⟩ | ⟨c, h, rfl⟩ | ⟨a, rfl⟩ := hi
  · exact exec_send_commutes_setNmt hsend
  · exact whenSelected_commutes_setNmt _ (notify_commutes_mapRegs hg _ _)
  · exact whenSelected_commutes_setNmt _ (notify_commutes_mapRegs hg _ _)
  · exact whenSelected_commutes_setNmt _ (sdoRx_commutes_mapRegs hg _ f fun _ own => own.setWidth 8)
  · exact whenSelected_commutes_setNmt _ (sdoRx_commutes_mapRegs hg _ f fun _ own => own.setWidth 8)
  · exact whenSelected_commutes_setNmt _ (sdoRx_commutes_mapRegs hg _ f fun _ own => own.setWidth 8)
  · exact whenSelected_commutes_setNmt _
      (sdoRx_commutes_mapRegs hg _ f fun params own => nodeForMaster params.replyNode own f)
  · exact whenSelected_commutes_setNmt _ (.next (reportUnparsed_mapRegs hg))
  · exact whenSelected_commutes_setNmt _ (.next fun _ => rfl)
  · exact whenReady_commutes_setNmt (.next (listenerReg_setNmt c h))
  · exact whenReady_commutes_setNmt (.next (filterAdd_setNmt a))

end Sys2Proof.Machine

/-! ## The settled statements on `INIT` and the registrations

`INIT` is read off its two branches; a registration is its append or its silent drop (R230, R243). -/

namespace Sys2Proof.Machine

variable {s t : State}

/-! ### `INIT` (R40, R240, R241) -/

/-- Settles O1: the legal branch of `INIT`, evaluated at `State.powerOn`. -/
theorem resetIsTheStateAfterTheFirstInit : Obligations.ResetIsTheStateAfterTheFirstInit := rfl

/-- Settles O3: the calls of the legal branch are `bringUpCalls` of the masked operand. -/
theorem initBringsTheTransportUpInOrder : Obligations.InitBringsTheTransportUpInOrder :=
  fun _ a _ _ _ h1 h2 => ⟨_, _, maskAddr a, _, _, if_pos ⟨h1, h2⟩, maskAddr_toNat h2, rfl⟩

/-- Settles O4: the other branch. -/
theorem initRefusesAnIllegalOwnAddress : Obligations.InitRefusesAnIllegalOwnAddress :=
  fun _ _ _ _ _ h => if_neg (by omega)

/-! ### `LISTENER.REG` (R230, decision D23) -/

theorem listenerReg_free {cat : Category} (h : (s.regs.lst.slots cat).length < Config.listenerSlots) (x : Handle) :
    listenerReg cat x s = { s with regs := { s.regs with lst := s.regs.lst.append cat x } } := if_pos h

theorem listenerReg_full {cat : Category} (h : Config.listenerSlots ≤ (s.regs.lst.slots cat).length) (x : Handle) :
    listenerReg cat x s = s := if_neg h.not_gt

/-- Settles O5: `listenerReg_free` and `listenerReg_full`. -/
theorem listenerRegFillsTheFirstFreeSlotOrIsDropped : Obligations.ListenerRegFillsTheFirstFreeSlotOrIsDropped := by
  intro s cat x hr
  refine ⟨listenerReg cat x s, whenReady_ready hr _, ?_⟩
  obtain hfree | hfull := Nat.lt_or_ge (s.regs.lst.slots cat).length Config.listenerSlots
  · rw [listenerReg_free hfree]
    exact ⟨rfl, fun _ => append_slots_self _ _ _, fun h => absurd hfree h.not_gt, fun d hd => append_slots_other _ _ hd⟩
  · rw [listenerReg_full hfull]
    exact ⟨rfl, fun h => absurd h hfull.not_gt, fun _ => rfl, fun _ _ => rfl⟩

/-! ### `FILTER.ADD` (R243, decision D24) -/

theorem eq_maskAddr {a : Addr} {addr : Nat} (h : a.toNat = addr % 128) : a = maskAddr addr :=
  BitVec.eq_of_toNat_eq (by rw [h, maskAddr, BitVec.toNat_ofNat])

theorem filterAdd_dropped {addr : Nat} (h : filterDrops s.regs (maskAddr addr) = true) : filterAdd addr s = s := if_pos h

theorem filterAdd_added {addr : Nat} (h : ¬filterDrops s.regs (maskAddr addr) = true) :
    filterAdd addr s = { s with regs := { s.regs with filt := s.regs.filt ++ [maskAddr addr] } }.emitXcfg
      [.addAcceptanceFilter (Config.filterIdFor (maskAddr addr)) (Config.filterMaskFor (maskAddr addr))] := if_neg h

/-- Settles O6: `filterDrops_iff` says which of the two branches is taken. -/
theorem filterAddAppendsOrDropsSilently : Obligations.FilterAddAppendsOrDropsSilently := by
  intro s addr a hr ha
  obtain rfl := eq_maskAddr ha
  have hexec : exec (.filterAdd addr) s = .next (filterAdd addr s) := whenReady_ready hr _
  rw [hexec]
  refine ⟨fun h => ?_, fun h =>
    ⟨Config.filterIdFor (maskAddr addr), Config.filterMaskFor (maskAddr addr), ?_⟩⟩
  · rw [filterAdd_dropped (filterDrops_iff.2 h)]
  · rw [filterAdd_added (mt filterDrops_iff.1 h)]
    rfl

/-- A `FILTER.ADD` that changed the state has put its operand, no zero and no own address, into the filter. -/
theorem filterAdd_changed {addr : Nat} (h : filterAdd addr s ≠ s) :
    maskAddr addr ∈ (filterAdd addr s).regs.filt ∧ maskAddr addr ≠ 0 ∧ maskAddr addr ≠ (filterAdd addr s).regs.own ∧
      (filterAdd addr s).regs.role = s.regs.role := by
  have hkeep : ¬filterDrops s.regs (maskAddr addr) = true := fun hd => h (filterAdd_dropped hd)
  rw [filterAdd_added hkeep]
  simp only [filterDrops_iff, not_or] at hkeep
  obtain ⟨h0, hown, -⟩ := hkeep
  exact ⟨List.mem_append_right _ (List.mem_singleton_self _), h0, hown, rfl⟩

/-- Settles O7: the added entry selects its node's heartbeat and its node's reply. -/
theorem addedFilterEntryIsSeenByTheNextFrame : Obligations.AddedFilterEntryIsSeenByTheNextFrame := by
  intro s t addr a f g hslave ha h hne hf hg
  obtain rfl := eq_maskAddr ha
  cases (whenReady_eq_next.1 h).2
  obtain ⟨hmem, h0, hown, hrole⟩ := filterAdd_changed hne
  have hpos : (maskAddr addr).toNat ≠ 0 := fun hz => h0 (BitVec.eq_of_toNat_eq hz)
  constructor
  · exact (decodeFrame_eq_instr_iff (by simp [frameRows])).2
      (selected_hbRx_of_monitored (by omega) (.inr ⟨_, hmem, hf⟩))
  · exact (decodeFrame_eq_instr_iff (by simp [frameRows])).2
      (selected_sdoRpyRxFlt_of_mem hmem hg hown (hrole.trans hslave))

end Sys2Proof.Machine

/-! ## The settled statements on NMT: the classifier, the one-shot, `NMT.SEND` -/

namespace Sys2Proof.Machine

variable {s : State}

/-- Settles O9: a recognised byte enters its state, and `nmtApply_unrecognised` is the rest. -/
theorem nmtApplyFollowsTheCommandTable : Obligations.NmtApplyFollowsTheCommandTable := by
  intro s c hl
  obtain ⟨t, ht⟩ := nmtApply_completes (c := c) hl
  have entered (cs : Byte) (n : NmtState) (hn : nmtTarget cs = some n) (hc : c = cs) :
      NotifiedOnce .stateChange (.state n) (s.setNmt n) t := by
    rw [hc, nmtApply, hn] at ht
    exact notify_effect ht
  refine ⟨t, ht, entered _ _ rfl, entered _ _ rfl, entered _ _ rfl, entered _ _ rfl, fun h1 h2 h3 h4 => ?_⟩
  have hno : ¬recognisedNmt c = true := by
    simp only [recognisedNmt_iff, not_or]
    exact ⟨h1, h2, h3, h4⟩
  rw [nmtApply_unrecognised hno] at ht
  cases ht
  rfl

/-! ### The Bootup one-shot (R158) -/

theorem exec_nmtBootdone_enabled (hr : s.regs.ready = true) (hslave : s.regs.role = .slave)
    (hdone : s.regs.bootDone = false) : exec .nmtBootdone s = bootdone s := by
  refine (whenReady_ready hr _).trans (if_pos ?_)
  simp [bootdoneEnabled, hslave, hdone]

/-- Settles O11: the two branches of the enabled one-shot. -/
theorem bootdoneFiresOnceFromBootup : Obligations.BootdoneFiresOnceFromBootup := by
  intro s hr hslave hdone
  rw [exec_nmtBootdone_enabled hr hslave hdone, bootdone]
  refine ⟨fun hboot hl => ?_, fun hboot => if_neg hboot⟩
  rw [if_pos hboot]
  exact enterState_notifiedOnce (s := s.setBootDone) hl

/-- Settles O12: in a master, or with the flag set, the enabling test fails. -/
theorem bootdoneIsNotEnabledInAMasterOrTwice : Obligations.BootdoneIsNotEnabledInAMasterOrTwice := by
  intro s hr h
  refine (whenReady_ready hr _).trans (if_neg ?_)
  obtain hmaster | hdone := h
  · simp [bootdoneEnabled, hmaster]
  · simp [bootdoneEnabled, hdone]

/-- Settles O13: `nmtSend_master` with the frame written out, and `nmtSend_slave`. -/
theorem nmtSendTransmitsFromAMasterOnly : Obligations.NmtSendTransmitsFromAMasterOnly := by
  intro s cs target hr
  have hexec : exec (.nmtSend cs target) s = .next (nmtSend cs target s) := whenReady_ready hr _
  have hbyte : (maskAddr target).setWidth 8 = BitVec.ofNat 8 (target % 128) := by
    apply BitVec.eq_of_toNat_eq
    simp [maskAddr]
  rw [hexec]
  refine ⟨fun hmaster => ?_, fun hslave => ?_⟩
  · rw [nmtSend_master hmaster, sendFrame_eq_transmitted, nmtFrame, hbyte]
  · rw [nmtSend_slave hslave]
    rfl

end Sys2Proof.Machine

/-! ## The settled statements on the SDO engine: the codec and the sends -/

namespace Sys2Proof.Machine

variable {s : State}

/-! ### The codec, field by field (R171, R173) -/

theorem toNat_indexLow (x : BitVec 16) : (x.setWidth 8).toNat = x.toNat % 256 := by
  rw [BitVec.toNat_setWidth]

theorem toNat_indexHigh (x : BitVec 16) : ((x >>> 8).setWidth 8).toNat = x.toNat / 256 := by
  have := x.isLt
  rw [BitVec.toNat_setWidth, BitVec.toNat_ushiftRight, Nat.shiftRight_eq_div_pow]
  omega

theorem toNat_indexBytes (low high : Byte) :
    (low.setWidth 16 + 256 * high.setWidth 16).toNat = low.toNat + 256 * high.toNat := by
  have := low.isLt
  have := high.isLt
  rw [BitVec.toNat_add, BitVec.toNat_mul, BitVec.toNat_setWidth, BitVec.toNat_setWidth,
    show (256 : BitVec 16).toNat = 256 from rfl]
  omega

/-- Settles O14: the index by its two bytes, byte 0 by `sdoByte0_toNat`; the other fields are as written. -/
theorem sdoEncodeLaysOutTheFrame : Obligations.SdoEncodeLaysOutTheFrame := by
  intro id d hlen
  have hb0 := sdoByte0_toNat d.cmd hlen
  refine ⟨rfl, rfl, rfl, rfl, ?_, ?_, toNat_indexLow _, toNat_indexHigh _, rfl, rfl, rfl, rfl, rfl⟩
  · show (sdoByte0 d.cmd d.len).toNat / 16 = _
    split at hb0 <;> omega
  · show (sdoByte0 d.cmd d.len).toNat % 16 = _
    split
    · rw [if_pos ‹_›] at hb0
      omega
    · rw [if_neg ‹_›] at hb0
      omega

/-- Settles O15: the nibble, the index and the length by their lemmas; the other fields are as written. -/
theorem sdoDecodeReadsTheDescriptor : Obligations.SdoDecodeReadsTheDescriptor := by
  rintro f node _ rfl
  rw [← sdoLength_eq]
  exact ⟨rfl, toNat_and_highNibble _, toNat_indexBytes _ _, rfl, rfl, rfl, fun _ _ _ _ => rfl⟩

/-! ### The round trip (R178) -/

theorem sdoByte0_highNibble (cmd : Byte) {len : Nat} (hlen : len ≤ 4) : sdoByte0 cmd len &&& 0xF0 = cmd &&& 0xF0 := by
  have hb0 := sdoByte0_toNat cmd hlen
  apply BitVec.eq_of_toNat_eq
  rw [toNat_and_highNibble, toNat_and_highNibble]
  split at hb0 <;> omega

theorem indexBytes_eq (x : BitVec 16) :
    (x.setWidth 8).setWidth 16 + (256 : BitVec 16) * ((x >>> 8).setWidth 8).setWidth 16 = x := by
  apply BitVec.eq_of_toNat_eq
  rw [toNat_indexBytes, toNat_indexLow, toNat_indexHigh]
  omega

/-- What comes back: all but the length, and of the payload the bytes below the length that is read. -/
theorem sdoDecode_sdoEncode (id : CanId) {d : Descriptor} (hcmd : d.cmd &&& 0xF0 = d.cmd) (hlen : d.len ≤ 4)
    (hdata : firstBytes4 d.len d.data = d.data) :
    sdoDecode (sdoEncode id d) d.node =
      { d with
        len := sdoLength (sdoByte0 d.cmd d.len)
        data := firstBytes4 (sdoLength (sdoByte0 d.cmd d.len)) d.data } := by
  simp only [sdoDecode, sdoEncode, hdata, sdoByte0_highNibble d.cmd hlen, hcmd, indexBytes_eq]

theorem sdoDecode_sdoEncode_eq_iff (id : CanId) {d : Descriptor} (hcmd : d.cmd &&& 0xF0 = d.cmd) (hlen : d.len ≤ 4)
    (hdata : firstBytes4 d.len d.data = d.data) :
    sdoDecode (sdoEncode id d) d.node = d ↔ sdoLength (sdoByte0 d.cmd d.len) = d.len := by
  rw [sdoDecode_sdoEncode id hcmd hlen hdata]
  refine ⟨fun h => congrArg Descriptor.len h, fun h => ?_⟩
  rw [h, hdata]

/-- Settles O17: the descriptor comes back exactly when its length does, which `sdoLength_sdoByte0_ne_iff` decides. -/
theorem sdoRoundTripHoldsExactlyOnItsDomain : Obligations.SdoRoundTripHoldsExactlyOnItsDomain := by
  intro id d hcmd hlen hdata
  have hround := sdoLength_sdoByte0_ne_iff hcmd hlen
  have hlow := sdoLength_of_highNibble hcmd
  refine ⟨?_, ?_⟩
  · rw [sdoDecode_sdoEncode_eq_iff id hcmd hlen hdata, ← not_iff_not, ← ne_eq, hround]
    simp only [ne_eq, ← not_or]
    by_cases h46 : d.cmd = 0x40 ∨ d.cmd = 0x60
    · simp only [h46, not_true, and_false, and_true, false_or]
      omega
    · simp only [h46, not_false_iff, and_false, and_true, or_false]
      omega
  · rw [sdoDecode_sdoEncode id hcmd hlen hdata]
    refine ⟨rfl, rfl, rfl, fun h4 h46 => ?_, fun h0 h40 h60 => ?_⟩
    · rw [h4, sdoByte0_four, hcmd, hlow, if_pos h46]
      exact ⟨rfl, rfl⟩
    · rw [← hdata, h0, sdoByte0_zero, hcmd, hlow, if_neg (not_or.2 ⟨h40, h60⟩)]
      exact ⟨rfl, rfl⟩

/-! ### The sends (R175 to R177) -/

theorem sdoSendReq_accepted {d : Descriptor} (h : d.len ≤ 4) :
    sdoSendReq d s = transmitted (sdoEncode (idFrom 0x600 (maskNode d.node)) d) s :=
  (if_neg (by simpa [sdoRejected, Config.sdoMaxLen] using h)).trans (sendFrame_eq_transmitted _ _)

theorem sdoSendRsp_accepted {d : Descriptor} (h : d.len ≤ 4) :
    sdoSendRsp d s = transmitted (sdoEncode (idFrom 0x580 s.regs.own) d) s :=
  (if_neg (by simpa [sdoRejected, Config.sdoMaxLen] using h)).trans (sendFrame_eq_transmitted _ _)

theorem sdoSendReq_rejected {d : Descriptor} (h : 4 < d.len) : sdoSendReq d s = answered .rejectedParam s :=
  if_pos (by simpa [sdoRejected, Config.sdoMaxLen] using h)

theorem sdoSendRsp_rejected {d : Descriptor} (h : 4 < d.len) : sdoSendRsp d s = answered .rejectedParam s :=
  if_pos (by simpa [sdoRejected, Config.sdoMaxLen] using h)

/-- Settles O18: `sdoSendReq_accepted` and `sdoSendReq_rejected`. -/
theorem sdoSendReqTransmitsOrRejects : Obligations.SdoSendReqTransmitsOrRejects := by
  intro s d hr
  have hexec : exec (.sdoSendReq d) s = .next (sdoSendReq d s) := whenReady_ready hr _
  rw [hexec]
  refine ⟨fun h => ⟨idFrom 0x600 (maskNode d.node), ?_, by rw [sdoSendReq_accepted h]⟩,
    fun h => by rw [sdoSendReq_rejected h]⟩
  rw [idFrom_toNat (by decide), maskNode, BitVec.toNat_setWidth]

/-- Settles O19: `sdoSendRsp_accepted` and the two rejections; the node stands in no field of the encoded frame. -/
theorem sdoSendRspTransmitsOrRejects : Obligations.SdoSendRspTransmitsOrRejects := by
  intro s d hr
  have hrsp : exec (.sdoSendRsp d) s = .next (sdoSendRsp d s) := whenReady_ready hr _
  have hreq : exec (.sdoSendReq d) s = .next (sdoSendReq d s) := whenReady_ready hr _
  rw [hrsp, hreq]
  refine ⟨fun h => ⟨idFrom 0x580 s.regs.own, idFrom_toNat (by decide) _, by rw [sdoSendRsp_accepted h]⟩, fun h => ?_,
    fun node => (whenReady_ready hr _).trans rfl⟩
  rw [sdoSendRsp_rejected h, sdoSendReq_rejected h]
  exact ⟨rfl, rfl⟩

/-! ### The replies from filtered nodes (R182, R305) -/

theorem sdoDecode_congr {f g : Frame} (h : f.data = g.data) (node : Byte) : sdoDecode f node = sdoDecode g node := by
  simp only [sdoDecode, h]

/-- Settles O21: both frames notify the same descriptor, whose node is the own address. -/
theorem filteredReplyHidesItsSender : Obligations.FilteredReplyHidesItsSender := by
  intro s f g hf hg hdata
  show whenReady s (if selected s.ctx (.sdoRpyRxFlt f) then _ else _) =
    whenReady s (if selected s.ctx (.sdoRpyRxFlt g) then _ else _)
  rw [if_pos hf, if_pos hg, sdoRx, sdoRx, sdoDecode_congr hdata]

end Sys2Proof.Machine

/-! ## The settled statements on the PDO gate and the heartbeat producer -/

namespace Sys2Proof.Machine

variable {s : State}

/-! ### `PDO.SEND` (R200, R201) -/

theorem pdoRejected_eq_false_iff {id length : Nat} :
    pdoRejected id length = false ↔ 0x181 ≤ id ∧ id ≤ 0x57F ∧ length ≤ 8 := by
  have hmax : Config.frameMaxLen = 8 := rfl
  simp only [pdoRejected, hmax, Bool.or_eq_false_iff, decide_eq_false_iff_not]
  omega

theorem pdoSend_accepted {id length : Nat} (h : pdoRejected id length = false) (p : Bytes8) :
    pdoSend id length p s = transmitted (pdoFrame id length p) s :=
  (if_neg (by simp [h])).trans (sendFrame_eq_transmitted _ _)

theorem pdoSend_rejected {id length : Nat} (h : pdoRejected id length = true) (p : Bytes8) :
    pdoSend id length p s = answered .rejectedParam s := if_pos h

theorem exec_pdoSend_rejected {id length : Nat} (hr : s.regs.ready = true) (h : id < 0x181 ∨ 0x57F < id ∨ 8 < length)
    (p : Bytes8) : exec (.pdoSend id length p) s = .next (answered .rejectedParam s) := by
  have hrejected : pdoRejected id length = true := by
    rw [← Bool.not_eq_false, pdoRejected_eq_false_iff]
    omega
  exact (whenReady_ready hr _).trans (congrArg _ (pdoSend_rejected hrejected p))

/-- Settles O22: the accepted frame is `pdoFrame`, whose identifier and length are the operands. -/
theorem pdoSendTransmitsExactlyInRange : Obligations.PdoSendTransmitsExactlyInRange := by
  refine fun s id length p hr => ⟨fun hlow hhigh hlen => ?_, fun h => exec_pdoSend_rejected hr h p⟩
  have hin : pdoRejected id length = false := pdoRejected_eq_false_iff.2 ⟨hlow, hhigh, hlen⟩
  refine ⟨(pdoFrame id length p).id, (pdoFrame id length p).dlc, pdoFrame_id_toNat p hin, ?_, ?_⟩
  · exact Nat.mod_eq_of_lt (by omega)
  · exact (whenReady_ready hr _).trans (congrArg _ (pdoSend_accepted hin p))

/-- Settles O24: 0x180 lies in the range of R123 and below that of R200. -/
theorem identifier180IsReceiveOnly : Obligations.Identifier180IsReceiveOnly := by
  refine ⟨fun s f hid => ?_, fun s length p hr => exec_pdoSend_rejected hr (.inl (by decide)) p⟩
  refine (decodeFrame_eq_instr_iff (by simp [frameRows])).2 (selected_pdoRx.2 ?_)
  rw [hid]
  decide

/-! ### The heartbeat producer (R211 to R213) -/

/-- Settles O25: the table of `hbCode`. -/
theorem heartbeatCodesOfTheFiveStates : Obligations.HeartbeatCodesOfTheFiveStates :=
  fun _ => ⟨rfl, rfl, rfl, rfl, rfl⟩

/-- Settles O26: the frame of an emission is `hbFrame`, and its line is the one of a failed transmission. -/
theorem heartbeatEmissionTransmitsOneFrame : Obligations.HeartbeatEmissionTransmitsOneFrame := by
  refine fun s => ⟨idFrom 0x700 s.regs.own, idFrom_toNat (by decide) _, ?_⟩
  have hline : diagLines s.regs.debug (txAnswer s.env == .busError) .heartbeatTransmitFailed =
      if txAnswer s.env = .busError ∧ s.regs.debug = true then [.heartbeatTransmitFailed] else [] := by
    cases txAnswer s.env <;> cases s.regs.debug <;> rfl
  rw [← hline]
  rfl

/-- The due test in arithmetic (R212). -/
theorem hbDue_iff {now last interval : Time} :
    hbDue now last interval = true ↔ interval.toNat ≤ (now.toNat + 4294967296 - last.toNat) % 4294967296 := by
  have hlast := last.isLt
  rw [hbDue, decide_eq_true_iff, BitVec.toNat_sub]
  omega

theorem hbTick_due {t : Time} (h : hbDue t s.regs.hbLast s.regs.hbInterval = true) :
    hbTick t s = hbEmit (s.setHbLast t) := if_pos h

theorem hbTick_idle {t : Time} (h : ¬hbDue t s.regs.hbLast s.regs.hbInterval = true) : hbTick t s = s := if_neg h

/-- Settles O27: the two branches of the timer check, under `hbDue_iff`. -/
theorem heartbeatTickEmitsExactlyWhenDue : Obligations.HeartbeatTickEmitsExactlyWhenDue :=
  fun _ _ => ⟨fun h => hbTick_due (hbDue_iff.2 h), fun h => hbTick_idle (mt hbDue_iff.1 (by omega))⟩

end Sys2Proof.Machine

/-! ## The settled statements on the receive interrupt and `POLL`

`POLL` is its drain and then the timer check at the clock value read there (`exec_poll`). -/

namespace Sys2Proof.Machine

variable {f : Frame} {s t : State}

/-! ### Receiving (R245) -/

theorem receive_frame (h : (rx s).1 = some f) : receive s = dispatch f (rx s).2 := by
  simp only [receive, h]

theorem receive_none (h : (rx s).1 = none) : receive s = .next (rx s).2 := by
  simp only [receive, h]

theorem receive_nowIn (h : receive s = .next t) : t.env.nowIn = s.env.nowIn := by
  cases hrx : (rx s).1 with
  | none =>
    rw [receive_none hrx] at h
    cases h
    exact rx_nowIn s
  | some f =>
    rw [receive_frame hrx] at h
    obtain ⟨⟨-, -, hinputs, -, -, -, -⟩, -⟩ := dispatch_effect h
    obtain ⟨-, -, -, hnow⟩ := hinputs
    exact hnow.trans (rx_nowIn s)

/-- Settles O28: the three heads of the input list, and completion by `receive_completes`. -/
theorem rxirqDispatchesTheReceivedFrame : Obligations.RxirqDispatchesTheReceivedFrame := by
  intro s hr
  have hexec : exec .rxirq s = receive s := whenReady_ready hr _
  rw [hexec]
  refine ⟨fun f rest h => ?_, fun rest h => ?_, fun h => ?_, fun hl => ?_⟩
  · simp only [receive, rx_listed h]
  · simp only [receive, rx_listed h]
  · simp only [receive, rx_exhausted h]
  · obtain ⟨t, ht⟩ := receive_completes hl
    exact ⟨t, ht, (receive_effect ht).1⟩

/-! ### `POLL` (R246) -/

theorem drain_idle (h : (pending s).1 = false) : drain s = .next (pending s).2 := if_neg (by simp [h])

theorem drain_pending (h : (pending s).1 = true) : drain s = receive (pending s).2 := if_pos h

theorem drain_nowIn (h : drain s = .next t) : t.env.nowIn = s.env.nowIn := by
  cases hp : (pending s).1 with
  | false =>
    rw [drain_idle hp] at h
    cases h
    exact pending_nowIn s
  | true =>
    rw [drain_pending hp] at h
    exact (receive_nowIn h).trans (pending_nowIn s)

theorem exec_poll (hr : s.regs.ready = true) (h : drain s = .next t) :
    exec .poll s = .next (hbTick (now t).1 (now t).2) := by
  refine (whenReady_ready hr _).trans ?_
  rw [h, andThen_next, checkTimer]

/-- Settles O29: the intermediate state is what the drain answers. -/
theorem pollDrainsThenChecksTheTimer : Obligations.PollDrainsThenChecksTheTimer := by
  intro s hr hl
  obtain ⟨u, hu⟩ := drain_completes hl
  refine ⟨u, exec_poll hr hu, (drain_effect hu).1, drain_nowIn hu, fun hp => ?idle, fun hp hrx => ?none,
    fun f hp hrx => ?frame⟩
  case idle =>
    rw [drain_idle hp] at hu
    cases hu
    rfl
  case none =>
    rw [drain_pending hp, receive_none hrx] at hu
    cases hu
    rfl
  case frame => rw [← receive_frame hrx, ← drain_pending hp, hu]

theorem hbEmit_sent (s : State) :
    (hbEmit s).out.sent =
      s.out.sent ++ [(hbFrame s.regs.own (hbCode s.params.hbResetByte s.regs.nmt), txAnswer s.env)] :=
  sent_of_trace_append (hbEmit_trace s)

/-- The drain of a listed command enters the state it commands. -/
theorem drain_command {ps : List Bool} {rest : List (Option Frame)} {new : NmtState} (hp : s.env.pendingIn = true :: ps)
    (hrx : s.env.rxIn = some f :: rest) (hcmd : CommandsState s.regs.own f new) (h : drain s = .next t) :
    t.regs.nmt = new := by
  obtain ⟨hid, haddr, htarget⟩ := hcmd
  rw [drain_pending (by rw [pending_listed hp]), receive_frame (f := f) (by rw [rx_listed (by rw [pending_rxIn, hrx])]),
    dispatch_nmt hid, if_pos (by simpa using haddr)] at h
  exact (nmtApply_route h).2.1 new htarget

/-- Settles O30: the timer check of `POLL` runs on the state the drain left, so it emits the code of the commanded state. -/
theorem drainedCommandShowsInTheSamePollsHeartbeat : Obligations.DrainedCommandShowsInTheSamePollsHeartbeat := by
  intro s f ps rest t ts new hr hl hp hrx hnow hid haddr htarget hdue
  obtain ⟨u, hu⟩ := drain_completes hl
  have hnmt : u.regs.nmt = new := drain_command hp hrx ⟨hid, haddr, htarget⟩ hu
  obtain ⟨hregs, hparams, -⟩ := drain_effect hu
  have hclock := now_listed ((drain_nowIn hu).trans hnow)
  have hdue' : hbDue t u.regs.hbLast u.regs.hbInterval = true := by
    rw [hregs]
    exact decide_eq_true hdue
  have hpoll := exec_poll hr hu
  rw [hclock, hbTick_due (s := { u with env := { u.env with nowIn := ts } }) hdue'] at hpoll
  refine ⟨_, idFrom 0x700 s.regs.own, txAnswer { u.env with nowIn := ts }, hpoll, ?_, ?_, idFrom_toNat (by decide) _, ?_⟩
  · rw [(hbEmit_effect _).regs]
    exact hnmt
  · rw [(hbEmit_effect _).regs]
    rfl
  · have hown : u.regs.own = s.regs.own := by rw [hregs]
    rw [hbEmit_sent, List.getLast?_concat, ← hnmt, ← hparams, ← hown]
    rfl

end Sys2Proof.Machine

/-! ## The settled statements on listeners

An invoked listener takes the next reaction listed; a send it issues is the operation itself (`issuedByListener_send`), anything
else is refused. -/

namespace Sys2Proof.Machine

variable {s : State} {cat : Category} {p : Payload}

/-- A send from a listener is the send (R235). -/
theorem issuedByListener_send {i : Instr} (hr : s.regs.ready = true) (hi : isSend i = true) :
    issuedByListener i s = exec i s := by
  cases i with
  | sdoSendReq _ | sdoSendRsp _ | pdoSend _ _ _ | nmtSend _ _ => exact (whenReady_ready hr _).symm
  | _ => cases hi

theorem issuedByListener_refused {i : Instr} (hi : isSend i = false) (s : State) :
    issuedByListener i s = .refused .reentrancy := by
  cases i with
  | sdoSendReq _ | sdoSendRsp _ | pdoSend _ _ _ | nmtSend _ _ => cases hi
  | _ => rfl

theorem listenerRuns_exhausted (h : s.env.reactIn = []) : listenerRuns s = .next s := by
  simp only [listenerRuns, h]

theorem listenerRuns_returns {issued : List Instr} {rest : List Reaction} (h : s.env.reactIn = .returns issued :: rest) :
    listenerRuns s = runIssued issued { s with env := { s.env with reactIn := rest } } := by
  simp only [listenerRuns, h]

theorem listenerRuns_neverReturns {rest : List Reaction} (h : s.env.reactIn = .neverReturns :: rest) :
    listenerRuns s = .fault .listenerStuck := by
  simp only [listenerRuns, h]

/-- The first listener of a category is invoked with slot 0, before the others (R232). -/
theorem notify_cons {h : Handle} {hs : List Handle} (hslots : s.regs.lst.slots cat = h :: hs) :
    notify cat p s = andThen (listenerRuns (s.emit (.ev cat 0 h p))) (invokeFrom cat p 1 hs) := by
  rw [notify, hslots]
  rfl

/-- Settles O39: `notify_completes` with `notify_effect`, an empty category, and `notify_quiet`. -/
theorem notifyInvokesEverySlotInOrder : Obligations.NotifyInvokesEverySlotInOrder := by
  refine fun s cat p => ⟨fun hl => ?_, fun hempty => ?_, fun hreact => ?_⟩
  · obtain ⟨t, ht⟩ := notify_completes (cat := cat) (p := p) hl
    exact ⟨t, ht, notify_effect ht⟩
  · rw [notify, hempty]
    rfl
  · rw [notify_quiet (by simp [ListenersQuiet, hreact]), hreact, List.drop_nil, ← hreact]

/-- Settles O40: the send runs between the two invocations, and takes no reaction. -/
theorem nestedSendPrecedesTheNextListener : Obligations.NestedSendPrecedesTheNextListener := by
  intro s u cat p h0 h1 i hr hslots hreact hi hexec
  have hsend := (issuedByListener_send (by exact hr) hi).trans hexec
  have hquiet : u.env.reactIn = [] := (issuedByListener_effect hsend).reactIn
  have hfirst : listenerRuns (s.emit (.ev cat 0 h0 p)) = .next u := by
    rw [listenerRuns_returns (s := s.emit (.ev cat 0 h0 p)) hreact, runIssued]
    exact (congrArg (andThen · (runIssued [])) hsend).trans rfl
  rw [notify_cons hslots, hfirst, andThen_next, invokeFrom, listenerRuns_exhausted (s := u.emit _) hquiet]
  rfl

/-- Settles O41: the first operation issued is refused, and with it everything after it. -/
theorem reentrantListenerIsRefused : Obligations.ReentrantListenerIsRefused := by
  intro s cat p h hs i is rest hslots hreact hi
  rw [notify_cons hslots, listenerRuns_returns (s := s.emit _) hreact, runIssued, issuedByListener_refused hi]
  rfl

/-- Settles O42: the first invocation is the fault. -/
theorem listenerThatDoesNotReturnIsStuck : Obligations.ListenerThatDoesNotReturnIsStuck := by
  intro s cat p h hs rest hslots hreact
  rw [notify_cons hslots, listenerRuns_neverReturns (s := s.emit _) hreact]
  rfl

end Sys2Proof.Machine

/-! ## The settled statements on every operation: events, writers, a slave's frames, completion

Each is read off the inversion lemmas `exec_effect`, `init_effect` and `exec_nmt_writer`. -/

namespace Sys2Proof.Machine

variable {i : Instr} {s t : State}

/-! ### Events (R236) -/

theorem exec_send_effect (hi : isSend i = true) (h : exec i s = .next t) : SendEffect s t := by
  by_cases hr : s.regs.ready = true
  · exact issuedByListener_effect ((issuedByListener_send hr hi).trans h)
  · rw [exec_unready (Bool.not_eq_true _ ▸ hr) (by rintro a r hb d rfl; cases hi)] at h
    cases h

@[simp] theorem listenerReg_out (c : Category) (h : Handle) (s : State) : (listenerReg c h s).out = s.out := by
  unfold listenerReg
  split <;> rfl

@[simp] theorem filterAdd_trace (a : Nat) (s : State) : (filterAdd a s).out.trace = s.out.trace := by
  unfold filterAdd
  dsimp only
  split <;> rfl

/-- Settles O43: what each of these operations adds to the history, which is no event. -/
theorem onlyTheListedOperationsProduceEvents : Obligations.OnlyTheListedOperationsProduceEvents := by
  refine ⟨fun s t i h hi => ?_, fun s t => ?timer⟩
  case timer =>
    obtain ⟨-, -, -, -, -, htrace, -⟩ := hbTick_effect t s
    exact events_of_sendEntries htrace
  obtain hsend | ⟨a, r, hb, d, rfl⟩ | ⟨c, x, rfl⟩ | ⟨a, rfl⟩ | ⟨f, rfl⟩ | ⟨f, rfl⟩ := hi
  · exact events_of_sendEntries (exec_send_effect hsend h).trace
  · obtain ⟨-, -, -, -, -, htrace, -⟩ := init_effect h
    exact events_congr htrace
  · cases (whenReady_eq_next.1 h).2
    rw [listenerReg_out]
  · cases (whenReady_eq_next.1 h).2
    exact events_congr (filterAdd_trace a s)
  · cases (whenSelected_eq_next.1 h).2.2
    exact diagIf_events _ _ s
  · cases (whenSelected_eq_next.1 h).2.2
    rfl

/-! ### Writers (R25, R28, R32) -/

/-- Settles O44: the fields of `exec_effect` on the configuration. -/
theorem configurationIsReadOnlyAfterInit : Obligations.ConfigurationIsReadOnlyAfterInit := by
  intro s t i h hi
  have e := exec_effect hi h
  exact ⟨e.own, e.role, e.hbInterval, e.debug, e.ready, e.params⟩

/-- Settles O45: the fields of `exec_effect`; for `nmt` the writers of `exec_nmt_writer`. -/
theorem everyRegisterHasOnlyItsListedWriters : Obligations.EveryRegisterHasOnlyItsListedWriters := by
  intro s t i h hi
  have e := exec_effect hi h
  refine ⟨e.own, e.role, e.hbInterval, e.debug, fun hcmd hboot hrx hpoll => ?_, e.bootDone, e.hbLast, e.filt, e.lst⟩
  by_contra hne
  obtain ⟨a, r, hb, d, rfl⟩ | ⟨rfl, -⟩ | ⟨f, -, hf⟩ := exec_nmt_writer h hne
  · exact hi a r hb d rfl
  · exact hboot rfl
  · obtain ⟨hstart, hstop, hpreop, hreset⟩ := hcmd f
    obtain rfl | rfl | rfl | rfl | ⟨rfl | rfl, -⟩ := hf
    · exact hstart rfl
    · exact hstop rfl
    · exact hpreop rfl
    · exact hreset rfl
    · exact hrx rfl
    · exact hpoll rfl

/-- No command byte names `Bootup`. -/
theorem nmtTarget_ne_bootup (c : Byte) : nmtTarget c ≠ some .bootup := by
  intro h
  obtain ⟨-, h⟩ | ⟨-, h⟩ | ⟨-, h⟩ | ⟨-, h⟩ := nmtTarget_eq_some h <;> cases h

/-- Settles O47: of the writers of `nmt` only `INIT` can write `Bootup`, and it does so for a slave. -/
theorem onlyInitReturnsToBootup : Obligations.OnlyInitReturnsToBootup := by
  intro s t i h hboot hs
  obtain ⟨a, r, hb, d, rfl⟩ | ⟨-, hpre⟩ | ⟨f, ⟨-, -, htarget⟩, -⟩ := exec_nmt_writer h (hboot ▸ hs.symm)
  · obtain ⟨-, -, hregs, -⟩ := init_effect h
    rw [hregs] at hboot
    cases r with
    | master => cases hboot
    | slave => exact ⟨a, hb, d, rfl⟩
  · rw [hpre] at hboot
    cases hboot
  · exact absurd (hboot ▸ htarget) (nmtTarget_ne_bootup _)

/-! ### The frames of a slave (R39) -/

theorem routeEntry_slave_tx {l : ListenerTable} {f : Frame} {r : TxResult} (h : routeEntry .slave l (.tx f r) = true) :
    f.id ≠ 0 := by
  simp only [routeEntry, sendEntry, Bool.and_eq_true] at h
  simpa using h.2

/-- Settles O48: the added entries are those of `exec_effect` in role slave, and none of an `INIT`. -/
theorem slaveNeverEmitsAnNmtCommand : Obligations.SlaveNeverEmitsAnNmtCommand := by
  intro s t i hslave h
  obtain ⟨a, r, hb, d, rfl⟩ | hi := init_or_not i
  · obtain ⟨-, -, -, -, -, htrace, -⟩ := init_effect h
    exact ⟨[], by rw [htrace, List.append_nil], by simp⟩
  · obtain ⟨new, hnew, hP⟩ := (exec_effect hi h).trace
    rw [hslave] at hP
    exact ⟨new, hnew, fun f r hmem => routeEntry_slave_tx (List.all_eq_true.1 hP _ hmem)⟩

/-! ### Completion (R100, R234) -/

theorem bootdone_completes (hl : ListenersLawful s) : ∃ t, bootdone s = .next t := by
  unfold bootdone
  split
  · exact enterState_completes (s := s.setBootDone) hl
  · exact ⟨_, rfl⟩

/-- Every operation completes where it is permitted. -/
theorem exec_completes (hp : permitted s i = true) (hl : ListenersLawful s) : ∃ t, exec i s = .next t := by
  have row {r : Result State} (hexec : exec i s = whenSelected i s r) (hc : ∃ t, r = .next t)
      (h : (s.regs.ready && selected s.ctx i) = true) : ∃ t, exec i s = .next t := by
    obtain ⟨hr, hs⟩ := (Bool.and_eq_true _ _).mp h
    rw [hexec, whenSelected_selected hr hs]
    exact hc
  have host {r : Result State} (hexec : exec i s = whenReady s r) (hc : ∃ t, r = .next t) (h : s.regs.ready = true) :
      ∃ t, exec i s = .next t := by
    rw [hexec, whenReady_ready h]
    exact hc
  cases i with
  | nmtStart f | nmtStop f | nmtPreop f | nmtReset f => exact row rfl (enterState_completes hl) hp
  | nmtIgn f | unparsed f => exact row rfl ⟨_, rfl⟩ hp
  | pdoRx f | hbRx f => exact row rfl (notify_completes hl) hp
  | sdoReqRx f | sdoRpyRxOwn f | sdoRpyRxFlt f | sdoRpyRxMst f => exact row rfl (sdoRx_completes hl) hp
  | init a r hb d =>
    simp only [permitted, Bool.and_eq_true, decide_eq_true_eq] at hp
    exact init_completes hp.1 hp.2 r hb d s
  | listenerReg _ _ | filterAdd _ | sdoSendReq _ | sdoSendRsp _ | pdoSend _ _ _ | nmtSend _ _ => exact host rfl ⟨_, rfl⟩ hp
  | rxirq => exact host rfl (receive_completes hl) hp
  | poll =>
    obtain ⟨u, hu⟩ := drain_completes hl
    exact ⟨_, exec_poll hp hu⟩
  | nmtBootdone =>
    obtain ⟨hr, henabled⟩ := (Bool.and_eq_true _ _).mp hp
    exact host (congrArg (whenReady s) (if_pos henabled)) (bootdone_completes hl) hr

/-- An operation takes reactions from the front of the list, so the rest of a lawful list is left. -/
theorem exec_lawful (hl : ListenersLawful s) (h : exec i s = .next t) : ListenersLawful t := by
  obtain ⟨a, r, hb, d, rfl⟩ | hi := init_or_not i
  · obtain ⟨-, -, -, -, henv, -⟩ := init_effect h
    rwa [ListenersLawful, henv]
  · obtain ⟨n, hn⟩ := (exec_effect hi h).reactIn
    rw [ListenersLawful, hn]
    exact lawful_drop n hl

/-- Settles O53: `exec_completes` and `exec_lawful`. -/
theorem everyPermittedOperationCompletes : Obligations.EveryPermittedOperationCompletes := by
  intro s i hp hl
  obtain ⟨t, ht⟩ := exec_completes hp hl
  exact ⟨t, ht, exec_lawful hl ht⟩

end Sys2Proof.Machine
